-- ==== Sys2Proof/Word.lean ====
section
/-! DEFINITION. The word types of the block (00_scope.md R8: u8, u16, u32; nothing is signed). -/

namespace Sys2Proof

/-- A word of the 32-bit host port, and a response's data (R70, R71). -/
abbrev Word := BitVec 32

/-- A byte of a payload, a table or a buffer. -/
abbrev Byte := BitVec 8

/-- A 16-bit pulse symbol (R120). -/
abbrev Symbol := BitVec 16

/-- A 4-bit nibble, which selects a symbol (R120). -/
abbrev Nibble := BitVec 4

end Sys2Proof
end

