-- ==== Sys2Proof/Syntax.lean ====
section
/-! DEFINITION. The commands of the block, one constructor for each row of the opcode table (30_encoding.md R72). -/

namespace Sys2Proof

/-- The field that `DESC_RD` reads (R78: `FLD` 0 to 3). -/
inductive DescField
  | buf
  | len
  | next
  | flags
  deriving DecidableEq, Repr

/-- A command with its operands. Fields have the widths of R73 to R79, so every value a field can
carry is a term; the values that are out of range decode and raise an error at execution (R83). -/
inductive Instr
  /-- `INIT COUNT` (R73, R173). -/
  | init (count : BitVec 16)
  /-- `SHOW COUNT` and its payload of `3 * COUNT` bytes (R70, R73, R177). -/
  | showPixels (count : BitVec 16) (payload : List Byte)
  /-- `TEARDOWN` (R74, R183). -/
  | teardown
  /-- `LUT_RD PH, VAL` (R75, R109). -/
  | lutRd (ph : BitVec 3) (val : Byte)
  /-- `SYM_RD NIB` (R76, R127). -/
  | symRd (nib : Nibble)
  /-- `ENC PH, VAL` (R75, R128). -/
  | enc (ph : BitVec 3) (val : Byte)
  /-- `BUF_RDH SEL, IDX` (R77, R155). -/
  | bufRdh (sel : BitVec 4) (idx : BitVec 20)
  /-- `BUF_RDB SEL, IDX` (R77, R156). -/
  | bufRdb (sel : BitVec 4) (idx : BitVec 20)
  /-- `DESC_RD FLD, DI` (R78, R157). -/
  | descRd (fld : DescField) (di : BitVec 4)
  /-- `REG_RD RN` (R79, R187). -/
  | regRd (rn : BitVec 4)
  deriving DecidableEq, Repr

end Sys2Proof
end

