-- ==== Sys2Proof/WellFormed.lean ====
section
/-! DEFINITION. Which terms are commands of the block: the one check that the types do not make. -/

namespace Sys2Proof

/-- A `SHOW` carries exactly `3 * COUNT` payload bytes (R70); every other term is well formed, since
its fields have the encoding's widths. -/
def Instr.wellFormed : Instr → Bool
  | .init _ => true
  | .showPixels count payload => payload.length == 3 * count.toNat
  | .teardown => true
  | .lutRd _ _ => true
  | .symRd _ => true
  | .enc _ _ => true
  | .bufRdh _ _ => true
  | .bufRdb _ _ => true
  | .descRd _ _ => true
  | .regRd _ => true

end Sys2Proof
end

