-- ==== Sys2Proof/Decode.lean ====
section
/-! DEFINITION. Decoding of command words and payloads (30_encoding.md R70 to R84), total on any list of
port words and rejecting by name; and, after it, the encoder from the same tables. -/

namespace Sys2Proof

/-! ## Fields -/

/-- Bits [31:28], the opcode `OP` (R72). -/
def opField (w : Word) : BitVec 4 := w.extractLsb' 28 4

/-- The field `FLD` of format `FDF` (R78). -/
def descFieldOf (b : BitVec 2) : DescField :=
  if b = 0#2 then .buf else if b = 1#2 then .len else if b = 2#2 then .next else .flags

/-! ## Payload packing (R70) -/

/-- The four bytes of a port word, byte `k mod 4` at bits `[8*(k mod 4)+7 : 8*(k mod 4)]` (R70). -/
def wordBytes (w : Word) : List Byte :=
  [w.extractLsb' 0 8, w.extractLsb' 8 8, w.extractLsb' 16 8, w.extractLsb' 24 8]

/-- The bytes of a sequence of port words, in payload order. -/
def wordsBytes : List Word → List Byte
  | [] => []
  | w :: ws => wordBytes w ++ wordsBytes ws

/-- `ceil(3 * COUNT / 4)`, the payload words of a `SHOW` of `COUNT` pixels (R70). -/
def payloadLen (count : BitVec 16) : Nat := (3 * count.toNat + 3) / 4

/-! ## Decoding -/

/-- Why a word is `Illegal` (R82). -/
inductive IllegalCause
  /-- A reserved opcode, 0x0 or 0xB to 0xF. -/
  | reservedOpcode (op : BitVec 4)
  /-- A nonzero reserved bit under an opcode of R72. -/
  | reservedBits (op : BitVec 4)
  deriving DecidableEq, Repr

/-- What a command word alone decodes to. A word decodes to `SHOW` before its payload is read (R81). -/
inductive Head
  /-- A command with no payload. -/
  | plain (i : Instr)
  /-- `SHOW COUNT`, its payload still to be read. -/
  | showHead (count : BitVec 16)
  | illegal (cause : IllegalCause)
  deriving DecidableEq, Repr

/-- The decoding of R81, case by case. -/
def decodeHead (w : Word) : Head :=
  let op := opField w
  if op = 0x1#4 then
    if w.extractLsb' 16 12 = 0 then .plain (.init (w.extractLsb' 0 16)) else .illegal (.reservedBits op)
  else if op = 0x2#4 then
    if w.extractLsb' 16 12 = 0 then .showHead (w.extractLsb' 0 16) else .illegal (.reservedBits op)
  else if op = 0x3#4 then
    if w.extractLsb' 0 28 = 0 then .plain .teardown else .illegal (.reservedBits op)
  else if op = 0x4#4 then
    if w.extractLsb' 11 17 = 0 then .plain (.lutRd (w.extractLsb' 8 3) (w.extractLsb' 0 8))
    else .illegal (.reservedBits op)
  else if op = 0x5#4 then
    if w.extractLsb' 4 24 = 0 then .plain (.symRd (w.extractLsb' 0 4)) else .illegal (.reservedBits op)
  else if op = 0x6#4 then
    if w.extractLsb' 11 17 = 0 then .plain (.enc (w.extractLsb' 8 3) (w.extractLsb' 0 8))
    else .illegal (.reservedBits op)
  else if op = 0x7#4 then
    if w.extractLsb' 20 4 = 0 then .plain (.bufRdh (w.extractLsb' 24 4) (w.extractLsb' 0 20))
    else .illegal (.reservedBits op)
  else if op = 0x8#4 then
    if w.extractLsb' 20 4 = 0 then .plain (.bufRdb (w.extractLsb' 24 4) (w.extractLsb' 0 20))
    else .illegal (.reservedBits op)
  else if op = 0x9#4 then
    if w.extractLsb' 10 18 = 0 ∧ w.extractLsb' 4 4 = 0 then
      .plain (.descRd (descFieldOf (w.extractLsb' 8 2)) (w.extractLsb' 0 4))
    else .illegal (.reservedBits op)
  else if op = 0xA#4 then
    if w.extractLsb' 4 24 = 0 then .plain (.regRd (w.extractLsb' 0 4)) else .illegal (.reservedBits op)
  else .illegal (.reservedOpcode op)

/-- How many payload words follow a command word: `OP` and `COUNT` alone tell (R81). -/
def payloadWords (w : Word) : Nat :=
  match decodeHead w with
  | .showHead count => payloadLen count
  | .plain _ => 0
  | .illegal _ => 0

/-- What a list of port words decodes to. -/
inductive Decoded
  /-- A command, and the words after its transaction. -/
  | ok (i : Instr) (rest : List Word)
  /-- An illegal command word, and the words after that one word (R82). -/
  | illegal (cause : IllegalCause) (rest : List Word)
  /-- A `SHOW` with fewer than `ceil(3 * COUNT / 4)` words after it: no transaction (R70). -/
  | shortPayload
  /-- No word at all. -/
  | noWord
  deriving DecidableEq, Repr

/-- Decoding of a list of port words, total (R70, R81, R82). -/
def decode : List Word → Decoded
  | [] => .noWord
  | w :: ws =>
    match decodeHead w with
    | .plain i => .ok i ws
    | .illegal cause => .illegal cause ws
    | .showHead count =>
      if ws.length < payloadLen count then .shortPayload
      else .ok (.showPixels count ((wordsBytes (ws.take (payloadLen count))).take (3 * count.toNat)))
        (ws.drop (payloadLen count))

/-- The first `n` 32-bit words of the bits `w`, the first word the least significant. -/
def wordsOfNat : Nat → Nat → List Word
  | 0, _ => []
  | n + 1, w => BitVec.ofNat 32 w :: wordsOfNat n (w / 2 ^ 32)

/-- The command that the decoder reads from the `nbits` bits `w`, numbered as the opcode table numbers
them; bits at and above `nbits` are 0. -/
def decodeTableWord (nbits w : Nat) : Option Instr :=
  let bits := w % 2 ^ nbits
  match decode (wordsOfNat (1 + payloadWords (BitVec.ofNat 32 bits)) bits) with
  | .ok i [] => some i
  | .ok _ (_ :: _) => none
  | .illegal _ _ => none
  | .shortPayload => none
  | .noWord => none

/-! ## Encoding, from the same tables (R70, R72 to R79) -/

/-- `FLD` of format `FDF` (R78). -/
def descFieldBits : DescField → BitVec 2
  | .buf => 0#2
  | .len => 1#2
  | .next => 2#2
  | .flags => 3#2

/-- Payload bytes packed little-endian into port words, pad bytes 0 (R70). -/
def packBytes : List Byte → List Word
  | [] => []
  | [a] => [0#8 ++ 0#8 ++ 0#8 ++ a]
  | [a, b] => [0#8 ++ 0#8 ++ b ++ a]
  | [a, b, c] => [0#8 ++ c ++ b ++ a]
  | a :: b :: c :: d :: t => (d ++ c ++ b ++ a) :: packBytes t

/-- The words of a transaction: the command word (formats of R73 to R79), then the payload. -/
def encode : Instr → List Word
  | .init count => [0x1#4 ++ 0#12 ++ count]
  | .showPixels count payload => (0x2#4 ++ 0#12 ++ count) :: packBytes payload
  | .teardown => [0x3#4 ++ 0#28]
  | .lutRd ph val => [0x4#4 ++ 0#17 ++ ph ++ val]
  | .symRd nib => [0x5#4 ++ 0#24 ++ nib]
  | .enc ph val => [0x6#4 ++ 0#17 ++ ph ++ val]
  | .bufRdh sel idx => [0x7#4 ++ sel ++ 0#4 ++ idx]
  | .bufRdb sel idx => [0x8#4 ++ sel ++ 0#4 ++ idx]
  | .descRd fld di => [0x9#4 ++ 0#18 ++ descFieldBits fld ++ 0#4 ++ di]
  | .regRd rn => [0xA#4 ++ 0#24 ++ rn]

end Sys2Proof
end

