-- ==== Sys2Proof/Config.lean ====
section
/-! DEFINITION. The parameters of a block instance (00_scope.md R5) and the free values behind the open choices. -/

namespace Sys2Proof

/-- Which nibble bit the most significant group of a symbol carries (R5, R121). -/
inductive GroupOrder
  | msbFirst
  | lsbFirst
  deriving DecidableEq, Repr

/-- Which nibble's symbol is written first (R5, R124). -/
inductive NibbleOrder
  | lowFirst
  | highFirst
  deriving DecidableEq, Repr

/-- The byte order of a symbol in buffer memory (R5, R53). -/
inductive Endian
  | little
  | big
  deriving DecidableEq, Repr

/-- The order of the two byte writes of one symbol (R54 (a), R144). -/
inductive ByteOrder
  | lowByteFirst
  | highByteFirst
  deriving DecidableEq, Repr, Inhabited

/-- The fields of a descriptor, as `DESC_LAYOUT` places them (R40). -/
inductive LayoutField
  | buf
  | len
  | next
  | owner
  | eof
  deriving DecidableEq, Repr

/-- The place of one descriptor field in the bits an external DMA Engine reads. DESIGN CHOICE (log entry
28): the spec gives `DESC_LAYOUT` no form (R40, R52, R147, D17). -/
structure LayoutPlace where
  field : LayoutField
  lsb : Nat
  width : Nat
  deriving DecidableEq, Repr

/-- A buffer reference (R9, R50). -/
inductive Machine.Buf
  | phase (p : Nat)
  | gap
  deriving DecidableEq, Repr

/-- Where the platform places one buffer for its DMA Engine: the bus address of its first byte (R52, D42).
DESIGN CHOICE (log entry 28): the bytes of a buffer stand at rising addresses from there. -/
structure BufferPlace where
  buf : Machine.Buf
  base : Nat
  deriving DecidableEq, Repr

/-- `DESC_LAYOUT`: the bits of a descriptor as the external DMA Engine reads it (R5, R147), and the placement
of the buffers at bus addresses, which R52 puts in the same parameter. DESIGN CHOICE (log entry 28): the
form of both. -/
structure DescLayout where
  fields : List LayoutPlace
  placement : List BufferPlace
  deriving DecidableEq, Repr

/-- The parameters of one block instance, with the names of R5. OPEN parameters have no default.
The decided ones have the decided value as their default, and every rule is stated for any value.
`GAMMA` is a real number and no field: it stands in the predicates on `gdt` (R102, R103, log entry 10). -/
structure Params where
  /-- `N`, the number of dither phases. -/
  dither : Nat
  /-- `MAX_LEDS`. -/
  maxLeds : Nat
  /-- `BUF_MEM_BYTES`. -/
  bufMemBytes : Nat
  /-- `MAX_DESC_BYTES`. -/
  maxDescBytes : Nat
  /-- `GAP_BYTES`. -/
  gapBytes : Nat
  /-- `GDT`, one list of 256 bytes for each phase. -/
  gdt : List (List Byte)
  /-- `SHORT_PAT`. -/
  shortPat : Nibble := 0b1000#4
  /-- `LONG_PAT`. -/
  longPat : Nibble := 0b1110#4
  /-- `GROUP_ORDER`. -/
  groupOrder : GroupOrder := .msbFirst
  /-- `NIBBLE_ORDER`. -/
  nibbleOrder : NibbleOrder := .lowFirst
  /-- `BUF_ENDIAN`. -/
  bufEndian : Endian := .little
  /-- `PHASE_PERM`: entry `q` is the phase of ring pair `q`. -/
  phasePerm : List Nat
  /-- `OWNER_READY`. -/
  ownerReady : Bool := true
  /-- `EOF_READY`. -/
  eofReady : Bool := true
  /-- `DESC_LAYOUT`. No rule of the block reads it (R52, R147, D17, log entry 14). -/
  descLayout : DescLayout
  /-- `CLKM_DIV`. -/
  clkmDiv : Nat
  /-- `BCK_DIV`. -/
  bckDiv : Nat
  /-- `H`, the number of host agents. -/
  hosts : Nat
  deriving DecidableEq, Repr

/-- One move of one agent (R7, R170): what a step of the model performs. -/
inductive Move
  /-- Host agent `h` issues its next transaction (R171). -/
  | issue (h : Nat)
  /-- The command unit performs the acceptance step of host `h`'s command (R171). -/
  | accept (h : Nat)
  /-- The render sequencer performs a write step or the completion step (R178, R179). -/
  | render
  /-- The DMA Engine reads one byte (R190). -/
  | dmaRead
  /-- The DMA Engine writes the flags of descriptor `d` (R192). -/
  | dmaFlags (d : Nat) (owner eof : Bool)
  /-- The platform asserts the reset input (R240). -/
  | reset
  deriving DecidableEq, Repr, Inhabited

/-- FREE VALUE (R7, R58; I12 'every interleaving is admitted'): the agents' moves, in blocks of any length,
once the moves that the state's schedule lists are used up. A move of the render sequencer or of the DMA
Engine follows each block, so that every schedule is weakly fair (R178, R190). Log entries 3 and 13. -/
opaque Config.freeMoves : Nat → List Move

/-- FREE VALUE (R54 (a), R144; I11 'a draw per symbol'): the byte orders of symbol writes, once the
orders that the state lists are used up. Log entry 4. -/
opaque Config.freeOrder : Nat → ByteOrder

/-- DESIGN CHOICE (log entries 2 and 28), unsafe: the instance that `Machine.State.reset` is the reset state
of. It is the spec's own example instance A (95_test_vectors.md, 'Test instances'), whose table is
the identity (`N = 1`, `GAMMA = 1`, R106 (d)). The three OPEN parameters that no instance of the spec gives
are the model's: the divisors are 1, and `DESC_LAYOUT` places no field and no buffer. -/
def Config.resetInstance : Params where
  dither := 1
  maxLeds := 1024
  bufMemBytes := 65536
  maxDescBytes := 4095
  gapBytes := 24
  gdt := [(List.range 256).map (BitVec.ofNat 8)]
  phasePerm := [0]
  descLayout := { fields := [], placement := [] }
  clkmDiv := 1
  bckDiv := 1
  hosts := 2

end Sys2Proof
end

