-- ==== Sys2Proof/Machine/State.lean ====
section
/-! DEFINITION. The state of the block (10_state.md R20 to R44), its reset, and the reasons a step can stop. -/

namespace Sys2Proof.Machine

/-- The lifecycle state, register `STATE` (R22). The code 3 never occurs, so it is no constructor. -/
inductive Lifecycle
  | uninitialized
  | ready
  | stopped
  deriving DecidableEq, Repr

/-- The status codes 0 to 7 of R210; 8 to 15 are never returned, so they are no constructors. -/
inductive Status
  | ok
  | allocationError
  | sizeMismatchError
  | reentrancyError
  | notInitializedError
  | illegalCommand
  | rangeError
  | stateError
  deriving DecidableEq, Repr

/-- The one response of a transaction (R71). -/
structure Response where
  status : Status
  data : Word
  deriving DecidableEq, Repr

/-- A transaction as the port delivers it: the command word and its payload words (R70). -/
structure Txn where
  word : Word
  payload : List Word
  deriving DecidableEq, Repr

/-- A host agent's command port (R41). -/
inductive Port
  | free
  | waiting (cmd : Txn)
  deriving DecidableEq, Repr

/-- A host agent: its port (R41), the words it has still to send (R195, its program), and the
responses it has received (R195, an observation that no rule reads). -/
structure HostAgent where
  port : Port
  inbox : List Word
  received : List Response
  deriving DecidableEq, Repr

/-- One entry of a render write list (R35). -/
structure ByteWrite where
  buf : Buf
  off : Nat
  val : Byte
  deriving DecidableEq, Repr

/-- The render sequencer (R35). -/
inductive Render
  | idle
  | rendering (h : Nat) (w : List ByteWrite)
  deriving DecidableEq, Repr

/-- A descriptor (R40, R147). -/
structure Desc where
  buf : Buf
  len : Nat
  next : Nat
  owner : Bool
  eof : Bool
  deriving DecidableEq, Repr

/-- The DMA cursor (R36). -/
structure DmaCursor where
  configured : Bool
  running : Bool
  cur : Nat
  off : Nat
  deriving DecidableEq, Repr

/-- The bytes of one buffer: (offset, byte) pairs, offsets strictly rising, no byte 0. An unlisted
offset reads as 0, which is what `INIT` writes to every byte (R173). -/
abbrev Memory := List Host.Cell

/-- The buffer memory (R39): while not allocated it holds no value. -/
structure BufferMemory where
  allocated : Bool
  phase : List Memory
  gap : Memory
  deriving DecidableEq, Repr

/-- A call to an external collaborator (R188, R189), an observation. -/
inductive Call
  | periphConfig (clkmDiv bckDiv : Nat)
  | dmaConfigure (head : Nat)
  | dmaStart
  | dmaStop
  deriving DecidableEq, Repr

/-- The stored block registers (R22 to R29). `DITHER_COUNT`, `PHASE_BYTES`, `GAP_BYTES` and `CONFIG`
are views of the rest of the state (R27, R30 to R32). -/
structure Regs where
  state : Lifecycle
  busy : Bool
  fault : Bool
  lastErr : Status
  numLeds : BitVec 16
  head : BitVec 4
  dmaRun : Bool
  deriving DecidableEq, Repr

/-- The whole state (R20). `cfg`, `issuer`, `sched`, `turn`, `orders` and `draw` are the model's own
fields (log entries 1, 3, 4, 7), `stream` and `calls` observations (R193, R188; log entry 8). -/
structure State where
  /-- The parameters of this instance, `GDT` among them; no step changes them (R20, R37). -/
  cfg : Params
  reg : Regs
  mem : BufferMemory
  desc : List Desc
  rs : Render
  dma : DmaCursor
  hosts : List HostAgent
  /-- The bytes the DMA Engine has emitted (R193). -/
  stream : List Byte
  /-- The calls made to the external collaborators (R188, R189). -/
  calls : List Call
  /-- The host whose command the command unit performs, the `h` of the pseudocode. -/
  issuer : Nat
  /-- The moves already chosen, the next one first. -/
  sched : List Move
  /-- How many free moves have been taken. -/
  turn : Nat
  /-- The byte orders already drawn, the next one first. -/
  orders : List ByteOrder
  /-- How many free byte orders have been drawn. -/
  draw : Nat
  deriving DecidableEq, Repr

/-- Why a step faults: an access to a location or descriptor that does not exist (R39, R50, R40).
Every one is raised only in states that no run from reset reaches; each is safe. -/
inductive Fault
  /-- Raised by the DMA read move, when `DESC[dma.cur]` does not exist. Safe. -/
  | dmaNoDescriptor
  /-- Raised by the DMA read move, when the byte of its buffer does not exist. Safe. -/
  | dmaNoLocation
  /-- Raised by a render step, when the byte to write does not exist. Safe. -/
  | renderNoLocation
  /-- Raised by `BUF_RDH` and `BUF_RDB`, when a byte in range does not exist. Safe. -/
  | readNoLocation
  /-- Raised by `DESC_RD`, when a descriptor in range does not exist. Safe. -/
  | readNoDescriptor
  deriving DecidableEq, Repr

/-- Why a step is refused. -/
inductive Refusal
  /-- Raised by an arm of `exec` that gives its instruction no meaning. Safe. -/
  | notModelled (mnemonic : String)
  /-- Raised by the issue of a `SHOW` whose host has too few words left, and by the execution of a
  `SHOW` whose payload is not `3 * COUNT` bytes (R70: 'a model refuses it'). Safe. -/
  | payloadLength
  deriving DecidableEq, Repr

/-- The registers after reset (R44, R240). -/
def Regs.reset : Regs where
  state := .uninitialized
  busy := false
  fault := false
  lastErr := .ok
  numLeds := 0
  head := 0
  dmaRun := false

/-- The reset state of the instance `p` (R44, R240): no buffers, no descriptors, every host Free. -/
def State.resetWith (p : Params) : State where
  cfg := p
  reg := Regs.reset
  mem := { allocated := false, phase := [], gap := [] }
  desc := []
  rs := .idle
  dma := { configured := false, running := false, cur := 0, off := 0 }
  hosts := List.replicate p.hosts { port := .free, inbox := [], received := [] }
  stream := []
  calls := []
  issuer := 0
  sched := []
  turn := 0
  orders := []
  draw := 0

/-- The state after reset (R44), of the instance that log entry 2 names. -/
def State.reset : State := State.resetWith Config.resetInstance

end Sys2Proof.Machine
end

