-- ==== Sys2Proof/Machine/Flags.lean ====
section
/-! DEFINITION. The status a command leaves: the codes of R210, `LAST_ERR` (R25) and the sticky `FAULT` (R24, R214). -/

namespace Sys2Proof.Machine

/-- The 4-bit code of a status (R210). -/
def Status.code : Status → BitVec 4
  | .ok => 0
  | .allocationError => 1
  | .sizeMismatchError => 2
  | .reentrancyError => 3
  | .notInitializedError => 4
  | .illegalCommand => 5
  | .rangeError => 6
  | .stateError => 7

/-- The two words of a response on a 32-bit port: `zext_32(status)`, then `data` (R71). -/
def Response.words (r : Response) : List Word := [r.status.code.zeroExtend 32, r.data]

/-- The code of a lifecycle state in register `STATE` (R22). -/
def Lifecycle.code : Lifecycle → BitVec 2
  | .uninitialized => 0
  | .ready => 1
  | .stopped => 2

/-- The two causes of `FAULT` (R214). -/
def Status.setsFault : Status → Bool
  | .ok => false
  | .allocationError => false
  | .sizeMismatchError => false
  | .reentrancyError => false
  | .notInitializedError => false
  | .illegalCommand => true
  | .rangeError => false
  | .stateError => true

/-- The lifecycle commands, whose responses write `LAST_ERR` (R25, R213). -/
def isLifecycle : Instr → Bool
  | .init _ => true
  | .showPixels _ _ => true
  | .teardown => true
  | .lutRd _ _ => false
  | .symRd _ => false
  | .enc _ _ => false
  | .bufRdh _ _ => false
  | .bufRdb _ _ => false
  | .descRd _ _ => false
  | .regRd _ => false

/-- `reg.LAST_ERR <- E` (R25). -/
def State.setLastErr (e : Status) (s : State) : State := { s with reg := { s.reg with lastErr := e } }

/-- `if E ∈ {IllegalCommand, StateError}: reg.FAULT <- 1` (R213, R214); once 1 it stays 1 (R24). -/
def State.markFault (e : Status) (s : State) : State :=
  { s with reg := { s.reg with fault := s.reg.fault || e.setsFault } }

end Sys2Proof.Machine
end

