-- ==== Sys2Proof/Machine/Memory.lean ====
section
/-! DEFINITION. Reading and writing one byte of one buffer's memory, in its canonical form. -/

namespace Sys2Proof.Machine

/-- The byte at offset `k`; an unlisted offset reads as 0 (R173, log entry 9). -/
def Memory.read : Memory → Nat → Byte
  | [], _ => 0
  | (a, x) :: rest, k => if a = k then x else Memory.read rest k

/-- The byte at offset `k` becomes `x`; a 0 is not listed, so the form stays canonical. -/
def Memory.write (k : Nat) (x : Byte) : Memory → Memory
  | [] => if x = 0 then [] else [(k, x)]
  | (a, y) :: rest =>
    if k < a then (if x = 0 then (a, y) :: rest else (k, x) :: (a, y) :: rest)
    else if k = a then (if x = 0 then rest else (k, x) :: rest)
    else (a, y) :: Memory.write k x rest

/-- Every listed offset is at least `lo`, offsets rise strictly, and no listed byte is 0. -/
def Memory.wfFrom : Nat → Memory → Bool
  | _, [] => true
  | lo, (a, x) :: rest => decide (lo ≤ a) && decide (x ≠ 0) && Memory.wfFrom (a + 1) rest

/-- The canonical form: offsets strictly rising, no entry equal to what an unlisted offset reads as. -/
def Memory.wf (m : Memory) : Bool := Memory.wfFrom 0 m

/-- Every listed offset is below `len`. -/
def Memory.below (len : Nat) (m : Memory) : Bool := m.all fun c => decide (c.1 < len)

end Sys2Proof.Machine
end

