-- ==== Sys2Proof/Machine/GammaTable.lean ====
section
/-! DEFINITION. The Gamma-Dither Table (40_gamma_dither_lut.md): reading it, which contents are admissible,
and the reference contents. -/

namespace Sys2Proof.Machine

/-- `GDT[p][v]` (R37). A legal instance has `N` rows of 256 bytes (`legalParams`), so the default 0
is never read there (log entry 21). -/
def gdtEntry (cfg : Params) (p : Nat) (v : Byte) : Byte := (cfg.gdt.getD p []).getD v.toNat 0

/-- The ideal curve (R101): `f` is `F(v) = 255 * (v / 255) ^ GAMMA`. -/
def IsIdeal (gamma : ℝ) (v : Byte) (f : ℝ) : Prop := f = 255 * ((v.toNat : ℝ) / 255) ^ gamma

/-- R102: the contents `GDT` are admissible for the exponent `gamma`, clauses (a), (b) and (c). -/
def AdmissibleFor (gamma : ℝ) (cfg : Params) : Prop :=
  ∀ (v : Byte) (f : ℝ), IsIdeal gamma v f →
    (∀ p, p < cfg.dither →
      ((gdtEntry cfg p v).toNat : ℤ) = ⌊f⌋ ∨ ((gdtEntry cfg p v).toNat : ℤ) = ⌈f⌉) ∧
    |(((List.range cfg.dither).map fun p => ((gdtEntry cfg p v).toNat : ℝ)).sum) / cfg.dither - f|
      ≤ 1 / (cfg.dither : ℝ) ∧
    (∀ p q, p < cfg.dither → q < cfg.dither →
      (gdtEntry cfg p v).toNat ≤ (gdtEntry cfg q v).toNat + 1)

/-- R5, R102: `GAMMA` is OPEN, real and positive, and a table is admissible when it is so for one. -/
def Admissible (cfg : Params) : Prop := ∃ gamma : ℝ, 0 < gamma ∧ AdmissibleFor gamma cfg

/-! ## The reference contents (R103), for any exponent -/

/-- R103, in exact real arithmetic: the contents `GDT` are those the reference construction builds for the
exponent `gamma`. With `f = F(v)`, `lo = ⌊f⌋` and `k = ⌊N * (f - lo) + 1/2⌋`, phase `p` holds `lo + 1` if
`p < k` and else `lo`. Real numbers do not compute, so the table is named by what it holds. -/
def IsReferenceFor (gamma : ℝ) (cfg : Params) : Prop :=
  ∀ (v : Byte) (f : ℝ), IsIdeal gamma v f → ∀ p, p < cfg.dither →
    ((gdtEntry cfg p v).toNat : ℤ) =
      if (p : ℤ) < ⌊(cfg.dither : ℝ) * (f - ⌊f⌋) + 1 / 2⌋ then ⌊f⌋ + 1 else ⌊f⌋

/-! ## The reference contents, computed for a rational exponent `GAMMA = num / den`

With `GAMMA = num / den`, `F(v) ^ den = 255 ^ den * (v / 255) ^ num`, so every comparison of a
rational number with `F(v)` is one of natural numbers (log entry 10). -/

/-- The greatest `n ≤ bound` with `good n`, or 0. -/
def greatest (good : Nat → Bool) : Nat → Nat
  | 0 => 0
  | n + 1 => if good (n + 1) then n + 1 else greatest good n

/-- `a ≤ b * F(v)`, exactly: both sides to the power `den`, times `255 ^ num`. -/
def leIdeal (num den v a b : Nat) : Bool :=
  decide (a ^ den * 255 ^ num ≤ b ^ den * (255 ^ den * v ^ num))

/-- `lo = floor(F(v))` (R103); `F(v) ≤ 255` (R101). -/
def idealFloor (num den v : Nat) : Nat := greatest (fun l => leIdeal num den v l 1) 255

/-- `k = floor(N * fr + 1/2)` with `fr = F(v) - lo` (R103): the greatest `k` with
`2 * (N * lo + k) - 1 ≤ 2 * N * F(v)`. -/
def roundedUp (n num den v : Nat) : Nat :=
  greatest (fun k => leIdeal num den v (2 * (n * idealFloor num den v + k) - 1) (2 * n)) n

/-- `GDT[p][v]` of the reference construction (R103): the lowest `k` phases hold `lo + 1`. -/
def referenceEntry (n num den p v : Nat) : Byte :=
  BitVec.ofNat 8 (if p < roundedUp n num den v then idealFloor num den v + 1 else idealFloor num den v)

/-- The reference contents of `GDT` for `N = n` and `GAMMA = num / den` (R103). -/
def referenceTable (n num den : Nat) : List (List Byte) :=
  (List.range n).map fun p => (List.range 256).map fun v => referenceEntry n num den p v

end Sys2Proof.Machine
end

