-- ==== Sys2Proof/Machine/Symbols.lean ====
section
/-! DEFINITION. The symbol table and the Symbol Encoder (41_symbol_encoder.md R120 to R126), and the bytes of a
symbol in a buffer (20_memory.md R53). -/

namespace Sys2Proof.Machine

/-- `G(b)`, the sub-pulse group of a data bit (R121). -/
def subPulse (cfg : Params) (b : Bool) : Nibble := if b then cfg.longPat else cfg.shortPat

/-- `SYM[n]` (R121, R38). -/
def symbolOf (cfg : Params) (n : Nibble) : Symbol :=
  match cfg.groupOrder with
  | .msbFirst =>
    subPulse cfg (n.getLsbD 3) ++ subPulse cfg (n.getLsbD 2) ++ subPulse cfg (n.getLsbD 1) ++
      subPulse cfg (n.getLsbD 0)
  | .lsbFirst =>
    subPulse cfg (n.getLsbD 0) ++ subPulse cfg (n.getLsbD 1) ++ subPulse cfg (n.getLsbD 2) ++
      subPulse cfg (n.getLsbD 3)

/-- The two symbols of a corrected byte, in the order they are written (R124). -/
def encodeCorrected (cfg : Params) (c : Byte) : Symbol × Symbol :=
  match cfg.nibbleOrder with
  | .lowFirst => (symbolOf cfg (c.extractLsb' 0 4), symbolOf cfg (c.extractLsb' 4 4))
  | .highFirst => (symbolOf cfg (c.extractLsb' 4 4), symbolOf cfg (c.extractLsb' 0 4))

/-- `Encode(p, b)` (R124): every raw byte passes through the table (R107). -/
def encodeByte (cfg : Params) (p : Nat) (b : Byte) : Symbol × Symbol :=
  encodeCorrected cfg (gdtEntry cfg p b)

/-- `s[7:0]`. -/
def symbolLow (s : Symbol) : Byte := s.extractLsb' 0 8

/-- `s[15:8]`. -/
def symbolHigh (s : Symbol) : Byte := s.extractLsb' 8 8

/-- The byte offset of `s[7:0]` of symbol `i` (R53). -/
def lowOffset (cfg : Params) (i : Nat) : Nat :=
  match cfg.bufEndian with
  | .little => 2 * i
  | .big => 2 * i + 1

/-- The byte offset of `s[15:8]` of symbol `i` (R53). -/
def highOffset (cfg : Params) (i : Nat) : Nat :=
  match cfg.bufEndian with
  | .little => 2 * i + 1
  | .big => 2 * i

/-- The symbol whose bytes at offsets `2i` and `2i+1` are `b0` and `b1` (R53, R155). -/
def joinBytes (cfg : Params) (b0 b1 : Byte) : Symbol :=
  match cfg.bufEndian with
  | .little => b1 ++ b0
  | .big => b0 ++ b1

end Sys2Proof.Machine
end

