-- ==== Sys2Proof/Machine/Operands.lean ====
section
/-! DEFINITION. What the operand fields name: registers (R187), buffers (R77), descriptor fields (R157). -/

namespace Sys2Proof.Machine

/-- `PHASE_BYTES` (R30, R6): `12 * NUM_LEDS` while `Ready`, else 0. -/
def State.phaseBytes (s : State) : Nat := if s.reg.state = .ready then 12 * s.reg.numLeds.toNat else 0

/-- `SYM_PER_PHASE = 6 * NUM_LEDS` (R6). -/
def State.symPerPhase (s : State) : Nat := 6 * s.reg.numLeds.toNat

/-- `NDESC = 2 * N` (R6). -/
def ndesc (cfg : Params) : Nat := 2 * cfg.dither

/-- A bit as a field of one bit. -/
def bit (b : Bool) : BitVec 1 := BitVec.ofBool b

/-- Register `CONFIG` (R32). -/
def configWord (cfg : Params) : Word :=
  0#20 ++ cfg.longPat ++ cfg.shortPat ++ 0#1 ++ bit (cfg.groupOrder == .lsbFirst) ++
    bit (cfg.bufEndian == .big) ++ bit (cfg.nibbleOrder == .highFirst)

/-- `zext_32(reg[RN])` (R187), with the map of R34; registers 11 to 15 are reserved (R33). -/
def regValue (s : State) (rn : BitVec 4) : Option Word :=
  if rn = 0 then some (s.reg.state.code.zeroExtend 32)
  else if rn = 1 then some ((bit s.reg.busy).zeroExtend 32)
  else if rn = 2 then some ((bit s.reg.fault).zeroExtend 32)
  else if rn = 3 then some (s.reg.lastErr.code.zeroExtend 32)
  else if rn = 4 then some (s.reg.numLeds.zeroExtend 32)
  else if rn = 5 then some ((BitVec.ofNat 4 s.cfg.dither).zeroExtend 32)
  else if rn = 6 then some (s.reg.head.zeroExtend 32)
  else if rn = 7 then some ((bit s.reg.dmaRun).zeroExtend 32)
  else if rn = 8 then some (BitVec.ofNat 32 s.phaseBytes)
  else if rn = 9 then some (BitVec.ofNat 32 s.cfg.gapBytes)
  else if rn = 10 then some (configWord s.cfg)
  else none

/-- The buffer and length that `SEL` of `BUF_RDB` names (R77, R156). -/
def selectBuffer (s : State) (sel : BitVec 4) : Option (Buf × Nat) :=
  if sel.toNat < s.cfg.dither then some (.phase sel.toNat, s.phaseBytes)
  else if sel = 0xF#4 then some (.gap, s.cfg.gapBytes)
  else none

/-- The bus address at which the platform places location `(b, off)`, where `DESC_LAYOUT` places `b` (R52, D42).
The block itself addresses buffers by reference: no rule of it reads this. -/
def busAddress (cfg : Params) (b : Buf) (off : Nat) : Option Nat :=
  (cfg.descLayout.placement.find? fun x => x.buf == b).map fun x => x.base + off

/-- Field 0 of `DESC_RD`: 0xF for `Gap`, `p` for `Phase(p)` (R157). -/
def bufNumber : Buf → Nat
  | .phase p => p
  | .gap => 0xF

/-- The data of `DESC_RD` (R157): in field 3, bit 0 is `owner` and bit 1 is `eof`. -/
def descFieldValue (d : Desc) : DescField → Word
  | .buf => BitVec.ofNat 32 (bufNumber d.buf)
  | .len => BitVec.ofNat 32 d.len
  | .next => BitVec.ofNat 32 d.next
  | .flags => (bit d.eof ++ bit d.owner).zeroExtend 32

end Sys2Proof.Machine
end

