-- ==== Sys2Proof/Machine/Ops.lean ====
section
/-! DEFINITION. The shared operations: the buffer space (R50 to R54), responses (R71, R171), raising an error
(R213), the calls to the external collaborators (R188, R189), and the draws of byte orders (R54). -/

namespace Sys2Proof.Machine

/-! ## The buffer space (R50) -/

/-- The length of a buffer (R50). -/
def State.bufLen (s : State) : Buf → Nat
  | .phase _ => s.phaseBytes
  | .gap => s.cfg.gapBytes

/-- The memory of a buffer, if there is such a buffer. -/
def BufferMemory.buffer (m : BufferMemory) : Buf → Option Memory
  | .phase p => m.phase[p]?
  | .gap => some m.gap

/-- `BufRead(b, off)` (R9, R50): none where the location does not exist. -/
def State.bufRead (s : State) (b : Buf) (off : Nat) : Option Byte :=
  if s.mem.allocated = true ∧ off < s.bufLen b then
    match s.mem.buffer b with
    | some m => some (Memory.read m off)
    | none => none
  else none

/-- The buffer memory with the memory of `b` replaced. -/
def BufferMemory.setBuffer (m : BufferMemory) (b : Buf) (x : Memory) : BufferMemory :=
  match b with
  | .phase p => { m with phase := m.phase.set p x }
  | .gap => { m with gap := x }

/-- `BufWrite(b, off, x)` (R9, R50): none where the location does not exist. -/
def State.bufWrite (s : State) (b : Buf) (off : Nat) (x : Byte) : Option State :=
  if s.mem.allocated = true ∧ off < s.bufLen b then
    match s.mem.buffer b with
    | some m => some { s with mem := s.mem.setBuffer b (Memory.write off x m) }
    | none => none
  else none

/-! ## Responses and errors -/

/-- Response `r` to host agent `h` (R9, R71): it goes to that host only, and `hosts[h] <- Free` (R171). -/
def State.respondTo (h : Nat) (r : Response) (s : State) : State :=
  { s with hosts := s.hosts.modify h fun a => { a with port := .free, received := a.received ++ [r] } }

/-- `respond(h, status, data)` of the command the command unit performs. -/
def State.respond (status : Status) (data : Word) (s : State) : State :=
  s.respondTo s.issuer { status := status, data := data }

/-- `raise E` in command `i` (R9, R213): `LAST_ERR` for a lifecycle command, `FAULT` for its two
causes, and the response with data 0. There is no vector, no saved state and no return (R213, R216). -/
def State.raise (i : Instr) (e : Status) (s : State) : State :=
  ((if isLifecycle i then s.setLastErr e else s).markFault e).respond e 0

/-- An illegal command word (R82): `FAULT <- 1` and the response; `LAST_ERR` is not written. -/
def State.illegalWord (s : State) : State := (s.markFault .illegalCommand).respond .illegalCommand 0

/-! ## External collaborators -/

/-- `PERIPH.config(CLKM_DIV, BCK_DIV)` (R189): it changes no state of the block. -/
def State.periphConfig (s : State) : State :=
  { s with calls := s.calls ++ [.periphConfig s.cfg.clkmDiv s.cfg.bckDiv] }

/-- `DMA.configure(d)` (R36, R188). -/
def State.dmaConfigure (d : Nat) (s : State) : State :=
  { s with dma := { s.dma with configured := true, cur := d, off := 0 }, calls := s.calls ++ [.dmaConfigure d] }

/-- `DMA.start()` (R36, R188). -/
def State.dmaStart (s : State) : State :=
  { s with dma := { s.dma with running := true }, calls := s.calls ++ [.dmaStart] }

/-- `DMA.stop()` (R36, R188, R191): at once. -/
def State.dmaStop (s : State) : State :=
  { s with dma := { s.dma with running := false }, calls := s.calls ++ [.dmaStop] }

/-! ## Draws (R54 (a), R144) -/

/-- The next `n` draws of a byte order: those the state lists, then free values (log entry 4). -/
def State.drawn (s : State) (n : Nat) : List ByteOrder :=
  s.orders.take n ++ (List.range (n - s.orders.length)).map fun j => Config.freeOrder (s.draw + j)

/-- The state after `n` draws. -/
def State.afterDraws (s : State) (n : Nat) : State :=
  { s with orders := s.orders.drop n, draw := s.draw + (n - s.orders.length) }

end Sys2Proof.Machine
end

