-- ==== Sys2Proof/Machine/Buffers.lean ====
section
/-! DEFINITION. The render write list (R142, R144), the descriptor ring (R148), the allocation check (R174), and
which parameters are legal (R5). -/

namespace Sys2Proof.Machine

/-- One symbol write of a render: symbol `sym` at index `idx` of `Phase(ph)` (R9 `SymWrite`). -/
structure SymWrite where
  ph : Nat
  idx : Nat
  sym : Symbol
  deriving DecidableEq, Repr

/-- The two byte writes of a symbol write, in the drawn order (R53, R144). -/
def SymWrite.bytes (cfg : Params) (w : SymWrite) (o : ByteOrder) : List ByteWrite :=
  let lo : ByteWrite := { buf := .phase w.ph, off := lowOffset cfg w.idx, val := symbolLow w.sym }
  let hi : ByteWrite := { buf := .phase w.ph, off := highOffset cfg w.idx, val := symbolHigh w.sym }
  match o with
  | .lowByteFirst => [lo, hi]
  | .highByteFirst => [hi, lo]

/-- The symbol writes of stream byte `j` of value `b`: phase by phase, first symbol then second (R144). -/
def byteSymbols (cfg : Params) (j : Nat) (b : Byte) : List SymWrite :=
  (List.range cfg.dither).flatMap fun p =>
    [{ ph := p, idx := 2 * j, sym := (encodeByte cfg p b).1 },
     { ph := p, idx := 2 * j + 1, sym := (encodeByte cfg p b).2 }]

/-- The symbol writes of the stream bytes from `j` on, in strip order (R144). -/
def streamSymbols (cfg : Params) (j : Nat) : List Byte → List SymWrite
  | [] => []
  | b :: rest => byteSymbols cfg j b ++ streamSymbols cfg (j + 1) rest

/-- `RenderList(P)` (R144) with the byte orders drawn for its symbols. -/
def renderList (cfg : Params) (stream : List Byte) (orders : List ByteOrder) : List ByteWrite :=
  (List.zipWith (SymWrite.bytes cfg) (streamSymbols cfg 0 stream) orders).flatten

/-- `PHASE_PERM(q)` (R148, R152). -/
def phasePermOf (cfg : Params) (q : Nat) : Nat := cfg.phasePerm.getD q q

/-- The two descriptors of ring pair `q` (R148), for phase buffers of `phaseBytes` bytes. -/
def ringPair (cfg : Params) (phaseBytes q : Nat) : List Desc :=
  [{ buf := .phase (phasePermOf cfg q), len := phaseBytes, next := 2 * q + 1,
     owner := cfg.ownerReady, eof := cfg.eofReady },
   { buf := .gap, len := cfg.gapBytes, next := (2 * q + 2) % (2 * cfg.dither),
     owner := cfg.ownerReady, eof := cfg.eofReady }]

/-- `build_ring` (R148). -/
def buildRing (cfg : Params) (phaseBytes : Nat) : List Desc :=
  (List.range cfg.dither).flatMap (ringPair cfg phaseBytes)

/-- The head index that `build_ring` returns (R153). -/
def ringHead : Nat := 0

/-- `AllocOK(COUNT)` (R174). -/
def allocOK (cfg : Params) (count : Nat) : Bool :=
  decide (1 ≤ count) && decide (count ≤ cfg.maxLeds) && decide (12 * count ≤ cfg.maxDescBytes) &&
    decide (cfg.dither * (12 * count) + cfg.gapBytes ≤ cfg.bufMemBytes)

/-- The bounds that R5, R31 and R80 put on the parameters. -/
def legalParams (cfg : Params) : Bool :=
  [1, 2, 4, 6, 8].contains cfg.dither && decide (1 ≤ cfg.maxLeds) && decide (cfg.maxLeds ≤ 65535) &&
    decide (6 * cfg.maxLeds ≤ 2 ^ 20) && decide (1 ≤ cfg.gapBytes) &&
    decide (cfg.gapBytes ≤ cfg.maxDescBytes) && decide (cfg.gapBytes < 2 ^ 32) &&
    (cfg.gdt.length == cfg.dither) && cfg.gdt.all (fun row => row.length == 256) &&
    cfg.phasePerm.isPerm (List.range cfg.dither) && decide (1 ≤ cfg.hosts)

/-- The decided values of R5. -/
def decidedParams (cfg : Params) : Bool :=
  (cfg.shortPat == 0b1000#4) && (cfg.longPat == 0b1110#4) && (cfg.groupOrder == .msbFirst) &&
    (cfg.nibbleOrder == .lowFirst) && (cfg.bufEndian == .little) &&
    (cfg.phasePerm == List.range cfg.dither) && cfg.ownerReady && cfg.eofReady

end Sys2Proof.Machine
end

