-- ==== Sys2Proof/Machine/Diagnostic.lean ====
section
/-! DEFINITION. The diagnostic reads: `LUT_RD` (R109), `SYM_RD` (R127), `ENC` (R128), `BUF_RDH` (R155), `BUF_RDB`
(R156), `DESC_RD` (R157) and `REG_RD` (R187). None writes a register or memory (R56). -/

namespace Sys2Proof.Machine

/-- `LUT_RD PH, VAL` (R109), in every lifecycle state. -/
def execLutRd (ph : BitVec 3) (val : Byte) (s : State) : Host.Outcome State Fault Refusal :=
  .next (if s.cfg.dither ≤ ph.toNat then s.raise (.lutRd ph val) .rangeError
    else s.respond .ok ((gdtEntry s.cfg ph.toNat val).zeroExtend 32))

/-- `SYM_RD NIB` (R127), in every lifecycle state; it raises nothing. -/
def execSymRd (nib : Nibble) (s : State) : Host.Outcome State Fault Refusal :=
  .next (s.respond .ok ((symbolOf s.cfg nib).zeroExtend 32))

/-- `ENC PH, VAL` (R128): the first symbol written in data[31:16]. -/
def execEnc (ph : BitVec 3) (val : Byte) (s : State) : Host.Outcome State Fault Refusal :=
  .next (if s.cfg.dither ≤ ph.toNat then s.raise (.enc ph val) .rangeError
    else s.respond .ok ((encodeByte s.cfg ph.toNat val).1 ++ (encodeByte s.cfg ph.toNat val).2))

/-- `BUF_RDH SEL, IDX` (R155): both bytes of the symbol in one step (R54 (c)). -/
def execBufRdh (sel : BitVec 4) (idx : BitVec 20) (s : State) : Host.Outcome State Fault Refusal :=
  if s.reg.state ≠ .ready then .next (s.raise (.bufRdh sel idx) .notInitializedError)
  else if s.cfg.dither ≤ sel.toNat then .next (s.raise (.bufRdh sel idx) .rangeError)
  else if s.symPerPhase ≤ idx.toNat then .next (s.raise (.bufRdh sel idx) .rangeError)
  else
    match s.bufRead (.phase sel.toNat) (2 * idx.toNat), s.bufRead (.phase sel.toNat) (2 * idx.toNat + 1) with
    | some b0, some b1 => .next (s.respond .ok ((joinBytes s.cfg b0 b1).zeroExtend 32))
    | some _, none => .fault .readNoLocation
    | none, _ => .fault .readNoLocation

/-- `BUF_RDB SEL, IDX` (R156). -/
def execBufRdb (sel : BitVec 4) (idx : BitVec 20) (s : State) : Host.Outcome State Fault Refusal :=
  if s.reg.state ≠ .ready then .next (s.raise (.bufRdb sel idx) .notInitializedError)
  else
    match selectBuffer s sel with
    | none => .next (s.raise (.bufRdb sel idx) .rangeError)
    | some (b, len) =>
      if len ≤ idx.toNat then .next (s.raise (.bufRdb sel idx) .rangeError)
      else
        match s.bufRead b idx.toNat with
        | some x => .next (s.respond .ok (x.zeroExtend 32))
        | none => .fault .readNoLocation

/-- `DESC_RD FLD, DI` (R157). -/
def execDescRd (fld : DescField) (di : BitVec 4) (s : State) : Host.Outcome State Fault Refusal :=
  if s.reg.state ≠ .ready then .next (s.raise (.descRd fld di) .notInitializedError)
  else if ndesc s.cfg ≤ di.toNat then .next (s.raise (.descRd fld di) .rangeError)
  else
    match s.desc[di.toNat]? with
    | some d => .next (s.respond .ok (descFieldValue d fld))
    | none => .fault .readNoDescriptor

/-- `REG_RD RN` (R187), in every lifecycle state. -/
def execRegRd (rn : BitVec 4) (s : State) : Host.Outcome State Fault Refusal :=
  match regValue s rn with
  | some v => .next (s.respond .ok v)
  | none => .next (s.raise (.regRd rn) .rangeError)

end Sys2Proof.Machine
end

