-- ==== Sys2Proof/Machine/Lifecycle.lean ====
section
/-! DEFINITION. The lifecycle commands `INIT`, `SHOW` and `TEARDOWN` (43_driver_glue.md R172 to R185). -/

namespace Sys2Proof.Machine

/-! ## INIT (R173) -/

/-- The buffers that `INIT` allocates: every byte of every buffer 0 (R140, R141, R173). -/
def freshBuffers (cfg : Params) : BufferMemory :=
  { allocated := true, phase := List.replicate cfg.dither [], gap := [] }

/-- The buffers, `NUM_LEDS` and the ring of a successful `INIT` (R173, R148). -/
def State.allocate (count : BitVec 16) (s : State) : State :=
  { s with
    mem := freshBuffers s.cfg
    reg := { s.reg with numLeds := count }
    desc := buildRing s.cfg (12 * count.toNat) }

/-- The registers that a successful `INIT` writes last (R173). -/
def State.enterReady (s : State) : State :=
  { s with reg := { s.reg with head := BitVec.ofNat 4 ringHead, dmaRun := true, state := .ready, lastErr := .ok } }

/-- The whole effect of a successful `INIT`, in the order of R173. -/
def State.initialise (count : BitVec 16) (s : State) : State :=
  ((((s.allocate count).periphConfig.dmaConfigure ringHead).dmaStart).enterReady).respond .ok 0

/-- `INIT COUNT` (R173 to R175). -/
def execInit (count : BitVec 16) (s : State) : Host.Outcome State Fault Refusal :=
  if s.reg.state = .ready then .next (s.raise (.init count) .stateError)
  else if allocOK s.cfg count.toNat = false then .next (s.raise (.init count) .allocationError)
  else .next (s.initialise count)

/-! ## SHOW (R177) -/

/-- The acceptance of a `SHOW`: the payload is captured whole into the write list (R42, R144), with one
byte order drawn for each symbol. No response yet (R179). -/
def State.startRender (payload : List Byte) (s : State) : State :=
  let n := (streamSymbols s.cfg 0 payload).length
  { s.afterDraws n with
    reg := { s.reg with busy := true }
    rs := .rendering s.issuer (renderList s.cfg payload (s.drawn n)) }

/-- `SHOW COUNT` with its payload (R177). A term whose payload is not `3 * COUNT` bytes is no
transaction, and is refused (R70). -/
def execShowPixels (count : BitVec 16) (payload : List Byte) (s : State) : Host.Outcome State Fault Refusal :=
  if payload.length ≠ 3 * count.toNat then .refused .payloadLength
  else if s.reg.state ≠ .ready then .next (s.raise (.showPixels count payload) .notInitializedError)
  else if s.reg.busy = true then .next (s.raise (.showPixels count payload) .reentrancyError)
  else if count ≠ s.reg.numLeds then .next (s.raise (.showPixels count payload) .sizeMismatchError)
  else .next (s.startRender payload)

/-! ## TEARDOWN (R183) -/

/-- The release of a `TEARDOWN` from `Ready`: the buffers hold no value, the arena no descriptor, the
state is `Stopped` (R183, R251). -/
def State.release (s : State) : State :=
  { s with
    reg := { s.reg with dmaRun := false, state := .stopped, lastErr := .ok }
    mem := { allocated := false, phase := [], gap := [] }
    desc := [] }

/-- `TEARDOWN` (R183): the engine is stopped first. -/
def execTeardown (s : State) : Host.Outcome State Fault Refusal :=
  match s.reg.state with
  | .uninitialized => .next (s.raise .teardown .notInitializedError)
  | .stopped => .next ((s.setLastErr .ok).respond .ok 0)
  | .ready =>
    if s.reg.busy = true then .next (s.raise .teardown .reentrancyError)
    else .next (s.dmaStop.release.respond .ok 0)

end Sys2Proof.Machine
end

