-- ==== Sys2Proof/Machine/Dispatch.lean ====
section
/-! DEFINITION. The one match from a command to its meaning: one arm a constructor of `Instr`. -/

namespace Sys2Proof.Machine

/-- The acceptance step of command `i` for host `s.issuer` (R171). -/
def exec (i : Instr) (s : State) : Host.Outcome State Fault Refusal :=
  match i with
  | .init count => Sys2Proof.Machine.execInit count s
  | .showPixels count payload => Sys2Proof.Machine.execShowPixels count payload s
  | .teardown => Sys2Proof.Machine.execTeardown s
  | .lutRd ph val => Sys2Proof.Machine.execLutRd ph val s
  | .symRd nib => Sys2Proof.Machine.execSymRd nib s
  | .enc ph val => Sys2Proof.Machine.execEnc ph val s
  | .bufRdh sel idx => Sys2Proof.Machine.execBufRdh sel idx s
  | .bufRdb sel idx => Sys2Proof.Machine.execBufRdb sel idx s
  | .descRd fld di => Sys2Proof.Machine.execDescRd fld di s
  | .regRd rn => Sys2Proof.Machine.execRegRd rn s

end Sys2Proof.Machine
end

