-- ==== Sys2Proof/Machine/Agents.lean ====
section
/-! DEFINITION. The moves of the agents (43_driver_glue.md R170 to R179, R190, R192; 70_reset_and_hazards.md R240).
An agent that is scheduled where it has no step to take leaves the state as it is (log entry 5). -/

namespace Sys2Proof.Machine

/-! ## Host agents -/

/-- Whether host `h`'s `SHOW` is the one in flight (R35). -/
def State.rendersFor (s : State) (h : Nat) : Bool :=
  match s.rs with
  | .idle => false
  | .rendering g _ => g == h

/-- The command of host `h` that awaits its acceptance step. A host whose `SHOW` was accepted is still
`Waiting` (R171), and awaits only the completion. -/
def State.pending (s : State) (h : Nat) : Option Txn :=
  match s.hosts[h]? with
  | none => none
  | some a =>
    match a.port with
    | .free => none
    | .waiting cmd => if s.rendersFor h then none else some cmd

/-- Host `h` issues its next transaction, if it is `Free` and has a word left (R41, R171): the command
word, and for a `SHOW` its payload words (R70). Any other word, an illegal one too, is a transaction
of one word, and the word after it is a new command word (R82). -/
def stepIssue (h : Nat) (s : State) : Host.Outcome State Fault Refusal :=
  match s.hosts[h]? with
  | none => .next s
  | some a =>
    match a.port, a.inbox with
    | .waiting _, _ => .next s
    | .free, [] => .next s
    | .free, w :: ws =>
      if ws.length < payloadWords w then .refused .payloadLength
      else
        .next { s with hosts := s.hosts.set h { a with
          port := .waiting { word := w, payload := ws.take (payloadWords w) }
          inbox := ws.drop (payloadWords w) } }

/-! ## The command unit -/

/-- The acceptance step of host `h`'s pending command (R171): decoding comes first (R212). -/
def stepAccept (h : Nat) (s : State) : Host.Outcome State Fault Refusal :=
  match s.pending h with
  | none => .next s
  | some cmd =>
    match decode (cmd.word :: cmd.payload) with
    | .ok i [] => exec i { s with issuer := h }
    | .ok _ (_ :: _) => .refused .payloadLength
    | .illegal _ _ => .next ({ s with issuer := h } : State).illegalWord
    | .shortPayload => .refused .payloadLength
    | .noWord => .next s

/-! ## The render sequencer -/

/-- The completion step of a `SHOW` (R179). -/
def State.completeShow (h : Nat) (s : State) : State :=
  ({ s with reg := { s.reg with busy := false, lastErr := .ok }, rs := .idle } : State).respondTo h
    { status := .ok, data := 0 }

/-- A render step (R178) or, when the write list is empty, the completion step (R179). -/
def stepRender (s : State) : Host.Outcome State Fault Refusal :=
  match s.rs with
  | .idle => .next s
  | .rendering h [] => .next (s.completeShow h)
  | .rendering h (w :: ws) =>
    match s.bufWrite w.buf w.off w.val with
    | none => .fault .renderNoLocation
    | some t => .next { t with rs := .rendering h ws }

/-! ## The DMA Engine -/

/-- The cursor after a byte of descriptor `d` is read (R190). -/
def DmaCursor.advance (c : DmaCursor) (d : Desc) : DmaCursor :=
  if c.off + 1 = d.len then { c with cur := d.next, off := 0 } else { c with off := c.off + 1 }

/-- The DMA Engine reads and emits one byte while it runs (R190); it does not test the flags. -/
def stepDmaRead (s : State) : Host.Outcome State Fault Refusal :=
  if s.dma.running = true then
    match s.desc[s.dma.cur]? with
    | none => .fault .dmaNoDescriptor
    | some d =>
      match s.bufRead d.buf s.dma.off with
      | none => .fault .dmaNoLocation
      | some x => .next { s with stream := s.stream ++ [x], dma := s.dma.advance d }
  else .next s

/-- The DMA Engine writes the flags of descriptor `d` (R192), to any values. -/
def stepDmaFlags (d : Nat) (owner eof : Bool) (s : State) : Host.Outcome State Fault Refusal :=
  .next (if s.dma.configured = true ∧ s.reg.state = .ready then
    { s with desc := s.desc.modify d fun x => { x with owner := owner, eof := eof } } else s)

/-! ## The platform -/

/-- The reset input (R240): every component of the state takes its reset value, a `SHOW` in flight is
abandoned and pending transactions are dropped. The parameters, the inputs still to come and the
observations so far are no state that R240 resets (log entries 1, 8, 18). -/
def stepReset (s : State) : Host.Outcome State Fault Refusal :=
  .next { State.resetWith s.cfg with
    hosts := s.hosts.map fun a => { a with port := .free }
    stream := s.stream
    calls := s.calls
    sched := s.sched
    turn := s.turn
    orders := s.orders
    draw := s.draw }

/-! ## One move -/

/-- The move behind the free block of number `turn`: the render sequencer's and the DMA Engine's by turns.
So each of the two comes up again and again in every schedule, which is weak fairness (R178, R190, I12),
and every schedule in which both do is one of these, for some blocks (log entry 13). -/
def fairMove (turn : Nat) : Move := if turn % 2 = 0 then .render else .dmaRead

/-- The next move, and the state in which it is taken: the schedule's first. A schedule that is used up is
filled with the next free block and its fair move (log entries 3 and 13). -/
def State.nextMove (s : State) : Move × State :=
  match s.sched with
  | m :: rest => (m, { s with sched := rest })
  | [] =>
    match Config.freeMoves s.turn with
    | [] => (fairMove s.turn, { s with turn := s.turn + 1 })
    | m :: rest => (m, { s with sched := rest ++ [fairMove s.turn], turn := s.turn + 1 })

/-- What a move does. -/
def takeMove (m : Move) (s : State) : Host.Outcome State Fault Refusal :=
  match m with
  | .issue h => stepIssue h s
  | .accept h => stepAccept h s
  | .render => stepRender s
  | .dmaRead => stepDmaRead s
  | .dmaFlags d owner eof => stepDmaFlags d owner eof s
  | .reset => stepReset s

/-! ## Placing a command (log entry 17) -/

/-- The `n` words of a transaction of the bits `w`, as the port would deliver it. -/
def placedTxn (nbits w : Nat) : Txn :=
  let bits := w % 2 ^ nbits
  { word := BitVec.ofNat 32 bits
    payload := wordsOfNat (payloadWords (BitVec.ofNat 32 bits)) (bits / 2 ^ 32) }

/-- The host a placed command comes from: host 0, or host 1 while host 0's `SHOW` is in flight. -/
def State.placingHost (s : State) : Nat := if s.rendersFor 0 then 1 else 0

end Sys2Proof.Machine
end

