-- ==== Sys2Proof/Machine/Step.lean ====
section
/-! DEFINITION. One step of the machine: one move of one agent (R7). -/

namespace Sys2Proof.Machine

/-- One indivisible step (R7, R58): the next move of the schedule, or a free one. -/
def step (s : State) : Host.Outcome State Fault Refusal := takeMove s.nextMove.1 s.nextMove.2

/-- `s` with the command of the bits `w` waiting at a host's port and its acceptance step next. -/
def State.withFetchWord (s : State) (nbits w : Nat) : State :=
  { s with
    hosts := s.hosts.modify s.placingHost fun a => { a with port := .waiting (placedTxn nbits w) }
    sched := .accept s.placingHost :: s.sched }

end Sys2Proof.Machine
end

