-- ==== Sys2Proof/Safety.lean ====
section
/-! DEFINITION. What counts as a good state and a proper end, and the words the statements use. -/

namespace Sys2Proof.Machine

/-! ## The end of a host program (R195) -/

/-- Every host is Free and has nothing left to send, and no render is in flight (R195). -/
def State.ended (s : State) : Bool :=
  s.hosts.all (fun a => a.port == .free && a.inbox == []) && s.rs == .idle

/-- A proper end: `FAULT = 1` is never one (R24, R195). -/
def State.properEnd (s : State) : Bool := s.ended && !s.reg.fault

/-! ## The invariant -/

/-- The fields of a descriptor that `INIT` fixes (R149). -/
def Desc.links (d : Desc) : Buf × Nat × Nat := (d.buf, d.len, d.next)

/-- The buffer memory exists exactly while `Ready` (R39), with `N` phase buffers of `PHASE_BYTES` bytes in
canonical form and an all-zero gap buffer (R140, R141). -/
abbrev State.memOK (s : State) : Prop :=
  if s.reg.state = .ready then
    s.mem.allocated = true ∧ s.mem.phase.length = s.cfg.dither ∧ s.mem.gap = [] ∧
      ∀ m ∈ s.mem.phase, Memory.wf m = true ∧ Memory.below (12 * s.reg.numLeds.toNat) m = true
  else s.mem.allocated = false ∧ s.mem.phase = [] ∧ s.mem.gap = []

/-- While `Ready`, the strip length passed the check of `INIT` (R174). -/
abbrev State.stripOK (s : State) : Prop :=
  s.reg.state = .ready → allocOK s.cfg s.reg.numLeds.toNat = true

/-- The arena exists exactly while `Ready`, linked as `build_ring` links it (R40, R148, R149). -/
abbrev State.ringOK (s : State) : Prop :=
  if s.reg.state = .ready then
    s.desc.map Desc.links = (buildRing s.cfg (12 * s.reg.numLeds.toNat)).map Desc.links
  else s.desc = []

/-- The cursor names a byte of a descriptor while the engine runs (R36), and it runs exactly while
`Ready` (R173, R183), as `DMA_RUN` records (R29). -/
abbrev State.dmaOK (s : State) : Prop :=
  s.reg.dmaRun = s.dma.running ∧
  if s.reg.state = .ready then
    s.dma.configured = true ∧ s.dma.running = true ∧ s.dma.cur < 2 * s.cfg.dither ∧
      s.dma.off < ((s.desc.map Desc.len).getD s.dma.cur 0)
  else s.dma.running = false

/-- Whether host `h` is `Waiting`. -/
def State.isWaiting (s : State) (h : Nat) : Bool :=
  match s.hosts[h]? with
  | none => false
  | some a => a.port != .free

/-- A byte write of a render: into a phase buffer, within its length (R51, R144). -/
def ByteWrite.inPhase (dither phaseBytes : Nat) (w : ByteWrite) : Bool :=
  match w.buf with
  | .phase p => decide (p < dither) && decide (w.off < phaseBytes)
  | .gap => false

/-- Whether a render is in flight. -/
def Render.active : Render → Bool
  | .idle => false
  | .rendering _ _ => true

/-- The byte writes still to come. -/
def Render.writes : Render → List ByteWrite
  | .idle => []
  | .rendering _ w => w

/-- Whether the host whose `SHOW` is in flight, if there is one, is `Waiting`. -/
def State.renderHostWaits (s : State) : Bool :=
  match s.rs with
  | .idle => true
  | .rendering h _ => s.isWaiting h

/-- `rs = Idle` exactly when `BUSY = 0` (R35); a render is in flight only while `Ready`, for a waiting
host (R171), and writes phase buffers only (R51). -/
abbrev State.renderOK (s : State) : Prop :=
  s.reg.busy = s.rs.active ∧ (s.rs.active = true → s.reg.state = .ready) ∧ s.renderHostWaits = true ∧
    ∀ x ∈ s.rs.writes, ByteWrite.inPhase s.cfg.dither (12 * s.reg.numLeds.toNat) x = true

/-- A waiting transaction is whole: it has the payload words its command word asks for (R70). -/
def HostAgent.portOK (a : HostAgent) : Bool :=
  match a.port with
  | .free => true
  | .waiting cmd => cmd.payload.length == payloadWords cmd.word

/-- The invariant of the block. Every step keeps it, and the reset state of every legal instance has it. -/
abbrev Inv (s : State) : Prop :=
  legalParams s.cfg = true ∧ s.hosts.length = s.cfg.hosts ∧ s.reg.head = 0 ∧
    (∀ a ∈ s.hosts, HostAgent.portOK a = true) ∧
    s.memOK ∧ s.stripOK ∧ s.ringOK ∧ s.dmaOK ∧ s.renderOK

/-! ## Words of the statements -/

/-- The opcode table as the spec lists it: (mask, match) of each row (opcode_table.json, R72 to R79). -/
def opcodeRows : List (Word × Word) :=
  [(0xFFFF0000, 0x10000000), (0xFFFF0000, 0x20000000), (0xFFFFFFFF, 0x30000000), (0xFFFFF800, 0x40000000),
   (0xFFFFFFF0, 0x50000000), (0xFFFFF800, 0x60000000), (0xF0F00000, 0x70000000), (0xF0F00000, 0x80000000),
   (0xFFFFFCF0, 0x90000000), (0xFFFFFFF0, 0xA0000000)]

/-- A word that matches no row of the opcode table. -/
def matchesNoRow (w : Word) : Prop := ∀ r ∈ opcodeRows, w &&& r.1 ≠ r.2

/-- The outcome with `f` applied to its next state. -/
def mapNext (f : State → State) : Host.Outcome State Fault Refusal → Host.Outcome State Fault Refusal
  | .next s => .next (f s)
  | .fault r => .fault r
  | .refused r => .refused r

/-- `s` with every descriptor flag set to 0 (R150, R192). -/
def State.eraseFlags (s : State) : State :=
  { s with desc := s.desc.map fun d => { d with owner := false, eof := false } }

/-- `s` on the same instance but for `DESC_LAYOUT`, which is `l` (R52). -/
def State.withLayout (l : DescLayout) (s : State) : State := { s with cfg := { s.cfg with descLayout := l } }

/-- Every byte of the buffer space reads the same in both states. -/
def SameBytes (s t : State) : Prop := ∀ (b : Buf) (off : Nat), t.bufRead b off = s.bufRead b off

/-- `t` is `s` with response `(status, data)` given to the issuing host, and nothing else (R71, R171). -/
def Answers (s t : State) (status : Status) (data : Word) : Prop :=
  t = { s with hosts := s.hosts.modify s.issuer fun a =>
    { a with port := .free, received := a.received ++ [{ status := status, data := data }] } }

/-- The same, but for `LAST_ERR`, which is the status (R25), and `FAULT`, which is `f`. -/
def AnswersMarked (s t : State) (status : Status) (f : Bool) : Prop :=
  t = { s with
    reg := { s.reg with lastErr := status, fault := f }
    hosts := s.hosts.modify s.issuer fun a =>
      { a with port := .free, received := a.received ++ [{ status := status, data := 0 }] } }

/-- The symbol at index `i` of `Phase(p)`, from its two bytes (R53). -/
def State.symbolAt (s : State) (p i : Nat) : Option Symbol :=
  match s.bufRead (.phase p) (2 * i), s.bufRead (.phase p) (2 * i + 1) with
  | some b0, some b1 => some (joinBytes s.cfg b0 b1)
  | some _, none => none
  | none, _ => none

/-- The contents of R143: every phase buffer holds the encoded stream. -/
def FrameShown (stream : List Byte) (s : State) : Prop :=
  ∀ p j, p < s.cfg.dither → j < 3 * s.reg.numLeds.toNat →
    s.symbolAt p (2 * j) = some (encodeByte s.cfg p (stream.getD j 0)).1 ∧
    s.symbolAt p (2 * j + 1) = some (encodeByte s.cfg p (stream.getD j 0)).2

/-- The byte at offset `off` of `Phase(p)` once the stream is rendered (R142, R143, R53). -/
def streamByte (cfg : Params) (stream : List Byte) (p off : Nat) : Byte :=
  let pair := encodeByte cfg p (stream.getD (off / 4) 0)
  let sym := if off / 2 % 2 = 0 then pair.1 else pair.2
  if off = lowOffset cfg (off / 2) then symbolLow sym else symbolHigh sym

/-- The render in flight renders `stream`: at every byte of every phase buffer the writes still to come
have the stream's byte, and where none is to come the buffer holds it already. -/
def RenderTracks (stream : List Byte) (s : State) : Prop :=
  match s.rs with
  | .idle => False
  | .rendering _ w =>
    ∀ p off, p < s.cfg.dither → off < 12 * s.reg.numLeds.toNat →
      (∀ x ∈ w, x.buf = .phase p → x.off = off → x.val = streamByte s.cfg stream p off) ∧
      ((∀ x ∈ w, ¬(x.buf = .phase p ∧ x.off = off)) →
        s.bufRead (.phase p) off = some (streamByte s.cfg stream p off))

/-- The bytes of a whole buffer, in order (R193). -/
def State.bufBytes (s : State) (b : Buf) : List Byte :=
  (List.range (s.bufLen b)).map fun off => (s.bufRead b off).getD 0

/-- The bytes of one whole traversal of the ring from its head (R193). -/
def State.traversal (s : State) : List Byte :=
  (List.range s.cfg.dither).flatMap fun q =>
    s.bufBytes (.phase (phasePermOf s.cfg q)) ++ s.bufBytes .gap

/-- From `s`, the machine comes to take move `m` after some number of steps, unless it stops before. That it holds of every state is weak fairness (R178, R190): whenever an agent can move, and
however long it has been passed over, its move comes. -/
def ComesUp (m : Move) (s : State) : Prop :=
  ∃ n, match Host.Core.run Sys2Proof.core n s with
    | .next u => (State.nextMove u).1 = m
    | .fault _ => True
    | .refused _ => True

/-- The step from `s` to `t` gives host `h` the response `r`, and frees it. -/
def GivesResponse (s t : State) (h : Nat) (r : Response) : Prop :=
  ∃ a : HostAgent, s.hosts[h]? = some a ∧
    t.hosts[h]? = some { a with port := .free, received := a.received ++ [r] }

/-- The step from `s` to `t` gives `r` as the response to a lifecycle command (R25): to an `INIT`, `SHOW` or
`TEARDOWN` at its acceptance step, or to an accepted `SHOW` at its completion step. -/
def LifecycleResponse (s t : State) (r : Response) : Prop :=
  ∃ h, GivesResponse s t h r ∧
    ((s.nextMove.1 = .render ∧ s.rs = .rendering h []) ∨
     ∃ cmd i, s.nextMove.1 = .accept h ∧ s.pending h = some cmd ∧
       decode (cmd.word :: cmd.payload) = .ok i [] ∧ isLifecycle i = true)

/-- The descriptor reached from `d` after `n` links (R151). -/
def follow (desc : List Desc) : Nat → Nat → Option Nat
  | 0, d => some d
  | n + 1, d =>
    match desc[d]? with
    | none => none
    | some x => follow desc n x.next

end Sys2Proof.Machine
end

