-- ==== Sys2Proof/Certificates/Slice0/Obligations.lean ====
section
/-! DEFINITION. The statements about the block, for the provers. Each cites the rule it formalises. -/

open Sys2Proof Sys2Proof.Machine

/-! ## Encoding -/

/-- R87: each row of the table of examples, both ways. `show` with 3 pixels is its command word and any
three payload words, the payload being their first nine bytes. -/
def Obligations.EncodingExamplesReadBothWays : Prop :=
  (∀ r ∈ [((0x10000003 : Word), Instr.init 3), (0x10000001, .init 1), (0x30000000, .teardown),
      (0x40000280, .lutRd 2 128), (0x5000000F, .symRd 15), (0x60000012, .enc 0 0x12),
      (0x70000011, .bufRdh 0 17), (0x8F000000, .bufRdb 0xF 0), (0x90000207, .descRd .next 7),
      (0xA0000000, .regRd 0)], decode [r.1] = .ok r.2 [] ∧ encode r.2 = [r.1]) ∧
  (∀ a b c : Word, decode [0x20000003, a, b, c] = .ok (.showPixels 3 ((wordsBytes [a, b, c]).take 9)) []) ∧
  (∀ P : List Byte, P.length = 9 → ∃ a b c, encode (.showPixels 3 P) = [0x20000003, a, b, c])

/-- Decoding the encoding of a well-formed command gives the command back, with every operand at every
value, and leaves the words after it. -/
def Obligations.DecodeOfEncodeIsTheCommand : Prop :=
  ∀ (i : Instr) (rest : List Word), i.wellFormed = true → decode (encode i ++ rest) = .ok i rest

/-- No two command words read as one: a decoded command is well formed, its encoding begins with the word
it was decoded from, and only its own payload words are taken. -/
def Obligations.DecodedWordIsTheEncodedWord : Prop :=
  ∀ (w : Word) (ws : List Word) (i : Instr) (rest : List Word), decode (w :: ws) = .ok i rest →
    (encode i).head? = some w ∧ i.wellFormed = true ∧ payloadWords w ≤ ws.length ∧
      rest = ws.drop (payloadWords w)

/-- R82: exactly the words that match no row of the opcode table are illegal; such a word is a
transaction of one word, the word after it is a new command word; and its acceptance step responds
(IllegalCommand, 0), sets FAULT, and changes nothing else. -/
def Obligations.IllegalWordRespondsAndMarksFault : Prop :=
  (∀ (w : Word) (ws : List Word),
    ((∃ cause, decode (w :: ws) = .illegal cause ws) ↔ matchesNoRow w) ∧
    ((∃ cause rest, decode (w :: ws) = .illegal cause rest) ↔ matchesNoRow w)) ∧
  (∀ (s : State) (h : Nat) (a : HostAgent) (w : Word) (ws : List Word), matchesNoRow w →
    s.hosts[h]? = some a → a.port = .free → a.inbox = w :: ws →
    stepIssue h s = .next { s with
      hosts := s.hosts.set h { a with port := .waiting { word := w, payload := [] }, inbox := ws } }) ∧
  (∀ (s : State) (h : Nat) (rest : List Move) (cmd : Txn), s.sched = .accept h :: rest →
    s.pending h = some cmd → matchesNoRow cmd.word →
    step s = .next { s with
      sched := rest
      issuer := h
      reg := { s.reg with fault := true }
      hosts := s.hosts.modify h fun a =>
        { a with port := .free, received := a.received ++ [{ status := .illegalCommand, data := 0 }] } })

/-- R70's packing and lengths: a `SHOW` of `COUNT` pixels takes `ceil(3 * COUNT / 4)` words, payload byte
`k` is in word `k / 4` at bits `[8*(k mod 4)+7 : 8*(k mod 4)]`, the pad bytes are ignored, and fewer
words are no transaction. -/
def Obligations.PayloadBytesArePackedLittleEndian : Prop :=
  ∀ (count : BitVec 16) (ws : List Word),
    (ws.length < (3 * count.toNat + 3) / 4 → decode ((0x2#4 ++ 0#12 ++ count) :: ws) = .shortPayload) ∧
    ((3 * count.toNat + 3) / 4 ≤ ws.length → ∃ P : List Byte,
      decode ((0x2#4 ++ 0#12 ++ count) :: ws) =
        .ok (.showPixels count P) (ws.drop ((3 * count.toNat + 3) / 4)) ∧
      P.length = 3 * count.toNat ∧
      ∀ k, k < 3 * count.toNat → P[k]? = (ws[k / 4]?).map fun w => w.extractLsb' (8 * (k % 4)) 8)

/-! ## A step -/

/-- The model's choice of form (log entries 3 and 7): which agent moves next is data in the state, so the next
move is the first of the schedule, and `issuer` names the host; R7, R58 and R171 admit any interleaving.
Where the next move is the acceptance of host `h`'s command and the words decode to a command, the step
is `exec` of it, with `h` as the issuing host. -/
def Obligations.StepRunsTheDecodedCommand : Prop :=
  (∀ (s : State) (m : Move) (rest : List Move), s.sched = m :: rest →
    s.nextMove = (m, { s with sched := rest }) ∧ step s = takeMove m { s with sched := rest }) ∧
  (∀ (s t : State) (h : Nat) (cmd : Txn) (i : Instr), s.nextMove = (.accept h, t) →
    t.pending h = some cmd → decode (cmd.word :: cmd.payload) = .ok i [] →
    step s = exec i { t with issuer := h })

/-- The model's interface (log entry 17): a placed command is what the very next step runs. -/
def Obligations.PlacedCommandRunsNext : Prop :=
  ∀ (s : State) (nbits w : Nat) (i : Instr), decodeTableWord nbits w = some i →
    s.placingHost < s.hosts.length →
    ∃ cmd : Txn, decode (cmd.word :: cmd.payload) = .ok i [] ∧
      step (s.withFetchWord nbits w) = exec i { s with
        hosts := s.hosts.modify s.placingHost fun a => { a with port := .waiting cmd }
        issuer := s.placingHost }

/-- R171, R41: a Free host with a whole transaction to send becomes Waiting with it; a Waiting host issues
nothing. -/
def Obligations.OnlyAFreeHostIssues : Prop :=
  ∀ (s : State) (h : Nat) (a : HostAgent), s.hosts[h]? = some a →
    (∀ cmd, a.port = .waiting cmd → stepIssue h s = .next s) ∧
    (∀ w ws, a.port = .free → a.inbox = w :: ws → payloadWords w ≤ ws.length →
      ∃ t, stepIssue h s = .next t ∧ { t with hosts := s.hosts } = s ∧
        (∀ g, g ≠ h → t.hosts[g]? = s.hosts[g]?) ∧
        t.hosts[h]? = some { a with
          port := .waiting { word := w, payload := ws.take (payloadWords w) }
          inbox := ws.drop (payloadWords w) })

/-! ## Reset -/

/-- R44: the state after reset, of every instance. -/
def Obligations.ResetStateHoldsItsValues : Prop :=
  ∀ p : Params,
    (State.resetWith p).reg.state = .uninitialized ∧ (State.resetWith p).reg.busy = false ∧
    (State.resetWith p).reg.fault = false ∧ (State.resetWith p).reg.lastErr = .ok ∧
    (State.resetWith p).reg.numLeds = 0 ∧ (State.resetWith p).reg.head = 0 ∧
    (State.resetWith p).reg.dmaRun = false ∧
    (legalParams p = true →
      regValue (State.resetWith p) 5 = some (BitVec.ofNat 32 p.dither) ∧
      (regValue (State.resetWith p) 9).map BitVec.toNat = some p.gapBytes) ∧
    regValue (State.resetWith p) 8 = some 0 ∧ regValue (State.resetWith p) 10 = some (configWord p) ∧
    (State.resetWith p).cfg = p ∧
    (State.resetWith p).mem.allocated = false ∧
    (∀ b off, (State.resetWith p).bufRead b off = none) ∧
    (State.resetWith p).desc = [] ∧ (State.resetWith p).rs = .idle ∧
    (State.resetWith p).dma = { configured := false, running := false, cur := 0, off := 0 } ∧
    (State.resetWith p).hosts.length = p.hosts ∧
    (∀ a ∈ (State.resetWith p).hosts, a.port = .free)

/-- R240: the reset input takes one step, after which every component has its value of R44; the tables
are as before, an in-flight `SHOW` is abandoned, pending transactions are dropped, and no response is
sent: what a host had received before stays as it was, which is the model's choice (log entry 8). -/
def Obligations.ResetTakesOneStep : Prop :=
  ∀ s : State, s.nextMove.1 = .reset →
    ∃ t, step s = .next t ∧ t.reg = Regs.reset ∧ t.mem.allocated = false ∧
      (∀ b off, t.bufRead b off = none) ∧ t.desc = [] ∧ t.rs = .idle ∧
      t.dma = { configured := false, running := false, cur := 0, off := 0 } ∧ t.cfg = s.cfg ∧
      t.hosts.length = s.hosts.length ∧
      ∀ (h : Nat) (a : HostAgent), s.hosts[h]? = some a →
        ∃ b : HostAgent, t.hosts[h]? = some b ∧ b.port = .free ∧ b.received = a.received

/-! ## INIT -/

/-- R173, R174, R175: the three answers of `INIT`. On success every byte of every buffer is 0, the ring is
built, the collaborators are called in order, and the engine is at the head and runs. -/
def Obligations.InitAnswers : Prop :=
  ∀ (count : BitVec 16) (s : State),
    (s.reg.state = .ready →
      ∃ t, exec (.init count) s = .next t ∧ AnswersMarked s t .stateError true) ∧
    (s.reg.state ≠ .ready →
      ¬(1 ≤ count.toNat ∧ count.toNat ≤ s.cfg.maxLeds ∧ 12 * count.toNat ≤ s.cfg.maxDescBytes ∧
        s.cfg.dither * 12 * count.toNat + s.cfg.gapBytes ≤ s.cfg.bufMemBytes) →
      ∃ t, exec (.init count) s = .next t ∧ AnswersMarked s t .allocationError s.reg.fault) ∧
    (s.reg.state ≠ .ready →
      (1 ≤ count.toNat ∧ count.toNat ≤ s.cfg.maxLeds ∧ 12 * count.toNat ≤ s.cfg.maxDescBytes ∧
        s.cfg.dither * 12 * count.toNat + s.cfg.gapBytes ≤ s.cfg.bufMemBytes) →
      ∃ t, exec (.init count) s = .next t ∧
        t.reg = { s.reg with state := .ready, lastErr := .ok, numLeds := count, head := 0, dmaRun := true } ∧
        t.mem.allocated = true ∧ t.phaseBytes = 12 * count.toNat ∧
        (∀ p off, p < s.cfg.dither → off < 12 * count.toNat → t.bufRead (.phase p) off = some 0) ∧
        (∀ off, off < s.cfg.gapBytes → t.bufRead .gap off = some 0) ∧
        t.desc = buildRing s.cfg (12 * count.toNat) ∧
        t.dma = { configured := true, running := true, cur := 0, off := 0 } ∧
        t.calls = s.calls ++
          [.periphConfig s.cfg.clkmDiv s.cfg.bckDiv, .dmaConfigure 0, .dmaStart] ∧
        t.hosts = s.hosts.modify s.issuer (fun a =>
          { a with port := .free, received := a.received ++ [{ status := .ok, data := 0 }] }) ∧
        { t with reg := s.reg, mem := s.mem, desc := s.desc, dma := s.dma, calls := s.calls,
                 hosts := s.hosts } = s)

/-! ## SHOW -/

/-- R177: the four answers of `SHOW`; `COUNT = 0` is a size mismatch in every good `Ready` state. That a term
with another payload length is refused, by the name payloadLength, is the model's choice of form for R70's
'a model refuses it' (log entry 23). Acceptance captures the write list, sets BUSY, writes no byte and sends
no response. -/
def Obligations.ShowAnswers : Prop :=
  ∀ (count : BitVec 16) (P : List Byte) (s : State),
    (P.length ≠ 3 * count.toNat → exec (.showPixels count P) s = .refused .payloadLength) ∧
    (P.length = 3 * count.toNat →
      (s.reg.state ≠ .ready →
        ∃ t, exec (.showPixels count P) s = .next t ∧ AnswersMarked s t .notInitializedError s.reg.fault) ∧
      (s.reg.state = .ready → s.reg.busy = true →
        ∃ t, exec (.showPixels count P) s = .next t ∧ AnswersMarked s t .reentrancyError s.reg.fault) ∧
      (s.reg.state = .ready → s.reg.busy = false → count ≠ s.reg.numLeds →
        ∃ t, exec (.showPixels count P) s = .next t ∧ AnswersMarked s t .sizeMismatchError s.reg.fault) ∧
      (s.reg.state = .ready → s.reg.busy = false → count = s.reg.numLeds →
        ∃ t orders, exec (.showPixels count P) s = .next t ∧
          orders.length = 2 * s.cfg.dither * P.length ∧
          t.rs = .rendering s.issuer (renderList s.cfg P orders) ∧
          t.reg = { s.reg with busy := true } ∧ SameBytes s t ∧
          { t with reg := s.reg, rs := s.rs, orders := s.orders, draw := s.draw } = s) ∧
      (Inv s → s.reg.state = .ready → s.reg.busy = false → count = 0 →
        ∃ t, exec (.showPixels count P) s = .next t ∧ AnswersMarked s t .sizeMismatchError s.reg.fault))

/-- R144: the write list, entry by entry: byte-major, phase-minor, first symbol then second, the two bytes of
a symbol in the drawn order. It has `4 * N * len` entries, writes every byte of every phase buffer
exactly once, and never the gap buffer. -/
def Obligations.WriteListCoversEveryByteOnce : Prop :=
  ∀ (cfg : Params) (P : List Byte) (orders : List ByteOrder), orders.length = 2 * cfg.dither * P.length →
    (renderList cfg P orders).length = 4 * cfg.dither * P.length ∧
    (∀ j p, j < P.length → p < cfg.dither →
      ((renderList cfg P orders).drop (4 * (j * cfg.dither + p))).take 4 =
        SymWrite.bytes cfg { ph := p, idx := 2 * j, sym := (encodeByte cfg p (P.getD j 0)).1 }
          (orders.getD (2 * (j * cfg.dither + p)) .lowByteFirst) ++
        SymWrite.bytes cfg { ph := p, idx := 2 * j + 1, sym := (encodeByte cfg p (P.getD j 0)).2 }
          (orders.getD (2 * (j * cfg.dither + p) + 1) .lowByteFirst)) ∧
    (∀ p off, p < cfg.dither → off < 4 * P.length →
      ((renderList cfg P orders).filter fun x => x.buf == .phase p && x.off == off).length = 1) ∧
    (∀ x ∈ renderList cfg P orders, ∃ p, x.buf = .phase p ∧ p < cfg.dither ∧ x.off < 4 * P.length ∧
      x.val = streamByte cfg P p x.off)

/-- R178's effect: in a good state a render step performs the head of the write list and removes it; every
other byte reads as before and nothing else changes. And the render sequencer is weakly fair: from every
state its move comes up (log entry 13 says how the schedules are formed). -/
def Obligations.RenderStepWritesTheHeadByte : Prop :=
  (∀ s : State, ComesUp .render s) ∧
  ∀ (s : State) (h : Nat) (w : ByteWrite) (ws : List ByteWrite), Inv s → s.rs = .rendering h (w :: ws) →
    ∃ t, stepRender s = .next t ∧ t.rs = .rendering h ws ∧ t.bufRead w.buf w.off = some w.val ∧
      (∀ b off, ¬(b = w.buf ∧ off = w.off) → t.bufRead b off = s.bufRead b off) ∧
      { t with rs := s.rs, mem := s.mem } = s

/-- R179: the completion step: BUSY and LAST_ERR, the sequencer Idle, the response (OK, 0) to its host, no byte
written and nothing else; if the render was one of `P`, the buffers then hold the contents of R143. -/
def Obligations.ShowCompletionResponds : Prop :=
  ∀ (s : State) (h : Nat), s.rs = .rendering h [] →
    ∃ t, stepRender s = .next t ∧
      t = { s with
        reg := { s.reg with busy := false, lastErr := .ok }
        rs := .idle
        hosts := s.hosts.modify h fun a =>
          { a with port := .free, received := a.received ++ [{ status := .ok, data := 0 }] } } ∧
      SameBytes s t ∧
      (∀ P : List Byte, RenderTracks P s → FrameShown P t)

/-- The acceptance of a `SHOW` of `P` begins a render of `P` (R143, R144). -/
def Obligations.AcceptedShowTracksItsStream : Prop :=
  ∀ (count : BitVec 16) (P : List Byte) (s t : State), Inv s → P.length = 3 * count.toNat →
    s.reg.state = .ready → s.reg.busy = false → count = s.reg.numLeds →
    exec (.showPixels count P) s = .next t → RenderTracks P t

/-- Whatever agent moves, a render of `P` in flight stays one, until its completion step, after which the
buffers hold the frame of `P` (R143, R182), or a reset. -/
def Obligations.EveryStepKeepsTheRenderOnItsStream : Prop :=
  ∀ (P : List Byte) (s t : State), Inv s → RenderTracks P s → step s = .next t →
    RenderTracks P t ∨ (t.rs = .idle ∧ t.reg.state = .ready ∧ FrameShown P t) ∨ s.nextMove.1 = .reset

/-- Every accepted `SHOW` completes (R178, R179), by the weak fairness of the render sequencer (log entry 13):
from every good state with a render of `P` in flight, the machine comes, with that render still in flight,
to its completion step, after which the buffers hold the frame and the host has the response; unless a
reset comes first, or a host stops the machine with a payload that is too short (R70). And it takes one
render step for each byte and one more, where nothing else moves. -/
def Obligations.AcceptedShowCompletes : Prop :=
  (∀ (P : List Byte) (s : State) (h : Nat) (W : List ByteWrite), Inv s → s.rs = .rendering h W →
    RenderTracks P s →
    ∃ n, Host.Core.run Sys2Proof.core n s = .refused .payloadLength ∨
      ∃ u : State, Host.Core.run Sys2Proof.core n s = .next u ∧ u.rs.active = true ∧
        (u.nextMove.1 = .reset ∨
         ∃ t, step u = .next t ∧ t.rs = .idle ∧ t.reg.busy = false ∧ t.reg.lastErr = .ok ∧ FrameShown P t ∧
           GivesResponse u t h { status := .ok, data := 0 })) ∧
  ∀ (P : List Byte) (s t : State) (rest : List Move) (a : HostAgent), Inv s →
    s.reg.state = .ready → s.reg.busy = false → P.length = 3 * s.reg.numLeds.toNat →
    s.hosts[s.issuer]? = some a → a.port ≠ .free → exec (.showPixels s.reg.numLeds P) s = .next t →
    ∃ u, Host.Core.run Sys2Proof.core (4 * s.cfg.dither * P.length + 1)
        { t with sched := List.replicate (4 * s.cfg.dither * P.length + 1) .render ++ rest } = .next u ∧
      u.rs = .idle ∧ u.reg.busy = false ∧ u.reg.lastErr = .ok ∧ FrameShown P u ∧ u.sched = rest ∧
      u.hosts[s.issuer]? =
        some { a with port := .free, received := a.received ++ [{ status := .ok, data := 0 }] }

/-- R146's core: two good states that show the same stream on the same instance have byte-identical
buffers, whatever was there before and whatever byte orders were drawn. -/
def Obligations.FrameFixesTheBuffers : Prop :=
  ∀ (P : List Byte) (s t : State), Inv s → Inv t → s.cfg = t.cfg → s.reg.numLeds = t.reg.numLeds →
    s.reg.state = .ready → t.reg.state = .ready → FrameShown P s → FrameShown P t → s.mem = t.mem

/-- R182: while a `SHOW` of another host is in flight, a `SHOW` gets ReentrancyError and writes nothing; and
the write list in flight is performed whole: a step leaves it, or is the render step that writes its head
byte and removes that entry, or is the completion step of the empty list, or a reset. -/
def Obligations.OneShowInFlightAtATime : Prop :=
  (∀ (s : State) (h g : Nat) (W : List ByteWrite) (rest : List Move) (cmd : Txn) (count : BitVec 16)
      (P : List Byte), Inv s → s.rs = .rendering h W → s.sched = .accept g :: rest →
    s.pending g = some cmd → decode (cmd.word :: cmd.payload) = .ok (.showPixels count P) [] →
    ∃ t, step s = .next t ∧ SameBytes s t ∧ t.rs = s.rs ∧ t.reg = { s.reg with lastErr := .reentrancyError } ∧
      t.hosts = s.hosts.modify g (fun a =>
        { a with port := .free, received := a.received ++ [{ status := .reentrancyError, data := 0 }] })) ∧
  (∀ (s t : State) (h : Nat) (W : List ByteWrite), Inv s → s.rs = .rendering h W → step s = .next t →
    t.rs = s.rs ∨
      (∃ w ws, W = w :: ws ∧ s.nextMove.1 = .render ∧ t.bufRead w.buf w.off = some w.val ∧
        t.rs = .rendering h ws) ∨
      (W = [] ∧ s.nextMove.1 = .render ∧ t.rs = .idle) ∨
      s.nextMove.1 = .reset)

/-! ## TEARDOWN -/

/-- R183: the four answers of `TEARDOWN`. From `Ready` the engine is stopped, the buffers hold no value and
the arena no descriptor; `NUM_LEDS` and `HEAD` are kept. -/
def Obligations.TeardownAnswers : Prop :=
  ∀ s : State,
    (s.reg.state = .uninitialized →
      ∃ t, exec .teardown s = .next t ∧ AnswersMarked s t .notInitializedError s.reg.fault) ∧
    (s.reg.state = .stopped →
      ∃ t, exec .teardown s = .next t ∧ AnswersMarked s t .ok s.reg.fault) ∧
    (s.reg.state = .ready → s.reg.busy = true →
      ∃ t, exec .teardown s = .next t ∧ AnswersMarked s t .reentrancyError s.reg.fault) ∧
    (s.reg.state = .ready → s.reg.busy = false →
      ∃ t, exec .teardown s = .next t ∧
        t.reg = { s.reg with state := .stopped, dmaRun := false, lastErr := .ok } ∧
        t.mem.allocated = false ∧ (∀ b off, t.bufRead b off = none) ∧ t.desc = [] ∧
        t.dma = { s.dma with running := false } ∧ t.calls = s.calls ++ [.dmaStop] ∧
        t.hosts = s.hosts.modify s.issuer (fun a =>
          { a with port := .free, received := a.received ++ [{ status := .ok, data := 0 }] }) ∧
        { t with reg := s.reg, mem := s.mem, desc := s.desc, dma := s.dma, calls := s.calls,
                 hosts := s.hosts } = s)

/-- R184's core: after a successful `TEARDOWN`, another one answers (OK, 0) to its host and changes nothing
else: no register, and no other host. -/
def Obligations.TeardownIsIdempotent : Prop :=
  ∀ s t u : State, exec .teardown s = .next t → t.reg.state = .stopped → exec .teardown t = .next u →
    { u with hosts := t.hosts } = t ∧ AnswersMarked t u .ok t.reg.fault ∧
      ∀ h, h ≠ t.issuer → u.hosts[h]? = t.hosts[h]?

/-- R185: in `Stopped`, `SHOW` and the buffer and descriptor reads raise NotInitializedError, and no step
but an accepted `INIT` leads to `Ready`. -/
def Obligations.OnlyInitLeadsBackToReady : Prop :=
  (∀ (s : State), s.reg.state = .stopped →
    (∀ count P, P.length = 3 * count.toNat →
      ∃ t, exec (.showPixels count P) s = .next t ∧ AnswersMarked s t .notInitializedError s.reg.fault) ∧
    (∀ i sel idx fld di, i = .bufRdh sel idx ∨ i = .bufRdb sel idx ∨ i = .descRd fld di →
      ∃ t, exec i s = .next t ∧ Answers s t .notInitializedError 0)) ∧
  (∀ s t : State, s.reg.state ≠ .ready → step s = .next t → t.reg.state = .ready →
    ∃ h cmd count, s.nextMove.1 = .accept h ∧ s.pending h = some cmd ∧
      decode (cmd.word :: cmd.payload) = .ok (.init count) [] ∧ allocOK s.cfg count.toNat = true)

/-! ## Diagnostic reads -/

/-- R109. The last clauses are its corner cases and its example. -/
def Obligations.LutRdReadsTheTable : Prop :=
  ∀ (ph : BitVec 3) (val : Byte) (s : State),
    (s.cfg.dither ≤ ph.toNat → ∃ t, exec (.lutRd ph val) s = .next t ∧ Answers s t .rangeError 0) ∧
    (ph.toNat < s.cfg.dither → ∃ t, exec (.lutRd ph val) s = .next t ∧
      Answers s t .ok (BitVec.ofNat 32 (gdtEntry s.cfg ph.toNat val).toNat) ∧
      (Admissible s.cfg → val = 0 → Answers s t .ok 0) ∧
      (Admissible s.cfg → val = 255 → Answers s t .ok 255)) ∧
    (s.cfg.dither = 4 → s.cfg.gdt = referenceTable 4 5 2 →
      ∃ t, exec (.lutRd 2 128) s = .next t ∧ Answers s t .ok 45)

/-- R127, with its corner cases for the decided patterns. -/
def Obligations.SymRdReadsTheSymbol : Prop :=
  ∀ (nib : Nibble) (s : State), ∃ t, exec (.symRd nib) s = .next t ∧
    Answers s t .ok (BitVec.ofNat 32 (symbolOf s.cfg nib).toNat) ∧
    (decidedParams s.cfg = true → nib = 0 → Answers s t .ok 0x00008888) ∧
    (decidedParams s.cfg = true → nib = 15 → Answers s t .ok 0x0000EEEE)

/-- R128, with its corner case of equal nibbles and its example. -/
def Obligations.EncReturnsBothSymbols : Prop :=
  ∀ (ph : BitVec 3) (val : Byte) (s : State),
    (s.cfg.dither ≤ ph.toNat → ∃ t, exec (.enc ph val) s = .next t ∧ Answers s t .rangeError 0) ∧
    (ph.toNat < s.cfg.dither → ∃ t d, exec (.enc ph val) s = .next t ∧ Answers s t .ok d ∧
      d.extractLsb' 16 16 = (encodeByte s.cfg ph.toNat val).1 ∧
      d.extractLsb' 0 16 = (encodeByte s.cfg ph.toNat val).2 ∧
      ((gdtEntry s.cfg ph.toNat val).extractLsb' 0 4 = (gdtEntry s.cfg ph.toNat val).extractLsb' 4 4 →
        d.extractLsb' 16 16 = d.extractLsb' 0 16) ∧
      (decidedParams s.cfg = true → gdtEntry s.cfg ph.toNat val = 0x12 → d = 0x88E8888E))

/-- R155: the checks in their order, and the symbol of the two bytes. -/
def Obligations.BufRdhReadsASymbol : Prop :=
  ∀ (sel : BitVec 4) (idx : BitVec 20) (s : State),
    (s.reg.state ≠ .ready →
      ∃ t, exec (.bufRdh sel idx) s = .next t ∧ Answers s t .notInitializedError 0) ∧
    (s.reg.state = .ready → s.cfg.dither ≤ sel.toNat ∨ 6 * s.reg.numLeds.toNat ≤ idx.toNat →
      ∃ t, exec (.bufRdh sel idx) s = .next t ∧ Answers s t .rangeError 0) ∧
    (Inv s → s.reg.state = .ready → sel.toNat < s.cfg.dither → idx.toNat < 6 * s.reg.numLeds.toNat →
      ∃ t b0 b1, exec (.bufRdh sel idx) s = .next t ∧
        s.bufRead (.phase sel.toNat) (2 * idx.toNat) = some b0 ∧
        s.bufRead (.phase sel.toNat) (2 * idx.toNat + 1) = some b1 ∧
        (s.cfg.bufEndian = .little → Answers s t .ok (BitVec.ofNat 32 (256 * b1.toNat + b0.toNat))) ∧
        (s.cfg.bufEndian = .big → Answers s t .ok (BitVec.ofNat 32 (256 * b0.toNat + b1.toNat))))

/-- R156: the checks in their order, and the byte; every byte of the gap buffer reads 0. -/
def Obligations.BufRdbReadsAByte : Prop :=
  ∀ (sel : BitVec 4) (idx : BitVec 20) (s : State),
    (s.reg.state ≠ .ready →
      ∃ t, exec (.bufRdb sel idx) s = .next t ∧ Answers s t .notInitializedError 0) ∧
    (s.reg.state = .ready →
      (s.cfg.dither ≤ sel.toNat ∧ sel ≠ 0xF) ∨
        (sel.toNat < s.cfg.dither ∧ 12 * s.reg.numLeds.toNat ≤ idx.toNat) ∨
        (s.cfg.dither ≤ sel.toNat ∧ sel = 0xF ∧ s.cfg.gapBytes ≤ idx.toNat) →
      ∃ t, exec (.bufRdb sel idx) s = .next t ∧ Answers s t .rangeError 0) ∧
    (Inv s → s.reg.state = .ready → sel.toNat < s.cfg.dither → idx.toNat < 12 * s.reg.numLeds.toNat →
      ∃ t b, exec (.bufRdb sel idx) s = .next t ∧ s.bufRead (.phase sel.toNat) idx.toNat = some b ∧
        Answers s t .ok (BitVec.ofNat 32 b.toNat)) ∧
    (Inv s → s.reg.state = .ready → idx.toNat < s.cfg.gapBytes →
      ∃ t, exec (.bufRdb 0xF idx) s = .next t ∧ s.bufRead .gap idx.toNat = some 0 ∧ Answers s t .ok 0)

/-- R157: the checks in their order, and the four fields. -/
def Obligations.DescRdReadsAField : Prop :=
  ∀ (fld : DescField) (di : BitVec 4) (s : State),
    (s.reg.state ≠ .ready →
      ∃ t, exec (.descRd fld di) s = .next t ∧ Answers s t .notInitializedError 0) ∧
    (s.reg.state = .ready → 2 * s.cfg.dither ≤ di.toNat →
      ∃ t, exec (.descRd fld di) s = .next t ∧ Answers s t .rangeError 0) ∧
    (Inv s → s.reg.state = .ready → di.toNat < 2 * s.cfg.dither →
      ∃ t d, exec (.descRd fld di) s = .next t ∧ s.desc[di.toNat]? = some d ∧
        (∀ p, fld = .buf → d.buf = .phase p → Answers s t .ok (BitVec.ofNat 32 p)) ∧
        (fld = .buf → d.buf = .gap → Answers s t .ok 0xF) ∧
        (fld = .len → Answers s t .ok (BitVec.ofNat 32 d.len)) ∧
        (fld = .next → Answers s t .ok (BitVec.ofNat 32 d.next)) ∧
        (fld = .flags → Answers s t .ok (BitVec.ofNat 32 (2 * d.eof.toNat + d.owner.toNat))))

/-- R187 with the map of R34 and the reserved numbers of R33. -/
def Obligations.RegRdReadsTheRegister : Prop :=
  ∀ (rn : BitVec 4) (s : State),
    (11 ≤ rn.toNat → ∃ t, exec (.regRd rn) s = .next t ∧ Answers s t .rangeError 0) ∧
    (∀ v : Word, (rn.toNat, v) ∈
        [(0, BitVec.ofNat 32 s.reg.state.code.toNat), (1, BitVec.ofNat 32 s.reg.busy.toNat),
         (2, BitVec.ofNat 32 s.reg.fault.toNat), (3, BitVec.ofNat 32 s.reg.lastErr.code.toNat),
         (4, BitVec.ofNat 32 s.reg.numLeds.toNat), (5, BitVec.ofNat 32 (s.cfg.dither % 16)),
         (6, BitVec.ofNat 32 s.reg.head.toNat), (7, BitVec.ofNat 32 s.reg.dmaRun.toNat),
         (8, if s.reg.state = .ready then BitVec.ofNat 32 (12 * s.reg.numLeds.toNat) else 0),
         (9, BitVec.ofNat 32 s.cfg.gapBytes), (10, configWord s.cfg)] →
      ∃ t, exec (.regRd rn) s = .next t ∧ Answers s t .ok v)

/-- R32: the fields of `CONFIG`, and its value with the decided parameters. -/
def Obligations.ConfigRegisterFields : Prop :=
  ∀ cfg : Params,
    ((configWord cfg).getLsbD 0 = true ↔ cfg.nibbleOrder = .highFirst) ∧
    ((configWord cfg).getLsbD 1 = true ↔ cfg.bufEndian = .big) ∧
    ((configWord cfg).getLsbD 2 = true ↔ cfg.groupOrder = .lsbFirst) ∧
    (configWord cfg).getLsbD 3 = false ∧
    (configWord cfg).extractLsb' 4 4 = cfg.shortPat ∧ (configWord cfg).extractLsb' 8 4 = cfg.longPat ∧
    (configWord cfg).extractLsb' 12 20 = 0 ∧
    (decidedParams cfg = true → configWord cfg = 0x00000E80)

/-- R56 for the seven diagnostic reads: the whole frame. Every register, descriptor, table, byte and every
other host is as before. -/
def Obligations.DiagnosticReadsChangeNothing : Prop :=
  ∀ (i : Instr) (s t : State), isLifecycle i = false → exec i s = .next t →
    t.reg = s.reg ∧ SameBytes s t ∧ (∀ h, h ≠ s.issuer → t.hosts[h]? = s.hosts[h]?) ∧
      { t with hosts := s.hosts } = s

/-! ## Statuses, responses, registers -/

/-- R210: the codes; and the two words of a response (R71). -/
def Obligations.StatusCodes : Prop :=
  ([Status.ok, .allocationError, .sizeMismatchError, .reentrancyError, .notInitializedError,
    .illegalCommand, .rangeError, .stateError].map fun e => e.code.toNat) = [0, 1, 2, 3, 4, 5, 6, 7] ∧
  (∀ e : Status, e.code.toNat < 8) ∧
  (∀ r : Response, r.words = [BitVec.ofNat 32 r.status.code.toNat, r.data])

/-- R71, R171: a command's acceptance step touches its issuing host only; it gives it exactly one response
and frees it, unless it accepts a `SHOW`, and then it gives none. -/
def Obligations.OneResponseToTheIssuer : Prop :=
  ∀ (i : Instr) (s t : State) (a : HostAgent), exec i s = .next t → s.hosts[s.issuer]? = some a →
    (∀ h, h ≠ s.issuer → t.hosts[h]? = s.hosts[h]?) ∧
    ((t.rs = s.rs ∧ ∃ r : Response,
        t.hosts[s.issuer]? = some { a with port := .free, received := a.received ++ [r] }) ∨
     (t.hosts = s.hosts ∧ (∃ count P, i = .showPixels count P) ∧ s.reg.busy = false ∧ t.reg.busy = true))

/-- R25: `LAST_ERR` is the status of the most recent response to a lifecycle command, for an accepted `SHOW`
from its completion on; diagnostic reads and illegal words do not write it; reset makes it OK. Over
a step of any agent: a step that gives a response to a lifecycle command leaves its status in `LAST_ERR`,
and every other step but a reset leaves `LAST_ERR` as it is. -/
def Obligations.LastErrIsTheLastLifecycleStatus : Prop :=
  (∀ s t : State, Inv s → step s = .next t →
    (∀ r, LifecycleResponse s t r → t.reg.lastErr = r.status) ∧
    ((¬∃ r, LifecycleResponse s t r) → s.nextMove.1 ≠ .reset → t.reg.lastErr = s.reg.lastErr) ∧
    (s.nextMove.1 = .reset → t.reg.lastErr = .ok)) ∧
  (∀ (i : Instr) (s t : State) (a : HostAgent), isLifecycle i = true → exec i s = .next t →
    s.hosts[s.issuer]? = some a →
    (∃ r : Response, t.hosts[s.issuer]? = some { a with port := .free, received := a.received ++ [r] } ∧
      t.reg.lastErr = r.status) ∨
    (t.hosts = s.hosts ∧ t.reg.lastErr = s.reg.lastErr ∧ t.reg.busy = true)) ∧
  (∀ (i : Instr) (s t : State), isLifecycle i = false → exec i s = .next t → t.reg.lastErr = s.reg.lastErr) ∧
  (∀ s : State, s.illegalWord.reg.lastErr = s.reg.lastErr) ∧
  (∀ (s t : State) (h : Nat), s.rs = .rendering h [] → stepRender s = .next t → t.reg.lastErr = .ok) ∧
  (∀ p : Params, (State.resetWith p).reg.lastErr.code = 0) ∧
  (∀ s : State, regValue s 3 = some (BitVec.ofNat 32 s.reg.lastErr.code.toNat))

/-- R24, R214: after a step FAULT is 1 exactly if the step is no reset and FAULT was 1, or the step accepts an
illegal word, or an `INIT` while `Ready`. -/
def Obligations.FaultIsStickyAndHasTwoCauses : Prop :=
  ∀ s t : State, step s = .next t →
    (t.reg.fault = true ↔ s.nextMove.1 ≠ .reset ∧
      (s.reg.fault = true ∨ ∃ h cmd, s.nextMove.1 = .accept h ∧ s.pending h = some cmd ∧
        (matchesNoRow cmd.word ∨
          (s.reg.state = .ready ∧ ∃ count, decode (cmd.word :: cmd.payload) = .ok (.init count) []))))

/-- R22, R172: the lifecycle moves only from `Uninitialized` or `Stopped` to `Ready`, by an accepted `INIT` that
passes the allocation check, from an idle `Ready` to `Stopped`, by an accepted `TEARDOWN`, or by a reset to
`Uninitialized`. -/
def Obligations.LifecycleMovesAlongItsTable : Prop :=
  ∀ s t : State, step s = .next t →
    t.reg.state = s.reg.state ∨
    (s.reg.state ≠ .ready ∧ t.reg.state = .ready ∧
      ∃ h cmd count, s.nextMove.1 = .accept h ∧ s.pending h = some cmd ∧
        decode (cmd.word :: cmd.payload) = .ok (.init count) [] ∧ allocOK s.cfg count.toNat = true) ∨
    (s.reg.state = .ready ∧ s.reg.busy = false ∧ t.reg.state = .stopped ∧
      ∃ h cmd, s.nextMove.1 = .accept h ∧ s.pending h = some cmd ∧
        decode (cmd.word :: cmd.payload) = .ok .teardown []) ∨
    (t.reg.state = .uninitialized ∧ s.nextMove.1 = .reset)

/-! ## Tables -/

/-- R121: group `k` of a symbol, from the least significant, is the pattern of bit `k` with MsbFirst and of bit
`3 - k` with LsbFirst. -/
def Obligations.SymbolGroupsFollowTheBits : Prop :=
  ∀ (cfg : Params) (n : Nibble) (k : Nat), k < 4 →
    (cfg.groupOrder = .msbFirst →
      (symbolOf cfg n).extractLsb' (4 * k) 4 = if n.getLsbD k then cfg.longPat else cfg.shortPat) ∧
    (cfg.groupOrder = .lsbFirst →
      (symbolOf cfg n).extractLsb' (4 * k) 4 = if n.getLsbD (3 - k) then cfg.longPat else cfg.shortPat)

/-- R123: the table with the decided parameters; no entry is 0, every one has bit 15 set and bit 0 clear. -/
def Obligations.SymbolTableContents : Prop :=
  ∀ cfg : Params, decidedParams cfg = true →
    ((List.range 16).map fun n => symbolOf cfg (BitVec.ofNat 4 n)) =
      [0x8888, 0x888E, 0x88E8, 0x88EE, 0x8E88, 0x8E8E, 0x8EE8, 0x8EEE,
       0xE888, 0xE88E, 0xE8E8, 0xE8EE, 0xEE88, 0xEE8E, 0xEEE8, 0xEEEE] ∧
    ∀ n : Nibble, symbolOf cfg n ≠ 0 ∧ (symbolOf cfg n).getLsbD 15 = true ∧ (symbolOf cfg n).getLsbD 0 = false

/-- R124: the two symbols of a byte are those of the corrected byte's nibbles, in the order of `NIBBLE_ORDER`. -/
def Obligations.EncodeFollowsTheNibbleOrder : Prop :=
  ∀ (cfg : Params) (p : Nat) (b : Byte),
    (cfg.nibbleOrder = .lowFirst → encodeByte cfg p b =
      (symbolOf cfg (BitVec.ofNat 4 ((gdtEntry cfg p b).toNat % 16)),
       symbolOf cfg (BitVec.ofNat 4 ((gdtEntry cfg p b).toNat / 16)))) ∧
    (cfg.nibbleOrder = .highFirst → encodeByte cfg p b =
      (symbolOf cfg (BitVec.ofNat 4 ((gdtEntry cfg p b).toNat / 16)),
       symbolOf cfg (BitVec.ofNat 4 ((gdtEntry cfg p b).toNat % 16))))

/-- R126: each of the two symbols depends on one nibble of the corrected byte only; equal corrected bytes
encode equally. -/
def Obligations.EncodeDependsOnTheCorrectedNibbles : Prop :=
  ∀ (cfg : Params) (p q : Nat) (b c : Byte),
    ((gdtEntry cfg p b).toNat % 16 = (gdtEntry cfg q c).toNat % 16 →
      (cfg.nibbleOrder = .lowFirst → (encodeByte cfg p b).1 = (encodeByte cfg q c).1) ∧
      (cfg.nibbleOrder = .highFirst → (encodeByte cfg p b).2 = (encodeByte cfg q c).2)) ∧
    ((gdtEntry cfg p b).toNat / 16 = (gdtEntry cfg q c).toNat / 16 →
      (cfg.nibbleOrder = .lowFirst → (encodeByte cfg p b).2 = (encodeByte cfg q c).2) ∧
      (cfg.nibbleOrder = .highFirst → (encodeByte cfg p b).1 = (encodeByte cfg q c).1)) ∧
    (gdtEntry cfg p b = gdtEntry cfg p c → encodeByte cfg p b = encodeByte cfg p c)

/-- R53: where the bytes of a symbol stand, and that reading them back gives the symbol. -/
def Obligations.SymbolBytesInMemory : Prop :=
  ∀ (cfg : Params) (i : Nat) (s : Symbol),
    (cfg.bufEndian = .little → lowOffset cfg i = 2 * i ∧ highOffset cfg i = 2 * i + 1 ∧
      joinBytes cfg (symbolLow s) (symbolHigh s) = s) ∧
    (cfg.bufEndian = .big → lowOffset cfg i = 2 * i + 1 ∧ highOffset cfg i = 2 * i ∧
      joinBytes cfg (symbolHigh s) (symbolLow s) = s) ∧
    (symbolLow s).toNat = s.toNat % 256 ∧ (symbolHigh s).toNat = s.toNat / 256

/-- R103, R104, for every real exponent: reference contents exist, they are admissible, and their mean is
within `1 / (2N)` of the ideal curve; the table computed for a rational exponent (log entry 10) is the
reference contents. -/
def Obligations.ReferenceTableIsAdmissible : Prop :=
  (∀ (gamma : ℝ) (cfg : Params), 0 < gamma → 1 ≤ cfg.dither → IsReferenceFor gamma cfg →
    AdmissibleFor gamma cfg ∧
    ∀ (v : Byte) (f : ℝ), IsIdeal gamma v f →
      |(((List.range cfg.dither).map fun p => ((gdtEntry cfg p v).toNat : ℝ)).sum) / cfg.dither - f|
        ≤ 1 / (2 * (cfg.dither : ℝ))) ∧
  (∀ (gamma : ℝ) (cfg : Params), 0 < gamma → ∃ gdt : List (List Byte), gdt.length = cfg.dither ∧
    (∀ row ∈ gdt, row.length = 256) ∧ IsReferenceFor gamma { cfg with gdt := gdt }) ∧
  (∀ (cfg : Params) (num den : Nat), 0 < num → 0 < den → cfg.gdt = referenceTable cfg.dither num den →
    IsReferenceFor ((num : ℝ) / den) cfg)

/-- R106 (a), (b), (d) by (e): what every admissible table holds; and (c), of
the reference contents for every real exponent, and of the computed entry for a rational one. -/
def Obligations.AdmissibleTableSpecialCases : Prop :=
  (∀ (gamma : ℝ) (cfg : Params) (p : Nat), 0 < gamma → AdmissibleFor gamma cfg → p < cfg.dither →
    gdtEntry cfg p 0 = 0 ∧ gdtEntry cfg p 255 = 255 ∧
    (∀ (v : Byte) (f : ℝ) (n : ℤ), IsIdeal gamma v f → f = n → ((gdtEntry cfg p v).toNat : ℤ) = n) ∧
    (gamma = 1 → ∀ v : Byte, gdtEntry cfg p v = v)) ∧
  (∀ (gamma : ℝ) (cfg : Params) (v : Byte) (f : ℝ), 0 < gamma → cfg.dither = 1 → IsReferenceFor gamma cfg →
    IsIdeal gamma v f → ((gdtEntry cfg 0 v).toNat : ℤ) = ⌊f + 1 / 2⌋) ∧
  (∀ (num den : Nat) (v : Byte) (f : ℝ), 0 < num → 0 < den → IsIdeal ((num : ℝ) / den) v f →
    ((referenceEntry 1 num den 0 v.toNat).toNat : ℤ) = ⌊f + 1 / 2⌋)

/-! ## The ring -/

/-- R148: the two descriptors of each ring pair, and the length of the arena. -/
def Obligations.RingIsBuiltInPairs : Prop :=
  ∀ (cfg : Params) (phaseBytes q : Nat), q < cfg.dither →
    (buildRing cfg phaseBytes).length = 2 * cfg.dither ∧
    (buildRing cfg phaseBytes)[2 * q]? = some
      { buf := .phase (phasePermOf cfg q), len := phaseBytes, next := 2 * q + 1,
        owner := cfg.ownerReady, eof := cfg.eofReady } ∧
    (buildRing cfg phaseBytes)[2 * q + 1]? = some
      { buf := .gap, len := cfg.gapBytes, next := (2 * q + 2) % (2 * cfg.dither),
        owner := cfg.ownerReady, eof := cfg.eofReady }

/-- R151: from any descriptor the links visit all `2N`, each once, before they return; pixel and gap
descriptors alternate, and each phase buffer stands in exactly one. -/
def Obligations.RingTraversalVisitsEveryDescriptor : Prop :=
  ∀ s : State, Inv s → s.reg.state = .ready →
    (∀ d n, d < 2 * s.cfg.dither → follow s.desc n d = some ((d + n) % (2 * s.cfg.dither))) ∧
    (∀ i, i < 2 * s.cfg.dither → ∃ x, s.desc[i]? = some x ∧
      (i % 2 = 0 → ∃ p, p < s.cfg.dither ∧ x.buf = .phase p ∧ x.len = 12 * s.reg.numLeds.toNat) ∧
      (i % 2 = 1 → x.buf = .gap ∧ x.len = s.cfg.gapBytes)) ∧
    (∀ p, p < s.cfg.dither → ∃! i, i < 2 * s.cfg.dither ∧ ∃ x, s.desc[i]? = some x ∧ x.buf = .phase p)

/-- R149: while the block stays `Ready`, no step changes a link of the ring. -/
def Obligations.RingIsFixedWhileReady : Prop :=
  ∀ s t : State, s.reg.state = .ready → step s = .next t → t.reg.state = .ready →
    t.desc.map Desc.links = s.desc.map Desc.links

/-- R154: no descriptor's `next` is out of range, so the chain never ends. -/
def Obligations.EveryLinkIsInRange : Prop :=
  ∀ s : State, Inv s → s.reg.state = .ready →
    s.desc.length = 2 * s.cfg.dither ∧ ∀ d ∈ s.desc, d.next < 2 * s.cfg.dither

/-! ## The DMA Engine -/

/-- R190's effect: while it runs, the engine's step emits the byte at the cursor, whatever the flags hold,
and moves the cursor; while it does not run, it reads nothing. And the engine is weakly
fair: from every state its move comes up (log entry 13 says how the schedules are formed). -/
def Obligations.DmaReadEmitsTheByteAtTheCursor : Prop :=
  ∀ s : State,
    ComesUp .dmaRead s ∧
    (s.dma.running = false → stepDmaRead s = .next s) ∧
    (Inv s → s.reg.state = .ready → ∃ d x t, s.desc[s.dma.cur]? = some d ∧
      s.bufRead d.buf s.dma.off = some x ∧ stepDmaRead s = .next t ∧ t.stream = s.stream ++ [x] ∧
      (s.dma.off + 1 = d.len → t.dma = { s.dma with cur := d.next, off := 0 }) ∧
      (s.dma.off + 1 ≠ d.len → t.dma = { s.dma with off := s.dma.off + 1 }) ∧
      { t with stream := s.stream, dma := s.dma } = s)

/-- R193: with no `SHOW` in flight, one traversal from the head emits phase buffer, gap buffer, phase buffer
and so on in the ring's order, and wraps to the head. -/
def Obligations.OutputStreamIsTheRingTraversal : Prop :=
  ∀ (s : State) (rest : List Move), Inv s → s.reg.state = .ready → s.rs = .idle →
    s.dma.cur = 0 → s.dma.off = 0 →
    s.sched = List.replicate (s.cfg.dither * (12 * s.reg.numLeds.toNat + s.cfg.gapBytes)) .dmaRead ++ rest →
    ∃ u, Host.Core.run Sys2Proof.core (s.cfg.dither * (12 * s.reg.numLeds.toNat + s.cfg.gapBytes)) s = .next u ∧
      u = { s with stream := s.stream ++ s.traversal, sched := rest }

/-- R242, read with R60 (log entry 27): outside `Ready` no step emits a byte; and while every byte of the
buffers is 0 and no render is in flight, a step keeps them 0 and emits nothing but a 0. -/
def Obligations.OutputIsZeroBeforeAFrame : Prop :=
  (∀ s t : State, Inv s → s.reg.state ≠ .ready → step s = .next t → t.stream = s.stream) ∧
  (∀ s t : State, Inv s → s.rs = .idle → (∀ b off x, s.bufRead b off = some x → x = 0) →
    step s = .next t →
    (∀ b off x, t.bufRead b off = some x → x = 0) ∧ (t.stream = s.stream ∨ t.stream = s.stream ++ [0]))

/-- R191: a `TEARDOWN` from `Ready` stops the engine in its own step; the stream ends where it was, and no
later read of the engine emits anything before another `INIT` starts it. -/
def Obligations.TeardownIsAHardStop : Prop :=
  ∀ s t : State, s.reg.state = .ready → s.reg.busy = false → exec .teardown s = .next t →
    t.dma.running = false ∧ t.stream = s.stream ∧ stepDmaRead t = .next t

/-- R192's effect: while configured and `Ready`, the engine may set the flags of any descriptor to any values;
nothing else changes, and otherwise nothing at all. -/
def Obligations.DmaWritesOnlyFlags : Prop :=
  ∀ (s : State) (d : Nat) (o e : Bool),
    ∃ t, stepDmaFlags d o e s = .next t ∧ { t with desc := s.desc } = s ∧
      t.desc.map Desc.links = s.desc.map Desc.links ∧ (∀ g, g ≠ d → t.desc[g]? = s.desc[g]?) ∧
      (s.dma.configured = true → s.reg.state = .ready → ∀ x, s.desc[d]? = some x →
        t.desc[d]? = some { x with owner := o, eof := e }) ∧
      (¬(s.dma.configured = true ∧ s.reg.state = .ready) → t = s)

/-- R150: no rule of the block depends on the flags. Every command but `DESC_RD` of field 3, and every move of
every agent but the acceptance of that command, does the same whatever the flags hold. R52, R147: and no move
at all depends on `DESC_LAYOUT`, the layout of a descriptor's bits and the placement of the buffers. -/
def Obligations.FlagsInfluenceNothing : Prop :=
  (∀ (i : Instr) (s : State), (∀ di, i ≠ .descRd .flags di) →
    mapNext State.eraseFlags (exec i s.eraseFlags) = mapNext State.eraseFlags (exec i s)) ∧
  (∀ (m : Move) (s : State),
    (∀ h cmd di, m = .accept h → s.pending h = some cmd →
      decode (cmd.word :: cmd.payload) ≠ .ok (.descRd .flags di) []) →
    mapNext State.eraseFlags (takeMove m s.eraseFlags) = mapNext State.eraseFlags (takeMove m s)) ∧
  (∀ (l : DescLayout) (m : Move) (s : State),
    takeMove m (s.withLayout l) = mapNext (State.withLayout l) (takeMove m s))

/-! ## Whole-machine rules -/

/-- Every state that the reset leaves, of every legal instance, is good; the model's own reset state too. -/
def Obligations.ResetMeetsTheInvariant : Prop :=
  (∀ p : Params, legalParams p = true → Inv (State.resetWith p)) ∧ Inv State.reset

/-- Every step from a good state, whichever agent takes it, leads to a good state. -/
def Obligations.EveryStepKeepsTheInvariant : Prop :=
  ∀ s t : State, Inv s → step s = .next t → Inv t

/-- From a good state no step faults; and a step is refused only where a host sends a `SHOW` with too few
words (R70). -/
def Obligations.GoodStatesNeverFault : Prop :=
  ∀ s : State, Inv s → (∃ t, step s = .next t) ∨
    (step s = .refused .payloadLength ∧ ∃ h a w ws, s.nextMove.1 = .issue h ∧ s.hosts[h]? = some a ∧
      a.port = .free ∧ a.inbox = w :: ws ∧ ws.length < payloadWords w)

/-- R58, R60: while the block stays `Ready`, a step changes a byte only if it is a render step, and then only
the byte its write names, to the value its write has; so every racing read gets the old byte or the new. -/
def Obligations.BytesChangeOnlyByRenderSteps : Prop :=
  ∀ s t : State, Inv s → step s = .next t → s.reg.state = .ready → t.reg.state = .ready →
    ∀ b off, t.bufRead b off = s.bufRead b off ∨
      ∃ h w ws, s.nextMove.1 = .render ∧ s.rs = .rendering h (w :: ws) ∧ w.buf = b ∧ w.off = off ∧
        t.bufRead b off = some w.val

/-- R141, R253: in every good `Ready` state, and after every step that leads to one, every byte of the gap
buffer is 0. -/
def Obligations.GapBufferStaysZero : Prop :=
  ∀ s t : State, Inv s → step s = .next t → t.reg.state = .ready →
    ∀ off, off < t.cfg.gapBytes → t.bufRead .gap off = some 0

/-- R20, R37, R105: no step changes a parameter or a table. And what has been observed stays (log entry 8,
the model's choice): the output stream, the calls and each host's responses only grow. -/
def Obligations.ParametersStayAndHistoriesGrow : Prop :=
  ∀ s t : State, step s = .next t →
    t.cfg = s.cfg ∧ s.stream <+: t.stream ∧ s.calls <+: t.calls ∧
      ∀ (h : Nat) (a : HostAgent), s.hosts[h]? = some a →
        ∃ b : HostAgent, t.hosts[h]? = some b ∧ a.received <+: b.received
end

