-- ==== Sys2Proof/Laws/Memory.lean ====
section
/-! SUPPORT. The laws of one buffer's memory: read after write, and the canonical form that every write keeps. -/

namespace Sys2Proof.Machine

@[simp] theorem Memory.read_nil (k : Nat) : Memory.read [] k = 0 := rfl

theorem Memory.read_cons (a k : Nat) (x : Byte) (m : Memory) :
    Memory.read ((a, x) :: m) k = if a = k then x else Memory.read m k := rfl

/-- Listed offsets at or above `lo` only: an offset below `lo` reads as 0. -/
theorem Memory.read_of_lt {lo k : Nat} {m : Memory} (h : Memory.wfFrom lo m = true) (hk : k < lo) :
    Memory.read m k = 0 := by
  induction m generalizing lo with
  | nil => rfl
  | cons c m ih =>
    obtain ⟨a, x⟩ := c
    simp only [Memory.wfFrom, Bool.and_eq_true, decide_eq_true_eq] at h
    rw [Memory.read_cons, if_neg (by omega)]
    exact ih h.2 (by omega)

theorem Memory.read_write_same {lo : Nat} {m : Memory} (h : Memory.wfFrom lo m = true) (k : Nat) (x : Byte) :
    Memory.read (Memory.write k x m) k = x := by
  induction m generalizing lo with
  | nil => by_cases hx : x = 0#8 <;> simp [Memory.write, hx, Memory.read_cons]
  | cons c m ih =>
    obtain ⟨a, y⟩ := c
    simp only [Memory.wfFrom, Bool.and_eq_true, decide_eq_true_eq] at h
    unfold Memory.write
    split_ifs with h1 h2 h3 h4
    · rw [Memory.read_cons, if_neg (by omega), Memory.read_of_lt h.2 (by omega), h2]
    · simp [Memory.read_cons]
    · rw [Memory.read_of_lt h.2 (by omega), h4]
    · simp [Memory.read_cons]
    · rw [Memory.read_cons, if_neg (by omega)]
      exact ih h.2

theorem Memory.read_write_other {lo : Nat} {m : Memory} (h : Memory.wfFrom lo m = true) {k j : Nat} (x : Byte)
    (hj : j ≠ k) : Memory.read (Memory.write k x m) j = Memory.read m j := by
  induction m generalizing lo with
  | nil => by_cases hx : x = 0#8 <;> simp [Memory.write, hx, Memory.read_cons, Ne.symm hj]
  | cons c m ih =>
    obtain ⟨a, y⟩ := c
    simp only [Memory.wfFrom, Bool.and_eq_true, decide_eq_true_eq] at h
    unfold Memory.write
    split_ifs with h1 h2 h3 h4
    · rfl
    · rw [Memory.read_cons, if_neg (Ne.symm hj)]
    · rw [Memory.read_cons, if_neg (by omega)]
    · rw [Memory.read_cons, if_neg (Ne.symm hj), Memory.read_cons, if_neg (by omega)]
    · rw [Memory.read_cons, Memory.read_cons, ih h.2]

theorem Memory.wfFrom_mono {lo hi : Nat} {m : Memory} (h : Memory.wfFrom hi m = true) (hl : lo ≤ hi) :
    Memory.wfFrom lo m = true := by
  cases m with
  | nil => rfl
  | cons c m =>
    simp only [Memory.wfFrom, Bool.and_eq_true, decide_eq_true_eq] at h ⊢
    exact ⟨⟨by omega, h.1.2⟩, h.2⟩

/-- A write keeps the form, above any bound that its offset meets. -/
theorem Memory.wfFrom_write {lo : Nat} {m : Memory} (h : Memory.wfFrom lo m = true) {k : Nat} (hk : lo ≤ k)
    (x : Byte) : Memory.wfFrom lo (Memory.write k x m) = true := by
  induction m generalizing lo with
  | nil => by_cases hx : x = 0#8 <;> simp [Memory.write, Memory.wfFrom, hx, hk]
  | cons c m ih =>
    obtain ⟨a, y⟩ := c
    simp only [Memory.wfFrom, Bool.and_eq_true, decide_eq_true_eq] at h
    unfold Memory.write
    split_ifs with h1 h2 h3 h4
    · simp only [Memory.wfFrom, Bool.and_eq_true, decide_eq_true_eq]; exact h
    · simp only [Memory.wfFrom, Bool.and_eq_true, decide_eq_true_eq]
      exact ⟨⟨hk, h2⟩, ⟨by omega, h.1.2⟩, h.2⟩
    · exact Memory.wfFrom_mono h.2 (by omega)
    · simp only [Memory.wfFrom, Bool.and_eq_true, decide_eq_true_eq]
      exact ⟨⟨hk, h4⟩, Memory.wfFrom_mono h.2 (by omega)⟩
    · simp only [Memory.wfFrom, Bool.and_eq_true, decide_eq_true_eq]
      exact ⟨h.1, ih h.2 (by omega)⟩

/-- Every memory operation that changes memory keeps its canonical form. -/
theorem Memory.wf_write {m : Memory} (h : Memory.wf m = true) (k : Nat) (x : Byte) :
    Memory.wf (Memory.write k x m) = true := Memory.wfFrom_write h (Nat.zero_le k) x

@[simp] theorem Memory.wf_nil : Memory.wf [] = true := rfl

@[simp] theorem Memory.below_nil (len : Nat) : Memory.below len [] = true := rfl

theorem Memory.below_write {len : Nat} {m : Memory} (h : Memory.below len m = true) {k : Nat} (hk : k < len)
    (x : Byte) : Memory.below len (Memory.write k x m) = true := by
  induction m with
  | nil => by_cases hx : x = 0#8 <;> simp [Memory.write, Memory.below, hx, hk]
  | cons c m ih =>
    obtain ⟨a, y⟩ := c
    have hcons : ∀ (b : Nat) (z : Byte) (n : Memory),
        Memory.below len ((b, z) :: n) = (decide (b < len) && Memory.below len n) := fun _ _ _ => rfl
    rw [hcons, Bool.and_eq_true, decide_eq_true_eq] at h
    unfold Memory.write
    split_ifs <;> simp [hcons, h.1, h.2, hk, ih h.2]

/-- Memories in canonical form that read the same everywhere are equal data. -/
theorem Memory.ext_of_read {lo : Nat} {m n : Memory} (hm : Memory.wfFrom lo m = true)
    (hn : Memory.wfFrom lo n = true) (h : ∀ k, Memory.read m k = Memory.read n k) : m = n := by
  induction m generalizing lo n with
  | nil =>
    cases n with
    | nil => rfl
    | cons c n =>
      obtain ⟨a, x⟩ := c
      simp only [Memory.wfFrom, Bool.and_eq_true, decide_eq_true_eq] at hn
      exact absurd (by simpa [Memory.read_cons] using h a) (Ne.symm hn.1.2)
  | cons c m ih =>
    obtain ⟨a, x⟩ := c
    simp only [Memory.wfFrom, Bool.and_eq_true, decide_eq_true_eq] at hm
    cases n with
    | nil => exact absurd (by simpa [Memory.read_cons] using h a) hm.1.2
    | cons d n =>
      obtain ⟨b, y⟩ := d
      simp only [Memory.wfFrom, Bool.and_eq_true, decide_eq_true_eq] at hn
      have hab : a = b := by
        rcases Nat.lt_trichotomy a b with hlt | heq | hlt
        · have := h a
          rw [Memory.read_cons, if_pos rfl, Memory.read_cons, if_neg (by omega),
            Memory.read_of_lt hn.2 (by omega)] at this
          exact absurd this hm.1.2
        · exact heq
        · have := h b
          rw [Memory.read_cons, if_neg (by omega), Memory.read_of_lt hm.2 (by omega), Memory.read_cons,
            if_pos rfl] at this
          exact absurd this.symm hn.1.2
      subst hab
      have hxy : x = y := by simpa [Memory.read_cons] using h a
      subst hxy
      have hmn : m = n := ih hm.2 hn.2 fun k => by
        rcases Nat.lt_or_ge k (a + 1) with hk | hk
        · rw [Memory.read_of_lt hm.2 hk, Memory.read_of_lt hn.2 hk]
        · have := h k
          rwa [Memory.read_cons, if_neg (by omega), Memory.read_cons, if_neg (by omega)] at this
      rw [hmn]

end Sys2Proof.Machine
end

