-- ==== Sys2Proof/Laws/State.lean ====
section
/-! SUPPORT. One lemma for each field of the state after each update: later proofs cite these and unfold no update. -/

namespace Sys2Proof.Machine

/-! ## `State.setLastErr` -/

@[simp] theorem State.setLastErr_cfg (e : Status) (s : State) : (s.setLastErr e).cfg = s.cfg := rfl
@[simp] theorem State.setLastErr_reg (e : Status) (s : State) :
    (s.setLastErr e).reg = { s.reg with lastErr := e } := rfl
@[simp] theorem State.setLastErr_mem (e : Status) (s : State) : (s.setLastErr e).mem = s.mem := rfl
@[simp] theorem State.setLastErr_desc (e : Status) (s : State) : (s.setLastErr e).desc = s.desc := rfl
@[simp] theorem State.setLastErr_rs (e : Status) (s : State) : (s.setLastErr e).rs = s.rs := rfl
@[simp] theorem State.setLastErr_dma (e : Status) (s : State) : (s.setLastErr e).dma = s.dma := rfl
@[simp] theorem State.setLastErr_hosts (e : Status) (s : State) : (s.setLastErr e).hosts = s.hosts := rfl
@[simp] theorem State.setLastErr_stream (e : Status) (s : State) : (s.setLastErr e).stream = s.stream := rfl
@[simp] theorem State.setLastErr_calls (e : Status) (s : State) : (s.setLastErr e).calls = s.calls := rfl
@[simp] theorem State.setLastErr_issuer (e : Status) (s : State) : (s.setLastErr e).issuer = s.issuer := rfl
@[simp] theorem State.setLastErr_sched (e : Status) (s : State) : (s.setLastErr e).sched = s.sched := rfl
@[simp] theorem State.setLastErr_turn (e : Status) (s : State) : (s.setLastErr e).turn = s.turn := rfl
@[simp] theorem State.setLastErr_orders (e : Status) (s : State) : (s.setLastErr e).orders = s.orders := rfl
@[simp] theorem State.setLastErr_draw (e : Status) (s : State) : (s.setLastErr e).draw = s.draw := rfl

/-! ## `State.markFault` -/

@[simp] theorem State.markFault_cfg (e : Status) (s : State) : (s.markFault e).cfg = s.cfg := rfl
@[simp] theorem State.markFault_reg (e : Status) (s : State) :
    (s.markFault e).reg = { s.reg with fault := s.reg.fault || e.setsFault } := rfl
@[simp] theorem State.markFault_mem (e : Status) (s : State) : (s.markFault e).mem = s.mem := rfl
@[simp] theorem State.markFault_desc (e : Status) (s : State) : (s.markFault e).desc = s.desc := rfl
@[simp] theorem State.markFault_rs (e : Status) (s : State) : (s.markFault e).rs = s.rs := rfl
@[simp] theorem State.markFault_dma (e : Status) (s : State) : (s.markFault e).dma = s.dma := rfl
@[simp] theorem State.markFault_hosts (e : Status) (s : State) : (s.markFault e).hosts = s.hosts := rfl
@[simp] theorem State.markFault_stream (e : Status) (s : State) : (s.markFault e).stream = s.stream := rfl
@[simp] theorem State.markFault_calls (e : Status) (s : State) : (s.markFault e).calls = s.calls := rfl
@[simp] theorem State.markFault_issuer (e : Status) (s : State) : (s.markFault e).issuer = s.issuer := rfl
@[simp] theorem State.markFault_sched (e : Status) (s : State) : (s.markFault e).sched = s.sched := rfl
@[simp] theorem State.markFault_turn (e : Status) (s : State) : (s.markFault e).turn = s.turn := rfl
@[simp] theorem State.markFault_orders (e : Status) (s : State) : (s.markFault e).orders = s.orders := rfl
@[simp] theorem State.markFault_draw (e : Status) (s : State) : (s.markFault e).draw = s.draw := rfl

/-! ## `State.respondTo` -/

@[simp] theorem State.respondTo_cfg (h : Nat) (r : Response) (s : State) : (s.respondTo h r).cfg = s.cfg := rfl
@[simp] theorem State.respondTo_reg (h : Nat) (r : Response) (s : State) : (s.respondTo h r).reg = s.reg := rfl
@[simp] theorem State.respondTo_mem (h : Nat) (r : Response) (s : State) : (s.respondTo h r).mem = s.mem := rfl
@[simp] theorem State.respondTo_desc (h : Nat) (r : Response) (s : State) : (s.respondTo h r).desc = s.desc := rfl
@[simp] theorem State.respondTo_rs (h : Nat) (r : Response) (s : State) : (s.respondTo h r).rs = s.rs := rfl
@[simp] theorem State.respondTo_dma (h : Nat) (r : Response) (s : State) : (s.respondTo h r).dma = s.dma := rfl
@[simp] theorem State.respondTo_hosts (h : Nat) (r : Response) (s : State) :
    (s.respondTo h r).hosts = s.hosts.modify h fun a => { a with port := .free, received := a.received ++ [r] } := rfl
@[simp] theorem State.respondTo_stream (h : Nat) (r : Response) (s : State) :
    (s.respondTo h r).stream = s.stream := rfl
@[simp] theorem State.respondTo_calls (h : Nat) (r : Response) (s : State) : (s.respondTo h r).calls = s.calls := rfl
@[simp] theorem State.respondTo_issuer (h : Nat) (r : Response) (s : State) :
    (s.respondTo h r).issuer = s.issuer := rfl
@[simp] theorem State.respondTo_sched (h : Nat) (r : Response) (s : State) : (s.respondTo h r).sched = s.sched := rfl
@[simp] theorem State.respondTo_turn (h : Nat) (r : Response) (s : State) : (s.respondTo h r).turn = s.turn := rfl
@[simp] theorem State.respondTo_orders (h : Nat) (r : Response) (s : State) :
    (s.respondTo h r).orders = s.orders := rfl
@[simp] theorem State.respondTo_draw (h : Nat) (r : Response) (s : State) : (s.respondTo h r).draw = s.draw := rfl

/-! ## `State.respond` -/

@[simp] theorem State.respond_cfg (st : Status) (d : Word) (s : State) : (s.respond st d).cfg = s.cfg := rfl
@[simp] theorem State.respond_reg (st : Status) (d : Word) (s : State) : (s.respond st d).reg = s.reg := rfl
@[simp] theorem State.respond_mem (st : Status) (d : Word) (s : State) : (s.respond st d).mem = s.mem := rfl
@[simp] theorem State.respond_desc (st : Status) (d : Word) (s : State) : (s.respond st d).desc = s.desc := rfl
@[simp] theorem State.respond_rs (st : Status) (d : Word) (s : State) : (s.respond st d).rs = s.rs := rfl
@[simp] theorem State.respond_dma (st : Status) (d : Word) (s : State) : (s.respond st d).dma = s.dma := rfl
@[simp] theorem State.respond_hosts (st : Status) (d : Word) (s : State) :
    (s.respond st d).hosts = s.hosts.modify s.issuer fun a =>
      { a with port := .free, received := a.received ++ [{ status := st, data := d }] } := rfl
@[simp] theorem State.respond_stream (st : Status) (d : Word) (s : State) : (s.respond st d).stream = s.stream := rfl
@[simp] theorem State.respond_calls (st : Status) (d : Word) (s : State) : (s.respond st d).calls = s.calls := rfl
@[simp] theorem State.respond_issuer (st : Status) (d : Word) (s : State) : (s.respond st d).issuer = s.issuer := rfl
@[simp] theorem State.respond_sched (st : Status) (d : Word) (s : State) : (s.respond st d).sched = s.sched := rfl
@[simp] theorem State.respond_turn (st : Status) (d : Word) (s : State) : (s.respond st d).turn = s.turn := rfl
@[simp] theorem State.respond_orders (st : Status) (d : Word) (s : State) : (s.respond st d).orders = s.orders := rfl
@[simp] theorem State.respond_draw (st : Status) (d : Word) (s : State) : (s.respond st d).draw = s.draw := rfl

/-! ## `State.illegalWord` -/

@[simp] theorem State.illegalWord_cfg (s : State) : (s.illegalWord).cfg = s.cfg := rfl
@[simp] theorem State.illegalWord_reg (s : State) :
    (s.illegalWord).reg = { s.reg with fault := s.reg.fault || Status.illegalCommand.setsFault } := rfl
@[simp] theorem State.illegalWord_mem (s : State) : (s.illegalWord).mem = s.mem := rfl
@[simp] theorem State.illegalWord_desc (s : State) : (s.illegalWord).desc = s.desc := rfl
@[simp] theorem State.illegalWord_rs (s : State) : (s.illegalWord).rs = s.rs := rfl
@[simp] theorem State.illegalWord_dma (s : State) : (s.illegalWord).dma = s.dma := rfl
@[simp] theorem State.illegalWord_hosts (s : State) :
    (s.illegalWord).hosts = s.hosts.modify s.issuer fun a =>
      { a with port := .free, received := a.received ++ [{ status := .illegalCommand, data := 0 }] } := rfl
@[simp] theorem State.illegalWord_stream (s : State) : (s.illegalWord).stream = s.stream := rfl
@[simp] theorem State.illegalWord_calls (s : State) : (s.illegalWord).calls = s.calls := rfl
@[simp] theorem State.illegalWord_issuer (s : State) : (s.illegalWord).issuer = s.issuer := rfl
@[simp] theorem State.illegalWord_sched (s : State) : (s.illegalWord).sched = s.sched := rfl
@[simp] theorem State.illegalWord_turn (s : State) : (s.illegalWord).turn = s.turn := rfl
@[simp] theorem State.illegalWord_orders (s : State) : (s.illegalWord).orders = s.orders := rfl
@[simp] theorem State.illegalWord_draw (s : State) : (s.illegalWord).draw = s.draw := rfl

/-! ## `State.periphConfig` -/

@[simp] theorem State.periphConfig_cfg (s : State) : (s.periphConfig).cfg = s.cfg := rfl
@[simp] theorem State.periphConfig_reg (s : State) : (s.periphConfig).reg = s.reg := rfl
@[simp] theorem State.periphConfig_mem (s : State) : (s.periphConfig).mem = s.mem := rfl
@[simp] theorem State.periphConfig_desc (s : State) : (s.periphConfig).desc = s.desc := rfl
@[simp] theorem State.periphConfig_rs (s : State) : (s.periphConfig).rs = s.rs := rfl
@[simp] theorem State.periphConfig_dma (s : State) : (s.periphConfig).dma = s.dma := rfl
@[simp] theorem State.periphConfig_hosts (s : State) : (s.periphConfig).hosts = s.hosts := rfl
@[simp] theorem State.periphConfig_stream (s : State) : (s.periphConfig).stream = s.stream := rfl
@[simp] theorem State.periphConfig_calls (s : State) :
    (s.periphConfig).calls = s.calls ++ [.periphConfig s.cfg.clkmDiv s.cfg.bckDiv] := rfl
@[simp] theorem State.periphConfig_issuer (s : State) : (s.periphConfig).issuer = s.issuer := rfl
@[simp] theorem State.periphConfig_sched (s : State) : (s.periphConfig).sched = s.sched := rfl
@[simp] theorem State.periphConfig_turn (s : State) : (s.periphConfig).turn = s.turn := rfl
@[simp] theorem State.periphConfig_orders (s : State) : (s.periphConfig).orders = s.orders := rfl
@[simp] theorem State.periphConfig_draw (s : State) : (s.periphConfig).draw = s.draw := rfl

/-! ## `State.dmaConfigure` -/

@[simp] theorem State.dmaConfigure_cfg (d : Nat) (s : State) : (s.dmaConfigure d).cfg = s.cfg := rfl
@[simp] theorem State.dmaConfigure_reg (d : Nat) (s : State) : (s.dmaConfigure d).reg = s.reg := rfl
@[simp] theorem State.dmaConfigure_mem (d : Nat) (s : State) : (s.dmaConfigure d).mem = s.mem := rfl
@[simp] theorem State.dmaConfigure_desc (d : Nat) (s : State) : (s.dmaConfigure d).desc = s.desc := rfl
@[simp] theorem State.dmaConfigure_rs (d : Nat) (s : State) : (s.dmaConfigure d).rs = s.rs := rfl
@[simp] theorem State.dmaConfigure_dma (d : Nat) (s : State) :
    (s.dmaConfigure d).dma = { s.dma with configured := true, cur := d, off := 0 } := rfl
@[simp] theorem State.dmaConfigure_hosts (d : Nat) (s : State) : (s.dmaConfigure d).hosts = s.hosts := rfl
@[simp] theorem State.dmaConfigure_stream (d : Nat) (s : State) : (s.dmaConfigure d).stream = s.stream := rfl
@[simp] theorem State.dmaConfigure_calls (d : Nat) (s : State) :
    (s.dmaConfigure d).calls = s.calls ++ [.dmaConfigure d] := rfl
@[simp] theorem State.dmaConfigure_issuer (d : Nat) (s : State) : (s.dmaConfigure d).issuer = s.issuer := rfl
@[simp] theorem State.dmaConfigure_sched (d : Nat) (s : State) : (s.dmaConfigure d).sched = s.sched := rfl
@[simp] theorem State.dmaConfigure_turn (d : Nat) (s : State) : (s.dmaConfigure d).turn = s.turn := rfl
@[simp] theorem State.dmaConfigure_orders (d : Nat) (s : State) : (s.dmaConfigure d).orders = s.orders := rfl
@[simp] theorem State.dmaConfigure_draw (d : Nat) (s : State) : (s.dmaConfigure d).draw = s.draw := rfl

/-! ## `State.dmaStart` -/

@[simp] theorem State.dmaStart_cfg (s : State) : (s.dmaStart).cfg = s.cfg := rfl
@[simp] theorem State.dmaStart_reg (s : State) : (s.dmaStart).reg = s.reg := rfl
@[simp] theorem State.dmaStart_mem (s : State) : (s.dmaStart).mem = s.mem := rfl
@[simp] theorem State.dmaStart_desc (s : State) : (s.dmaStart).desc = s.desc := rfl
@[simp] theorem State.dmaStart_rs (s : State) : (s.dmaStart).rs = s.rs := rfl
@[simp] theorem State.dmaStart_dma (s : State) : (s.dmaStart).dma = { s.dma with running := true } := rfl
@[simp] theorem State.dmaStart_hosts (s : State) : (s.dmaStart).hosts = s.hosts := rfl
@[simp] theorem State.dmaStart_stream (s : State) : (s.dmaStart).stream = s.stream := rfl
@[simp] theorem State.dmaStart_calls (s : State) : (s.dmaStart).calls = s.calls ++ [.dmaStart] := rfl
@[simp] theorem State.dmaStart_issuer (s : State) : (s.dmaStart).issuer = s.issuer := rfl
@[simp] theorem State.dmaStart_sched (s : State) : (s.dmaStart).sched = s.sched := rfl
@[simp] theorem State.dmaStart_turn (s : State) : (s.dmaStart).turn = s.turn := rfl
@[simp] theorem State.dmaStart_orders (s : State) : (s.dmaStart).orders = s.orders := rfl
@[simp] theorem State.dmaStart_draw (s : State) : (s.dmaStart).draw = s.draw := rfl

/-! ## `State.dmaStop` -/

@[simp] theorem State.dmaStop_cfg (s : State) : (s.dmaStop).cfg = s.cfg := rfl
@[simp] theorem State.dmaStop_reg (s : State) : (s.dmaStop).reg = s.reg := rfl
@[simp] theorem State.dmaStop_mem (s : State) : (s.dmaStop).mem = s.mem := rfl
@[simp] theorem State.dmaStop_desc (s : State) : (s.dmaStop).desc = s.desc := rfl
@[simp] theorem State.dmaStop_rs (s : State) : (s.dmaStop).rs = s.rs := rfl
@[simp] theorem State.dmaStop_dma (s : State) : (s.dmaStop).dma = { s.dma with running := false } := rfl
@[simp] theorem State.dmaStop_hosts (s : State) : (s.dmaStop).hosts = s.hosts := rfl
@[simp] theorem State.dmaStop_stream (s : State) : (s.dmaStop).stream = s.stream := rfl
@[simp] theorem State.dmaStop_calls (s : State) : (s.dmaStop).calls = s.calls ++ [.dmaStop] := rfl
@[simp] theorem State.dmaStop_issuer (s : State) : (s.dmaStop).issuer = s.issuer := rfl
@[simp] theorem State.dmaStop_sched (s : State) : (s.dmaStop).sched = s.sched := rfl
@[simp] theorem State.dmaStop_turn (s : State) : (s.dmaStop).turn = s.turn := rfl
@[simp] theorem State.dmaStop_orders (s : State) : (s.dmaStop).orders = s.orders := rfl
@[simp] theorem State.dmaStop_draw (s : State) : (s.dmaStop).draw = s.draw := rfl

/-! ## `State.afterDraws` -/

@[simp] theorem State.afterDraws_cfg (n : Nat) (s : State) : (s.afterDraws n).cfg = s.cfg := rfl
@[simp] theorem State.afterDraws_reg (n : Nat) (s : State) : (s.afterDraws n).reg = s.reg := rfl
@[simp] theorem State.afterDraws_mem (n : Nat) (s : State) : (s.afterDraws n).mem = s.mem := rfl
@[simp] theorem State.afterDraws_desc (n : Nat) (s : State) : (s.afterDraws n).desc = s.desc := rfl
@[simp] theorem State.afterDraws_rs (n : Nat) (s : State) : (s.afterDraws n).rs = s.rs := rfl
@[simp] theorem State.afterDraws_dma (n : Nat) (s : State) : (s.afterDraws n).dma = s.dma := rfl
@[simp] theorem State.afterDraws_hosts (n : Nat) (s : State) : (s.afterDraws n).hosts = s.hosts := rfl
@[simp] theorem State.afterDraws_stream (n : Nat) (s : State) : (s.afterDraws n).stream = s.stream := rfl
@[simp] theorem State.afterDraws_calls (n : Nat) (s : State) : (s.afterDraws n).calls = s.calls := rfl
@[simp] theorem State.afterDraws_issuer (n : Nat) (s : State) : (s.afterDraws n).issuer = s.issuer := rfl
@[simp] theorem State.afterDraws_sched (n : Nat) (s : State) : (s.afterDraws n).sched = s.sched := rfl
@[simp] theorem State.afterDraws_turn (n : Nat) (s : State) : (s.afterDraws n).turn = s.turn := rfl
@[simp] theorem State.afterDraws_orders (n : Nat) (s : State) : (s.afterDraws n).orders = s.orders.drop n := rfl
@[simp] theorem State.afterDraws_draw (n : Nat) (s : State) :
    (s.afterDraws n).draw = s.draw + (n - s.orders.length) := rfl

/-! ## `State.allocate` -/

@[simp] theorem State.allocate_cfg (c : BitVec 16) (s : State) : (s.allocate c).cfg = s.cfg := rfl
@[simp] theorem State.allocate_reg (c : BitVec 16) (s : State) :
    (s.allocate c).reg = { s.reg with numLeds := c } := rfl
@[simp] theorem State.allocate_mem (c : BitVec 16) (s : State) : (s.allocate c).mem = freshBuffers s.cfg := rfl
@[simp] theorem State.allocate_desc (c : BitVec 16) (s : State) :
    (s.allocate c).desc = buildRing s.cfg (12 * c.toNat) := rfl
@[simp] theorem State.allocate_rs (c : BitVec 16) (s : State) : (s.allocate c).rs = s.rs := rfl
@[simp] theorem State.allocate_dma (c : BitVec 16) (s : State) : (s.allocate c).dma = s.dma := rfl
@[simp] theorem State.allocate_hosts (c : BitVec 16) (s : State) : (s.allocate c).hosts = s.hosts := rfl
@[simp] theorem State.allocate_stream (c : BitVec 16) (s : State) : (s.allocate c).stream = s.stream := rfl
@[simp] theorem State.allocate_calls (c : BitVec 16) (s : State) : (s.allocate c).calls = s.calls := rfl
@[simp] theorem State.allocate_issuer (c : BitVec 16) (s : State) : (s.allocate c).issuer = s.issuer := rfl
@[simp] theorem State.allocate_sched (c : BitVec 16) (s : State) : (s.allocate c).sched = s.sched := rfl
@[simp] theorem State.allocate_turn (c : BitVec 16) (s : State) : (s.allocate c).turn = s.turn := rfl
@[simp] theorem State.allocate_orders (c : BitVec 16) (s : State) : (s.allocate c).orders = s.orders := rfl
@[simp] theorem State.allocate_draw (c : BitVec 16) (s : State) : (s.allocate c).draw = s.draw := rfl

/-! ## `State.enterReady` -/

@[simp] theorem State.enterReady_cfg (s : State) : (s.enterReady).cfg = s.cfg := rfl
@[simp] theorem State.enterReady_reg (s : State) :
    (s.enterReady).reg = { s.reg with head := BitVec.ofNat 4 ringHead, dmaRun := true, state := .ready, lastErr := .ok } := rfl
@[simp] theorem State.enterReady_mem (s : State) : (s.enterReady).mem = s.mem := rfl
@[simp] theorem State.enterReady_desc (s : State) : (s.enterReady).desc = s.desc := rfl
@[simp] theorem State.enterReady_rs (s : State) : (s.enterReady).rs = s.rs := rfl
@[simp] theorem State.enterReady_dma (s : State) : (s.enterReady).dma = s.dma := rfl
@[simp] theorem State.enterReady_hosts (s : State) : (s.enterReady).hosts = s.hosts := rfl
@[simp] theorem State.enterReady_stream (s : State) : (s.enterReady).stream = s.stream := rfl
@[simp] theorem State.enterReady_calls (s : State) : (s.enterReady).calls = s.calls := rfl
@[simp] theorem State.enterReady_issuer (s : State) : (s.enterReady).issuer = s.issuer := rfl
@[simp] theorem State.enterReady_sched (s : State) : (s.enterReady).sched = s.sched := rfl
@[simp] theorem State.enterReady_turn (s : State) : (s.enterReady).turn = s.turn := rfl
@[simp] theorem State.enterReady_orders (s : State) : (s.enterReady).orders = s.orders := rfl
@[simp] theorem State.enterReady_draw (s : State) : (s.enterReady).draw = s.draw := rfl

/-! ## `State.initialise` -/

@[simp] theorem State.initialise_cfg (c : BitVec 16) (s : State) : (s.initialise c).cfg = s.cfg := rfl
@[simp] theorem State.initialise_reg (c : BitVec 16) (s : State) :
    (s.initialise c).reg = { s.reg with
      numLeds := c, head := BitVec.ofNat 4 ringHead, dmaRun := true, state := .ready, lastErr := .ok } := rfl
@[simp] theorem State.initialise_mem (c : BitVec 16) (s : State) : (s.initialise c).mem = freshBuffers s.cfg := rfl
@[simp] theorem State.initialise_desc (c : BitVec 16) (s : State) :
    (s.initialise c).desc = buildRing s.cfg (12 * c.toNat) := rfl
@[simp] theorem State.initialise_rs (c : BitVec 16) (s : State) : (s.initialise c).rs = s.rs := rfl
@[simp] theorem State.initialise_dma (c : BitVec 16) (s : State) :
    (s.initialise c).dma = { configured := true, running := true, cur := ringHead, off := 0 } := rfl
@[simp] theorem State.initialise_hosts (c : BitVec 16) (s : State) :
    (s.initialise c).hosts = s.hosts.modify s.issuer fun a =>
      { a with port := .free, received := a.received ++ [{ status := .ok, data := 0 }] } := rfl
@[simp] theorem State.initialise_stream (c : BitVec 16) (s : State) : (s.initialise c).stream = s.stream := rfl
@[simp] theorem State.initialise_calls (c : BitVec 16) (s : State) :
    (s.initialise c).calls = ((s.calls ++ [.periphConfig s.cfg.clkmDiv s.cfg.bckDiv]) ++ [.dmaConfigure ringHead]) ++ [.dmaStart] := rfl
@[simp] theorem State.initialise_issuer (c : BitVec 16) (s : State) : (s.initialise c).issuer = s.issuer := rfl
@[simp] theorem State.initialise_sched (c : BitVec 16) (s : State) : (s.initialise c).sched = s.sched := rfl
@[simp] theorem State.initialise_turn (c : BitVec 16) (s : State) : (s.initialise c).turn = s.turn := rfl
@[simp] theorem State.initialise_orders (c : BitVec 16) (s : State) : (s.initialise c).orders = s.orders := rfl
@[simp] theorem State.initialise_draw (c : BitVec 16) (s : State) : (s.initialise c).draw = s.draw := rfl

/-! ## `State.startRender` -/

@[simp] theorem State.startRender_cfg (P : List Byte) (s : State) : (s.startRender P).cfg = s.cfg := rfl
@[simp] theorem State.startRender_reg (P : List Byte) (s : State) :
    (s.startRender P).reg = { s.reg with busy := true } := rfl
@[simp] theorem State.startRender_mem (P : List Byte) (s : State) : (s.startRender P).mem = s.mem := rfl
@[simp] theorem State.startRender_desc (P : List Byte) (s : State) : (s.startRender P).desc = s.desc := rfl
@[simp] theorem State.startRender_rs (P : List Byte) (s : State) :
    (s.startRender P).rs = .rendering s.issuer
      (renderList s.cfg P (s.drawn (streamSymbols s.cfg 0 P).length)) := rfl
@[simp] theorem State.startRender_dma (P : List Byte) (s : State) : (s.startRender P).dma = s.dma := rfl
@[simp] theorem State.startRender_hosts (P : List Byte) (s : State) : (s.startRender P).hosts = s.hosts := rfl
@[simp] theorem State.startRender_stream (P : List Byte) (s : State) : (s.startRender P).stream = s.stream := rfl
@[simp] theorem State.startRender_calls (P : List Byte) (s : State) : (s.startRender P).calls = s.calls := rfl
@[simp] theorem State.startRender_issuer (P : List Byte) (s : State) : (s.startRender P).issuer = s.issuer := rfl
@[simp] theorem State.startRender_sched (P : List Byte) (s : State) : (s.startRender P).sched = s.sched := rfl
@[simp] theorem State.startRender_turn (P : List Byte) (s : State) : (s.startRender P).turn = s.turn := rfl
@[simp] theorem State.startRender_orders (P : List Byte) (s : State) :
    (s.startRender P).orders = s.orders.drop (streamSymbols s.cfg 0 P).length := rfl
@[simp] theorem State.startRender_draw (P : List Byte) (s : State) :
    (s.startRender P).draw = s.draw + ((streamSymbols s.cfg 0 P).length - s.orders.length) := rfl

/-! ## `State.release` -/

@[simp] theorem State.release_cfg (s : State) : (s.release).cfg = s.cfg := rfl
@[simp] theorem State.release_reg (s : State) :
    (s.release).reg = { s.reg with dmaRun := false, state := .stopped, lastErr := .ok } := rfl
@[simp] theorem State.release_mem (s : State) :
    (s.release).mem = { allocated := false, phase := [], gap := [] } := rfl
@[simp] theorem State.release_desc (s : State) : (s.release).desc = [] := rfl
@[simp] theorem State.release_rs (s : State) : (s.release).rs = s.rs := rfl
@[simp] theorem State.release_dma (s : State) : (s.release).dma = s.dma := rfl
@[simp] theorem State.release_hosts (s : State) : (s.release).hosts = s.hosts := rfl
@[simp] theorem State.release_stream (s : State) : (s.release).stream = s.stream := rfl
@[simp] theorem State.release_calls (s : State) : (s.release).calls = s.calls := rfl
@[simp] theorem State.release_issuer (s : State) : (s.release).issuer = s.issuer := rfl
@[simp] theorem State.release_sched (s : State) : (s.release).sched = s.sched := rfl
@[simp] theorem State.release_turn (s : State) : (s.release).turn = s.turn := rfl
@[simp] theorem State.release_orders (s : State) : (s.release).orders = s.orders := rfl
@[simp] theorem State.release_draw (s : State) : (s.release).draw = s.draw := rfl

/-! ## `State.completeShow` -/

@[simp] theorem State.completeShow_cfg (h : Nat) (s : State) : (s.completeShow h).cfg = s.cfg := rfl
@[simp] theorem State.completeShow_reg (h : Nat) (s : State) :
    (s.completeShow h).reg = { s.reg with busy := false, lastErr := .ok } := rfl
@[simp] theorem State.completeShow_mem (h : Nat) (s : State) : (s.completeShow h).mem = s.mem := rfl
@[simp] theorem State.completeShow_desc (h : Nat) (s : State) : (s.completeShow h).desc = s.desc := rfl
@[simp] theorem State.completeShow_rs (h : Nat) (s : State) : (s.completeShow h).rs = .idle := rfl
@[simp] theorem State.completeShow_dma (h : Nat) (s : State) : (s.completeShow h).dma = s.dma := rfl
@[simp] theorem State.completeShow_hosts (h : Nat) (s : State) :
    (s.completeShow h).hosts = s.hosts.modify h fun a =>
      { a with port := .free, received := a.received ++ [{ status := .ok, data := 0 }] } := rfl
@[simp] theorem State.completeShow_stream (h : Nat) (s : State) : (s.completeShow h).stream = s.stream := rfl
@[simp] theorem State.completeShow_calls (h : Nat) (s : State) : (s.completeShow h).calls = s.calls := rfl
@[simp] theorem State.completeShow_issuer (h : Nat) (s : State) : (s.completeShow h).issuer = s.issuer := rfl
@[simp] theorem State.completeShow_sched (h : Nat) (s : State) : (s.completeShow h).sched = s.sched := rfl
@[simp] theorem State.completeShow_turn (h : Nat) (s : State) : (s.completeShow h).turn = s.turn := rfl
@[simp] theorem State.completeShow_orders (h : Nat) (s : State) : (s.completeShow h).orders = s.orders := rfl
@[simp] theorem State.completeShow_draw (h : Nat) (s : State) : (s.completeShow h).draw = s.draw := rfl

/-! ## `State.raise` -/

@[simp] theorem State.raise_cfg (i : Instr) (e : Status) (s : State) : (s.raise i e).cfg = s.cfg := by
  unfold State.raise; split <;> rfl
@[simp] theorem State.raise_mem (i : Instr) (e : Status) (s : State) : (s.raise i e).mem = s.mem := by
  unfold State.raise; split <;> rfl
@[simp] theorem State.raise_desc (i : Instr) (e : Status) (s : State) : (s.raise i e).desc = s.desc := by
  unfold State.raise; split <;> rfl
@[simp] theorem State.raise_rs (i : Instr) (e : Status) (s : State) : (s.raise i e).rs = s.rs := by
  unfold State.raise; split <;> rfl
@[simp] theorem State.raise_dma (i : Instr) (e : Status) (s : State) : (s.raise i e).dma = s.dma := by
  unfold State.raise; split <;> rfl
@[simp] theorem State.raise_stream (i : Instr) (e : Status) (s : State) : (s.raise i e).stream = s.stream := by
  unfold State.raise; split <;> rfl
@[simp] theorem State.raise_calls (i : Instr) (e : Status) (s : State) : (s.raise i e).calls = s.calls := by
  unfold State.raise; split <;> rfl
@[simp] theorem State.raise_issuer (i : Instr) (e : Status) (s : State) : (s.raise i e).issuer = s.issuer := by
  unfold State.raise; split <;> rfl
@[simp] theorem State.raise_sched (i : Instr) (e : Status) (s : State) : (s.raise i e).sched = s.sched := by
  unfold State.raise; split <;> rfl
@[simp] theorem State.raise_turn (i : Instr) (e : Status) (s : State) : (s.raise i e).turn = s.turn := by
  unfold State.raise; split <;> rfl
@[simp] theorem State.raise_orders (i : Instr) (e : Status) (s : State) : (s.raise i e).orders = s.orders := by
  unfold State.raise; split <;> rfl
@[simp] theorem State.raise_draw (i : Instr) (e : Status) (s : State) : (s.raise i e).draw = s.draw := by
  unfold State.raise; split <;> rfl
@[simp] theorem State.raise_hosts (i : Instr) (e : Status) (s : State) :
    (s.raise i e).hosts = s.hosts.modify s.issuer fun a =>
      { a with port := .free, received := a.received ++ [{ status := e, data := 0 }] } := by
  unfold State.raise; split <;> rfl

/-- What raising an error does to the registers (R213): `LAST_ERR` and `FAULT`, nothing else. -/
theorem State.raise_reg (i : Instr) (e : Status) (s : State) :
    (s.raise i e).reg = { s.reg with
      lastErr := if isLifecycle i then e else s.reg.lastErr
      fault := s.reg.fault || e.setsFault } := by
  unfold State.raise; split <;> simp_all

@[simp] theorem State.raise_reg_state (i : Instr) (e : Status) (s : State) :
    (s.raise i e).reg.state = s.reg.state := by simp [State.raise_reg]
@[simp] theorem State.raise_reg_busy (i : Instr) (e : Status) (s : State) :
    (s.raise i e).reg.busy = s.reg.busy := by simp [State.raise_reg]
@[simp] theorem State.raise_reg_numLeds (i : Instr) (e : Status) (s : State) :
    (s.raise i e).reg.numLeds = s.reg.numLeds := by simp [State.raise_reg]
@[simp] theorem State.raise_reg_head (i : Instr) (e : Status) (s : State) :
    (s.raise i e).reg.head = s.reg.head := by simp [State.raise_reg]
@[simp] theorem State.raise_reg_dmaRun (i : Instr) (e : Status) (s : State) :
    (s.raise i e).reg.dmaRun = s.reg.dmaRun := by simp [State.raise_reg]
@[simp] theorem State.raise_reg_fault (i : Instr) (e : Status) (s : State) :
    (s.raise i e).reg.fault = (s.reg.fault || e.setsFault) := by simp [State.raise_reg]

/-! ## The reset state -/

@[simp] theorem State.resetWith_cfg (p : Params) : (State.resetWith p).cfg = p := rfl
@[simp] theorem State.resetWith_reg (p : Params) : (State.resetWith p).reg = Regs.reset := rfl
@[simp] theorem State.resetWith_mem (p : Params) :
    (State.resetWith p).mem = { allocated := false, phase := [], gap := [] } := rfl
@[simp] theorem State.resetWith_desc (p : Params) : (State.resetWith p).desc = [] := rfl
@[simp] theorem State.resetWith_rs (p : Params) : (State.resetWith p).rs = .idle := rfl
@[simp] theorem State.resetWith_dma (p : Params) :
    (State.resetWith p).dma = { configured := false, running := false, cur := 0, off := 0 } := rfl
@[simp] theorem State.resetWith_hosts (p : Params) :
    (State.resetWith p).hosts = List.replicate p.hosts { port := .free, inbox := [], received := [] } := rfl
@[simp] theorem State.resetWith_stream (p : Params) : (State.resetWith p).stream = [] := rfl
@[simp] theorem State.resetWith_calls (p : Params) : (State.resetWith p).calls = [] := rfl
@[simp] theorem State.resetWith_issuer (p : Params) : (State.resetWith p).issuer = 0 := rfl
@[simp] theorem State.resetWith_sched (p : Params) : (State.resetWith p).sched = [] := rfl
@[simp] theorem State.resetWith_turn (p : Params) : (State.resetWith p).turn = 0 := rfl
@[simp] theorem State.resetWith_orders (p : Params) : (State.resetWith p).orders = [] := rfl
@[simp] theorem State.resetWith_draw (p : Params) : (State.resetWith p).draw = 0 := rfl

/-! ## `State.withLayout` -/

@[simp] theorem State.withLayout_cfg (l : DescLayout) (s : State) :
    (s.withLayout l).cfg = { s.cfg with descLayout := l } := rfl
@[simp] theorem State.withLayout_reg (l : DescLayout) (s : State) : (s.withLayout l).reg = s.reg := rfl
@[simp] theorem State.withLayout_mem (l : DescLayout) (s : State) : (s.withLayout l).mem = s.mem := rfl
@[simp] theorem State.withLayout_desc (l : DescLayout) (s : State) : (s.withLayout l).desc = s.desc := rfl
@[simp] theorem State.withLayout_rs (l : DescLayout) (s : State) : (s.withLayout l).rs = s.rs := rfl
@[simp] theorem State.withLayout_dma (l : DescLayout) (s : State) : (s.withLayout l).dma = s.dma := rfl
@[simp] theorem State.withLayout_hosts (l : DescLayout) (s : State) : (s.withLayout l).hosts = s.hosts := rfl
@[simp] theorem State.withLayout_stream (l : DescLayout) (s : State) : (s.withLayout l).stream = s.stream := rfl
@[simp] theorem State.withLayout_calls (l : DescLayout) (s : State) : (s.withLayout l).calls = s.calls := rfl
@[simp] theorem State.withLayout_issuer (l : DescLayout) (s : State) : (s.withLayout l).issuer = s.issuer := rfl
@[simp] theorem State.withLayout_sched (l : DescLayout) (s : State) : (s.withLayout l).sched = s.sched := rfl
@[simp] theorem State.withLayout_turn (l : DescLayout) (s : State) : (s.withLayout l).turn = s.turn := rfl
@[simp] theorem State.withLayout_orders (l : DescLayout) (s : State) : (s.withLayout l).orders = s.orders := rfl
@[simp] theorem State.withLayout_draw (l : DescLayout) (s : State) : (s.withLayout l).draw = s.draw := rfl

/-! ## `State.eraseFlags` -/

@[simp] theorem State.eraseFlags_desc (s : State) :
    s.eraseFlags.desc = s.desc.map fun d => { d with owner := false, eof := false } := rfl
@[simp] theorem State.eraseFlags_cfg (s : State) : s.eraseFlags.cfg = s.cfg := rfl
@[simp] theorem State.eraseFlags_reg (s : State) : s.eraseFlags.reg = s.reg := rfl
@[simp] theorem State.eraseFlags_mem (s : State) : s.eraseFlags.mem = s.mem := rfl
@[simp] theorem State.eraseFlags_rs (s : State) : s.eraseFlags.rs = s.rs := rfl
@[simp] theorem State.eraseFlags_dma (s : State) : s.eraseFlags.dma = s.dma := rfl
@[simp] theorem State.eraseFlags_hosts (s : State) : s.eraseFlags.hosts = s.hosts := rfl
@[simp] theorem State.eraseFlags_stream (s : State) : s.eraseFlags.stream = s.stream := rfl
@[simp] theorem State.eraseFlags_calls (s : State) : s.eraseFlags.calls = s.calls := rfl
@[simp] theorem State.eraseFlags_issuer (s : State) : s.eraseFlags.issuer = s.issuer := rfl
@[simp] theorem State.eraseFlags_sched (s : State) : s.eraseFlags.sched = s.sched := rfl
@[simp] theorem State.eraseFlags_turn (s : State) : s.eraseFlags.turn = s.turn := rfl
@[simp] theorem State.eraseFlags_orders (s : State) : s.eraseFlags.orders = s.orders := rfl
@[simp] theorem State.eraseFlags_draw (s : State) : s.eraseFlags.draw = s.draw := rfl

end Sys2Proof.Machine
end

