-- ==== Sys2Proof/Laws/Ops.lean ====
section
/-! SUPPORT. What the shared operations do: the buffer space, responses, draws. -/

namespace Sys2Proof.Machine

/-! ## The buffer space -/

/-- A read depends on the memory, the lifecycle state, the strip length and the parameters only. -/
theorem State.bufRead_congr {s t : State} (hm : t.mem = s.mem) (hs : t.reg.state = s.reg.state)
    (hn : t.reg.numLeds = s.reg.numLeds) (hc : t.cfg = s.cfg) (b : Buf) (off : Nat) :
    t.bufRead b off = s.bufRead b off := by
  have hl : t.bufLen b = s.bufLen b := by cases b <;> simp [State.bufLen, State.phaseBytes, hs, hn, hc]
  unfold State.bufRead
  rw [hm, hl]

theorem sameBytes_of_eq {s t : State} (hm : t.mem = s.mem) (hs : t.reg.state = s.reg.state)
    (hn : t.reg.numLeds = s.reg.numLeds) (hc : t.cfg = s.cfg) : SameBytes s t :=
  fun b off => State.bufRead_congr hm hs hn hc b off

/-- A read answers exactly at the locations that exist (R50). -/
theorem State.bufRead_eq_some {s : State} {b : Buf} {off : Nat} {x : Byte} :
    s.bufRead b off = some x ↔
      s.mem.allocated = true ∧ off < s.bufLen b ∧ ∃ m, s.mem.buffer b = some m ∧ Memory.read m off = x := by
  unfold State.bufRead
  split
  · next h => cases hb : s.mem.buffer b <;> simp [h]
  · next h =>
    simp only [reduceCtorEq, false_iff]
    exact fun ⟨h1, h2, _⟩ => h ⟨h1, h2⟩

/-- What a successful write does: one buffer's memory is written, and nothing else changes. -/
theorem State.bufWrite_eq_some {s t : State} {b : Buf} {off : Nat} {x : Byte} :
    s.bufWrite b off x = some t ↔
      s.mem.allocated = true ∧ off < s.bufLen b ∧
        ∃ m, s.mem.buffer b = some m ∧ { s with mem := s.mem.setBuffer b (Memory.write off x m) } = t := by
  unfold State.bufWrite
  split
  · next h => cases hb : s.mem.buffer b <;> simp [h]
  · next h =>
    simp only [reduceCtorEq, false_iff]
    exact fun ⟨h1, h2, _⟩ => h ⟨h1, h2⟩

/-- A write goes through exactly where a read does. -/
theorem State.bufWrite_isSome {s : State} {b : Buf} {off : Nat} {x : Byte} :
    (s.bufWrite b off x).isSome = (s.bufRead b off).isSome := by
  unfold State.bufWrite State.bufRead
  split
  · cases s.mem.buffer b <;> rfl
  · rfl

@[simp] theorem BufferMemory.setBuffer_allocated (m : BufferMemory) (b : Buf) (x : Memory) :
    (m.setBuffer b x).allocated = m.allocated := by cases b <;> rfl

@[simp] theorem BufferMemory.buffer_gap (m : BufferMemory) : m.buffer .gap = some m.gap := rfl

@[simp] theorem BufferMemory.buffer_phase (m : BufferMemory) (p : Nat) : m.buffer (.phase p) = m.phase[p]? := rfl

theorem BufferMemory.buffer_setBuffer_same {m : BufferMemory} {b : Buf} {y : Memory} (h : m.buffer b = some y)
    (x : Memory) : (m.setBuffer b x).buffer b = some x := by
  cases b with
  | gap => rfl
  | phase p =>
    simp only [BufferMemory.buffer_phase] at h
    simp [BufferMemory.setBuffer, (List.getElem?_eq_some_iff.mp h).1]

theorem BufferMemory.buffer_setBuffer_other {m : BufferMemory} {b c : Buf} (x : Memory) (h : c ≠ b) :
    (m.setBuffer b x).buffer c = m.buffer c := by
  cases b <;> cases c <;> simp_all [BufferMemory.setBuffer]
  exact List.getElem?_set_ne fun e => h e.symm

/-- Reading the written location gives the written byte (R58). -/
theorem State.bufRead_bufWrite_same {s t : State} {b : Buf} {off lo : Nat} {x : Byte}
    (h : s.bufWrite b off x = some t)
    (hw : ∀ m, s.mem.buffer b = some m → Memory.wfFrom lo m = true) : t.bufRead b off = some x := by
  obtain ⟨ha, hl, m, hm, rfl⟩ := State.bufWrite_eq_some.mp h
  refine State.bufRead_eq_some.mpr ⟨by simpa using ha, ?_, _, BufferMemory.buffer_setBuffer_same hm _,
    Memory.read_write_same (hw m hm) off x⟩
  cases b <;> exact hl

/-- Every other location reads as before. -/
theorem State.bufRead_bufWrite_other {s t : State} {b c : Buf} {off k lo : Nat} {x : Byte}
    (h : s.bufWrite b off x = some t)
    (hw : ∀ m, s.mem.buffer b = some m → Memory.wfFrom lo m = true) (hne : ¬(c = b ∧ k = off)) :
    t.bufRead c k = s.bufRead c k := by
  obtain ⟨ha, hl, m, hm, rfl⟩ := State.bufWrite_eq_some.mp h
  have hlen : ∀ d : Buf,
      ({ s with mem := s.mem.setBuffer b (Memory.write off x m) } : State).bufLen d = s.bufLen d := by
    intro d; cases d <;> rfl
  unfold State.bufRead
  rw [hlen]
  simp only [BufferMemory.setBuffer_allocated]
  split
  · by_cases hcb : c = b
    · subst hcb
      rw [BufferMemory.buffer_setBuffer_same hm, hm]
      simp only [Option.some.injEq]
      exact Memory.read_write_other (hw m hm) x fun hk => hne ⟨rfl, hk⟩
    · rw [BufferMemory.buffer_setBuffer_other _ hcb]
  · rfl

/-! ## Responses -/

/-- A response goes to its host only (R71). -/
theorem State.respondTo_other {s : State} {h g : Nat} (r : Response) (hne : g ≠ h) :
    (s.respondTo h r).hosts[g]? = s.hosts[g]? := by
  simp [Ne.symm hne]

/-- The host of a response is Free after it, with the response received (R71, R171). -/
theorem State.respondTo_same {s : State} {h : Nat} {a : HostAgent} (r : Response) (ha : s.hosts[h]? = some a) :
    (s.respondTo h r).hosts[h]? = some { a with port := .free, received := a.received ++ [r] } := by
  simp [ha]

@[simp] theorem State.respondTo_length (s : State) (h : Nat) (r : Response) :
    (s.respondTo h r).hosts.length = s.hosts.length := by simp

/-! ## Draws -/

@[simp] theorem State.drawn_length (s : State) (n : Nat) : (s.drawn n).length = n := by
  simp only [State.drawn, List.length_append, List.length_take, List.length_map, List.length_range]
  omega

/-! ## The render list -/

@[simp] theorem SymWrite.bytes_length (cfg : Params) (w : SymWrite) (o : ByteOrder) :
    (w.bytes cfg o).length = 2 := by cases o <;> rfl

/-- Every byte write of a symbol write goes to one of the symbol's two offsets (R53). -/
theorem SymWrite.mem_bytes {cfg : Params} {w : SymWrite} {o : ByteOrder} {x : ByteWrite}
    (h : x ∈ w.bytes cfg o) :
    x = { buf := .phase w.ph, off := lowOffset cfg w.idx, val := symbolLow w.sym } ∨
    x = { buf := .phase w.ph, off := highOffset cfg w.idx, val := symbolHigh w.sym } := by
  cases o <;> simp [SymWrite.bytes] at h <;> tauto

/-- The symbol writes of one stream byte (R144). -/
theorem mem_byteSymbols {cfg : Params} {j : Nat} {b : Byte} {w : SymWrite} :
    w ∈ byteSymbols cfg j b ↔ ∃ p, p < cfg.dither ∧
      (w = { ph := p, idx := 2 * j, sym := (encodeByte cfg p b).1 } ∨
       w = { ph := p, idx := 2 * j + 1, sym := (encodeByte cfg p b).2 }) := by
  simp [byteSymbols]

@[simp] theorem byteSymbols_length (cfg : Params) (j : Nat) (b : Byte) :
    (byteSymbols cfg j b).length = 2 * cfg.dither := by
  simp [byteSymbols, List.length_flatMap, Nat.mul_comm]

/-- The symbol writes of a stream: those of each of its bytes, in place (R142, R144). -/
theorem mem_streamSymbols {cfg : Params} {j : Nat} {P : List Byte} {w : SymWrite} :
    w ∈ streamSymbols cfg j P ↔ ∃ k, k < P.length ∧ w ∈ byteSymbols cfg (j + k) (P.getD k 0) := by
  induction P generalizing j with
  | nil => simp [streamSymbols]
  | cons b P ih =>
    rw [streamSymbols, List.mem_append, ih]
    constructor
    · rintro (h | ⟨k, hk, h⟩)
      · exact ⟨0, by simp, by simpa using h⟩
      · exact ⟨k + 1, by simpa using hk, by simpa [Nat.add_assoc, Nat.add_comm 1] using h⟩
    · rintro ⟨k, hk, h⟩
      cases k with
      | zero => exact .inl (by simpa using h)
      | succ k => exact .inr ⟨k, by simpa using hk, by simpa [Nat.add_assoc, Nat.add_comm 1] using h⟩

@[simp] theorem streamSymbols_length (cfg : Params) (j : Nat) (P : List Byte) :
    (streamSymbols cfg j P).length = P.length * (2 * cfg.dither) := by
  induction P generalizing j with
  | nil => simp [streamSymbols]
  | cons b P ih =>
    rw [streamSymbols, List.length_append, ih, byteSymbols_length, List.length_cons]
    ring

/-- A write of a render list belongs to one symbol write of its stream. -/
theorem mem_renderList {cfg : Params} {P : List Byte} {orders : List ByteOrder} {x : ByteWrite}
    (h : x ∈ renderList cfg P orders) :
    ∃ w o, w ∈ streamSymbols cfg 0 P ∧ x ∈ SymWrite.bytes cfg w o := by
  obtain ⟨l, hl, hx⟩ := List.mem_flatten.mp h
  obtain ⟨i, hi, rfl⟩ := List.mem_iff_getElem.mp hl
  rw [List.getElem_zipWith] at hx
  exact ⟨_, _, List.getElem_mem _, hx⟩

end Sys2Proof.Machine
end

