-- ==== Sys2Proof/Laws/Exec.lean ====
section
/-! SUPPORT. Everything a command's acceptance step can do, said once; later proofs split on it. -/

namespace Sys2Proof.Machine

/-- The ways the acceptance step of a command can answer a next state. -/
inductive ExecCase (s : State) : Instr → State → Prop
  /-- An error is raised (R213): nothing but `LAST_ERR`, `FAULT` and the response. -/
  | error (i : Instr) (e : Status) (he : e ≠ .ok) : ExecCase s i (s.raise i e)
  /-- A diagnostic read answers (R56): nothing but the response. -/
  | read (i : Instr) (d : Word) (hi : isLifecycle i = false) : ExecCase s i (s.respond .ok d)
  /-- `INIT` succeeds (R173). -/
  | initialise (count : BitVec 16) (hs : s.reg.state ≠ .ready) (ha : allocOK s.cfg count.toNat = true) :
      ExecCase s (.init count) (s.initialise count)
  /-- `SHOW` is accepted (R177). -/
  | accepted (count : BitVec 16) (payload : List Byte) (hl : payload.length = 3 * count.toNat)
      (hs : s.reg.state = .ready) (hb : s.reg.busy = false) (hn : count = s.reg.numLeds) :
      ExecCase s (.showPixels count payload) (s.startRender payload)
  /-- `TEARDOWN` in `Stopped` (R183). -/
  | stopAgain (hs : s.reg.state = .stopped) : ExecCase s .teardown ((s.setLastErr .ok).respond .ok 0)
  /-- `TEARDOWN` from `Ready` (R183). -/
  | stop (hs : s.reg.state = .ready) (hb : s.reg.busy = false) :
      ExecCase s .teardown (s.dmaStop.release.respond .ok 0)

/-- The inversion of `exec`. -/
theorem exec_cases {i : Instr} {s t : State} (h : exec i s = .next t) : ExecCase s i t := by
  cases i with
  | init count =>
    simp only [exec, execInit] at h
    split_ifs at h with h1 h2 <;> cases h
    · exact .error _ _ (by decide)
    · exact .error _ _ (by decide)
    · exact .initialise _ h1 (by simpa using h2)
  | showPixels count payload =>
    simp only [exec, execShowPixels] at h
    split_ifs at h with h1 h2 h3 h4 <;> cases h
    · exact .error _ _ (by decide)
    · exact .error _ _ (by decide)
    · exact .error _ _ (by decide)
    · exact .accepted _ _ (by simpa using h1) (by simpa using h2) (by simpa using h3) (by simpa using h4)
  | teardown =>
    simp only [exec, execTeardown] at h
    split at h
    · cases h; exact .error _ _ (by decide)
    · next h1 => cases h; exact .stopAgain h1
    · next h1 =>
      split_ifs at h with h2 <;> cases h
      · exact .error _ _ (by decide)
      · exact .stop h1 (by simpa using h2)
  | lutRd ph val =>
    simp only [exec, execLutRd] at h
    split_ifs at h <;> cases h
    · exact .error _ _ (by decide)
    · exact .read _ _ rfl
  | symRd nib => cases h; exact .read _ _ rfl
  | enc ph val =>
    simp only [exec, execEnc] at h
    split_ifs at h <;> cases h
    · exact .error _ _ (by decide)
    · exact .read _ _ rfl
  | bufRdh sel idx =>
    simp only [exec, execBufRdh] at h
    split_ifs at h
    · cases h; exact .error _ _ (by decide)
    · cases h; exact .error _ _ (by decide)
    · cases h; exact .error _ _ (by decide)
    · split at h <;> cases h
      exact .read _ _ rfl
  | bufRdb sel idx =>
    simp only [exec, execBufRdb] at h
    split_ifs at h
    · cases h; exact .error _ _ (by decide)
    · split at h
      · cases h; exact .error _ _ (by decide)
      · split_ifs at h
        · cases h; exact .error _ _ (by decide)
        · split at h <;> cases h
          exact .read _ _ rfl
  | descRd fld di =>
    simp only [exec, execDescRd] at h
    split_ifs at h
    · cases h; exact .error _ _ (by decide)
    · cases h; exact .error _ _ (by decide)
    · split at h <;> cases h
      exact .read _ _ rfl
  | regRd rn =>
    simp only [exec, execRegRd] at h
    split at h <;> cases h
    · exact .read _ _ rfl
    · exact .error _ _ (by decide)

/-- No command changes the parameters, the inputs still to come, or the output stream. -/
theorem exec_keeps {i : Instr} {s t : State} (h : exec i s = .next t) :
    t.cfg = s.cfg ∧ t.stream = s.stream ∧ t.issuer = s.issuer ∧ t.sched = s.sched ∧ t.turn = s.turn := by
  cases exec_cases h <;> simp

/-- No command changes how many hosts there are. -/
theorem exec_hosts_length {i : Instr} {s t : State} (h : exec i s = .next t) :
    t.hosts.length = s.hosts.length := by
  cases exec_cases h <;> simp

end Sys2Proof.Machine
end

