-- ==== Sys2Proof/Laws/Agents.lean ====
section
/-! SUPPORT. Everything a move of an agent can do, said once for each agent. -/

namespace Sys2Proof.Machine

@[simp] theorem State.nextMove_cons {s : State} {m : Move} {rest : List Move} (h : s.sched = m :: rest) :
    s.nextMove = (m, { s with sched := rest }) := by
  simp [State.nextMove, h]

/-- A step whose schedule begins with `m` performs `m`. -/
theorem step_of_sched {s : State} {m : Move} {rest : List Move} (h : s.sched = m :: rest) :
    step s = takeMove m { s with sched := rest } := by
  simp [step, State.nextMove, h]

/-- Choosing the next move changes the schedule and the counter of free moves only. -/
theorem State.nextMove_state (s : State) :
    ∃ sched turn, s.nextMove.2 = { s with sched := sched, turn := turn } := by
  unfold State.nextMove
  split
  · exact ⟨_, _, rfl⟩
  · split
    · exact ⟨s.sched, s.turn + 1, rfl⟩
    · exact ⟨_, _, rfl⟩

/-- Where the schedule is used up, the free block and its fair move follow, in order (R178, R190). -/
theorem State.nextMove_nil {s : State} (h : s.sched = []) : ∃ m rest,
    Config.freeMoves s.turn ++ [fairMove s.turn] = m :: rest ∧
      s.nextMove = (m, { s with sched := rest, turn := s.turn + 1 }) := by
  obtain ⟨m, rest, hb⟩ : ∃ m rest, Config.freeMoves s.turn ++ [fairMove s.turn] = m :: rest := by
    cases Config.freeMoves s.turn <;> simp
  refine ⟨m, rest, hb, ?_⟩
  unfold State.nextMove
  cases hf : Config.freeMoves s.turn <;> simp_all

theorem fairMove_even (n : Nat) : fairMove (2 * n) = .render := by simp [fairMove]

theorem fairMove_odd (n : Nat) : fairMove (2 * n + 1) = .dmaRead := by
  unfold fairMove; rw [if_neg (by omega)]

/-- A host's move: nothing, or one transaction delivered whole at its port (R70, R171). -/
theorem stepIssue_cases {h : Nat} {s t : State} (hs : stepIssue h s = .next t) :
    t = s ∨ ∃ a w ws, s.hosts[h]? = some a ∧ a.port = .free ∧ a.inbox = w :: ws ∧
      payloadWords w ≤ ws.length ∧
      t = { s with hosts := s.hosts.set h { a with
        port := .waiting { word := w, payload := ws.take (payloadWords w) }
        inbox := ws.drop (payloadWords w) } } := by
  unfold stepIssue at hs
  split at hs
  · cases hs; exact .inl rfl
  · next a ha =>
    split at hs
    · cases hs; exact .inl rfl
    · cases hs; exact .inl rfl
    · next w ws hp hi =>
      split_ifs at hs with hl
      cases hs
      exact .inr ⟨a, w, ws, ha, hp, hi, by omega, rfl⟩

/-- A list that begins with a word never decodes to 'no word'. -/
theorem decode_cons_ne_noWord (w : Word) (ws : List Word) : decode (w :: ws) ≠ .noWord := by
  simp only [decode]
  cases decodeHead w with
  | plain i => simp
  | illegal c => simp
  | showHead count =>
    simp only
    split <;> simp

/-- The command unit's move: nothing, a command's acceptance step, or an illegal word (R171, R82). -/
theorem stepAccept_cases {h : Nat} {s t : State} (hs : stepAccept h s = .next t) :
    (s.pending h = none ∧ t = s) ∨
    (∃ cmd i, s.pending h = some cmd ∧ decode (cmd.word :: cmd.payload) = .ok i [] ∧
      exec i { s with issuer := h } = .next t) ∨
    (∃ cmd cause rest, s.pending h = some cmd ∧ decode (cmd.word :: cmd.payload) = .illegal cause rest ∧
      t = ({ s with issuer := h } : State).illegalWord) := by
  unfold stepAccept at hs
  split at hs
  · next hp => cases hs; exact .inl ⟨hp, rfl⟩
  · next cmd hp =>
    split at hs
    · next i hd => exact .inr (.inl ⟨cmd, i, hp, hd, hs⟩)
    · cases hs
    · next c r hd => cases hs; exact .inr (.inr ⟨cmd, c, r, hp, hd, rfl⟩)
    · cases hs
    · next hd => exact absurd hd (decode_cons_ne_noWord _ _)

/-- The render sequencer's move: nothing, the completion step, or one byte written (R178, R179). -/
theorem stepRender_cases {s t : State} (hs : stepRender s = .next t) :
    (s.rs = .idle ∧ t = s) ∨
    (∃ h, s.rs = .rendering h [] ∧ t = s.completeShow h) ∨
    (∃ h w ws u, s.rs = .rendering h (w :: ws) ∧ s.bufWrite w.buf w.off w.val = some u ∧
      t = { u with rs := .rendering h ws }) := by
  unfold stepRender at hs
  split at hs
  · next hr => cases hs; exact .inl ⟨hr, rfl⟩
  · next h hr => cases hs; exact .inr (.inl ⟨h, hr, rfl⟩)
  · next h w ws hr =>
    split at hs
    · cases hs
    · next u hu => cases hs; exact .inr (.inr ⟨h, w, ws, u, hr, hu, rfl⟩)

/-- The DMA Engine's read: nothing, or one byte emitted (R190). -/
theorem stepDmaRead_cases {s t : State} (hs : stepDmaRead s = .next t) :
    (s.dma.running = false ∧ t = s) ∨
    (∃ d x, s.dma.running = true ∧ s.desc[s.dma.cur]? = some d ∧ s.bufRead d.buf s.dma.off = some x ∧
      t = { s with stream := s.stream ++ [x], dma := s.dma.advance d }) := by
  unfold stepDmaRead at hs
  split_ifs at hs with hr
  · split at hs
    · cases hs
    · next d hd =>
      split at hs
      · cases hs
      · next x hx => cases hs; exact .inr ⟨d, x, hr, hd, hx, rfl⟩
  · cases hs; exact .inl ⟨by simpa using hr, rfl⟩

/-- The DMA Engine's flag write changes the flags of one descriptor, no link (R150, R192). -/
theorem stepDmaFlags_links {d : Nat} {o e : Bool} {s t : State} (hs : stepDmaFlags d o e s = .next t) :
    ∃ desc, t = { s with desc := desc } ∧ desc.map Desc.links = s.desc.map Desc.links := by
  unfold stepDmaFlags at hs
  split_ifs at hs
  · cases hs
    refine ⟨_, rfl, ?_⟩
    apply List.ext_getElem?
    intro i
    simp only [List.getElem?_map, List.getElem?_modify]
    by_cases hi : d = i
    · subst hi; cases s.desc[d]? <;> simp [Desc.links]
    · simp [hi]
  · cases hs; exact ⟨s.desc, rfl, rfl⟩

/-- No move touches the schedule or the counter of free blocks: only choosing a move does. -/
theorem takeMove_schedule {m : Move} {s t : State} (h : takeMove m s = .next t) :
    t.sched = s.sched ∧ t.turn = s.turn := by
  cases m with
  | issue g => rcases stepIssue_cases h with rfl | ⟨a, w, ws, _, _, _, _, rfl⟩ <;> exact ⟨rfl, rfl⟩
  | accept g =>
    rcases stepAccept_cases h with ⟨_, rfl⟩ | ⟨cmd, i, _, _, he⟩ | ⟨cmd, c, r, _, _, rfl⟩
    · exact ⟨rfl, rfl⟩
    · exact (exec_keeps he).2.2.2
    · exact ⟨rfl, rfl⟩
  | render =>
    rcases stepRender_cases h with ⟨_, rfl⟩ | ⟨g, _, rfl⟩ | ⟨g, w, ws, u, _, hu, rfl⟩
    · exact ⟨rfl, rfl⟩
    · exact ⟨rfl, rfl⟩
    · obtain ⟨_, _, m, _, rfl⟩ := State.bufWrite_eq_some.mp hu
      exact ⟨rfl, rfl⟩
  | dmaRead =>
    rcases stepDmaRead_cases h with ⟨_, rfl⟩ | ⟨d, x, _, _, _, rfl⟩ <;> exact ⟨rfl, rfl⟩
  | dmaFlags d o e =>
    obtain ⟨desc, rfl, _⟩ := stepDmaFlags_links h
    exact ⟨rfl, rfl⟩
  | reset => cases h; exact ⟨rfl, rfl⟩

end Sys2Proof.Machine
end

