-- ==== Sys2Proof/Laws/Decode.lean ====
section
/-! SUPPORT. The fields of encoded words, and the packing of payloads. -/

namespace Sys2Proof

/-- The upper part of an append, as a field. -/
theorem extract_append_high {n m k l : Nat} (x : BitVec n) (y : BitVec m) (h : m ≤ k) :
    (x ++ y).extractLsb' k l = x.extractLsb' (k - m) l := by
  ext i hi
  simp only [BitVec.getElem_extractLsb', BitVec.getLsbD_append]
  rw [if_neg (by omega)]
  congr 1
  omega

/-- The lower part of an append, as a field. -/
theorem extract_append_low {n m k l : Nat} (x : BitVec n) (y : BitVec m) (h : k + l ≤ m) :
    (x ++ y).extractLsb' k l = y.extractLsb' k l := by
  ext i hi
  simp only [BitVec.getElem_extractLsb', BitVec.getLsbD_append]
  rw [if_pos (by omega)]

/-- A whole vector, as a field. -/
theorem extract_all {n : Nat} (x : BitVec n) : x.extractLsb' 0 n = x := by simp

@[simp] theorem descFieldOf_bits (f : DescField) : descFieldOf (descFieldBits f) = f := by cases f <;> rfl

@[simp] theorem descFieldBits_of (b : BitVec 2) : descFieldBits (descFieldOf b) = b := by
  revert b; decide

/-- A payload of `n` bytes takes `ceil(n / 4)` words (R70). -/
theorem packBytes_length : (P : List Byte) → (packBytes P).length = (P.length + 3) / 4
  | [] => rfl
  | [_] => by simp [packBytes]
  | [_, _] => by simp [packBytes]
  | [_, _, _] => by simp [packBytes]
  | _ :: _ :: _ :: _ :: t => by
    simp only [packBytes, List.length_cons, packBytes_length t]
    omega

theorem wordBytes_pack (a b c d : Byte) : wordBytes (d ++ c ++ b ++ a) = [a, b, c, d] := by
  simp only [wordBytes, List.cons.injEq, and_true]
  refine ⟨?_, ?_, ?_, ?_⟩
  · rw [extract_append_low _ _ (by omega), extract_all]
  · rw [extract_append_high _ _ (by omega), extract_append_low _ _ (by omega), extract_all]
  · rw [extract_append_high _ _ (by omega), extract_append_high _ _ (by omega),
      extract_append_low _ _ (by omega), extract_all]
  · rw [extract_append_high _ _ (by omega), extract_append_high _ _ (by omega),
      extract_append_high _ _ (by omega), extract_all]

/-- Packed bytes read back in payload order; pad bytes stand after them (R70). -/
theorem wordsBytes_packBytes : (P : List Byte) → (wordsBytes (packBytes P)).take P.length = P
  | [] => rfl
  | [a] => by rw [packBytes, wordsBytes, wordBytes_pack]; rfl
  | [a, b] => by rw [packBytes, wordsBytes, wordBytes_pack]; rfl
  | [a, b, c] => by rw [packBytes, wordsBytes, wordBytes_pack]; rfl
  | a :: b :: c :: d :: t => by
    simp [packBytes, wordsBytes, wordBytes_pack, wordsBytes_packBytes t]

@[simp] theorem wordsBytes_length (ws : List Word) : (wordsBytes ws).length = 4 * ws.length := by
  induction ws with
  | nil => rfl
  | cons w ws ih => simp only [wordsBytes, List.length_append, ih, List.length_cons, wordBytes]; simp; omega

end Sys2Proof
end

