-- ==== Sys2Proof/Laws/Invariant.lean ====
section
/-! SUPPORT. What a good state gives: bounds, readable locations, the shape of a raised error, a pending command. -/

namespace Sys2Proof.Machine

/-- The bounds of R5 that later proofs use. -/
theorem legalParams_bounds {p : Params} (h : legalParams p = true) :
    1 ≤ p.dither ∧ p.dither ≤ 8 ∧ 1 ≤ p.gapBytes ∧ p.gapBytes < 2 ^ 32 ∧ 1 ≤ p.hosts ∧
      p.phasePerm.Perm (List.range p.dither) := by
  simp only [legalParams, Bool.and_eq_true, decide_eq_true_eq, List.contains_eq_mem, List.mem_cons,
    List.not_mem_nil, or_false, List.isPerm_iff] at h
  obtain ⟨⟨⟨⟨⟨⟨⟨⟨⟨⟨h0, _⟩, _⟩, _⟩, h4⟩, _⟩, h6⟩, _⟩, _⟩, h9⟩, h10⟩ := h
  exact ⟨by omega, by omega, h4, h6, h10, h9⟩

/-- The phase of a ring pair is a phase (R152). -/
theorem phasePermOf_lt {cfg : Params} (h : legalParams cfg = true) {q : Nat} (hq : q < cfg.dither) :
    phasePermOf cfg q < cfg.dither := by
  have hp := (legalParams_bounds h).2.2.2.2.2
  have hl := hp.length_eq
  simp only [List.length_range] at hl
  unfold phasePermOf
  rw [List.getD_eq_getElem?_getD, List.getElem?_eq_getElem (by omega)]
  simpa using hp.mem_iff.mp (List.getElem_mem (l := cfg.phasePerm) (n := q) (by omega))

/-- While `Ready`, every location of R50 can be read. -/
theorem Inv.bufRead_isSome {s : State} (hi : Inv s) (hr : s.reg.state = .ready) {p off : Nat}
    (hp : p < s.cfg.dither) (ho : off < 12 * s.reg.numLeds.toNat) :
    ∃ x, s.bufRead (.phase p) off = some x := by
  obtain ⟨_, _, _, _, hm, _⟩ := hi
  simp only [State.memOK, hr, if_true] at hm
  exact ⟨_, State.bufRead_eq_some.mpr ⟨hm.1, by simp [State.bufLen, State.phaseBytes, hr, ho],
    s.mem.phase[p]'(by omega), by simp [hm.2.1, hp], rfl⟩⟩

/-- The memory of every buffer of a good state is in canonical form. -/
theorem Inv.buffer_wf {s : State} (hi : Inv s) {b : Buf} {m : Memory} (h : s.mem.buffer b = some m) :
    Memory.wf m = true := by
  obtain ⟨_, _, _, _, hm, _⟩ := hi
  simp only [State.memOK] at hm
  split at hm
  · cases b with
    | gap => simp only [BufferMemory.buffer_gap, hm.2.2.1, Option.some.injEq] at h; rw [← h]; rfl
    | phase p => exact (hm.2.2.2 m (List.mem_of_getElem? h)).1
  · cases b with
    | gap => simp only [BufferMemory.buffer_gap, hm.2.2, Option.some.injEq] at h; rw [← h]; rfl
    | phase p => simp [hm.2.1] at h

/-- Raising an error writes two registers at most, and responds (R213). -/
theorem State.raise_shape (i : Instr) (e : Status) (s : State) : ∃ l f, s.raise i e =
    ({ s with reg := { s.reg with lastErr := l, fault := f } } : State).respondTo s.issuer
      { status := e, data := 0 } := by
  unfold State.raise State.respond State.markFault State.setLastErr
  split <;> exact ⟨_, _, rfl⟩

/-- A pending command is that of a waiting host, none of whose `SHOW`s is in flight. -/
theorem State.pending_some {s : State} {h : Nat} {cmd : Txn} (hp : s.pending h = some cmd) :
    s.rendersFor h = false ∧ s.isWaiting h = true ∧ ∃ a, s.hosts[h]? = some a ∧ a.port = .waiting cmd := by
  unfold State.pending at hp
  split at hp
  · cases hp
  · next a ha =>
    split at hp
    · cases hp
    · next c hc =>
      split_ifs at hp with hr
      cases hp
      exact ⟨by simpa using hr, by simp [State.isWaiting, ha, hc], a, ha, hc⟩

end Sys2Proof.Machine
end

