-- ==== Sys2Proof/Laws/PerInstr.lean ====
section
/-! SUPPORT. The family EncodedHead: the first word of a command's encoding decodes to the command, or, for
`SHOW`, to its `COUNT`, whatever follows it (R81). One lemma for each constructor. -/

namespace Sys2Proof.Laws.EncodedHead

/-- What the command word of `i` alone decodes to. -/
def headOf : Instr → Head
  | .init c => .plain (.init c)
  | .showPixels c _ => .showHead c
  | .teardown => .plain .teardown
  | .lutRd p v => .plain (.lutRd p v)
  | .symRd n => .plain (.symRd n)
  | .enc p v => .plain (.enc p v)
  | .bufRdh s x => .plain (.bufRdh s x)
  | .bufRdb s x => .plain (.bufRdb s x)
  | .descRd f d => .plain (.descRd f d)
  | .regRd r => .plain (.regRd r)

/-- The first word of the encoding of `i` decodes to what `i` begins with. -/
def Statement (i : Instr) : Prop := (encode i).head?.map decodeHead = some (headOf i)

/-- The fields of format `FN16` (R73). -/
theorem field_of_init (c : BitVec 16) (op : BitVec 4) :
    opField (op ++ 0#12 ++ c) = op ∧ (op ++ 0#12 ++ c).extractLsb' 16 12 = 0 ∧
      (op ++ 0#12 ++ c).extractLsb' 0 16 = c := by
  refine ⟨?_, ?_, ?_⟩
  · unfold opField
    rw [extract_append_high _ _ (by omega), extract_append_high _ _ (by omega), extract_all]
  · rw [extract_append_high _ _ (by omega), extract_append_low _ _ (by omega), extract_all]; rfl
  · rw [extract_append_low _ _ (by omega), extract_all]

/-- The fields of format `FPV` (R75). -/
theorem field_of_fpv (p : BitVec 3) (v : Byte) (op : BitVec 4) :
    opField (op ++ 0#17 ++ p ++ v) = op ∧ (op ++ 0#17 ++ p ++ v).extractLsb' 11 17 = 0 ∧
      (op ++ 0#17 ++ p ++ v).extractLsb' 8 3 = p ∧ (op ++ 0#17 ++ p ++ v).extractLsb' 0 8 = v := by
  refine ⟨?_, ?_, ?_, ?_⟩
  · unfold opField
    rw [extract_append_high _ _ (by omega), extract_append_high _ _ (by omega),
      extract_append_high _ _ (by omega), extract_all]
  · rw [extract_append_high _ _ (by omega), extract_append_high _ _ (by omega),
      extract_append_low _ _ (by omega), extract_all]; rfl
  · rw [extract_append_high _ _ (by omega), extract_append_low _ _ (by omega), extract_all]
  · rw [extract_append_low _ _ (by omega), extract_all]

/-- The fields of formats `FNIB` (R76) and `FR` (R79). -/
theorem field_of_nibble (n : BitVec 4) (op : BitVec 4) :
    opField (op ++ 0#24 ++ n) = op ∧ (op ++ 0#24 ++ n).extractLsb' 4 24 = 0 ∧
      (op ++ 0#24 ++ n).extractLsb' 0 4 = n := by
  refine ⟨?_, ?_, ?_⟩
  · unfold opField
    rw [extract_append_high _ _ (by omega), extract_append_high _ _ (by omega), extract_all]
  · rw [extract_append_high _ _ (by omega), extract_append_low _ _ (by omega), extract_all]; rfl
  · rw [extract_append_low _ _ (by omega), extract_all]

/-- The fields of format `FSI` (R77). -/
theorem field_of_fsi (s : BitVec 4) (x : BitVec 20) (op : BitVec 4) :
    opField (op ++ s ++ 0#4 ++ x) = op ∧ (op ++ s ++ 0#4 ++ x).extractLsb' 20 4 = 0 ∧
      (op ++ s ++ 0#4 ++ x).extractLsb' 24 4 = s ∧ (op ++ s ++ 0#4 ++ x).extractLsb' 0 20 = x := by
  refine ⟨?_, ?_, ?_, ?_⟩
  · unfold opField
    rw [extract_append_high _ _ (by omega), extract_append_high _ _ (by omega),
      extract_append_high _ _ (by omega), extract_all]
  · rw [extract_append_high _ _ (by omega), extract_append_low _ _ (by omega), extract_all]; rfl
  · rw [extract_append_high _ _ (by omega), extract_append_high _ _ (by omega),
      extract_append_low _ _ (by omega), extract_all]
  · rw [extract_append_low _ _ (by omega), extract_all]

/-- The fields of format `FDF` (R78). -/
theorem field_of_fdf (f : BitVec 2) (d : BitVec 4) (op : BitVec 4) :
    opField (op ++ 0#18 ++ f ++ 0#4 ++ d) = op ∧ (op ++ 0#18 ++ f ++ 0#4 ++ d).extractLsb' 10 18 = 0 ∧
      (op ++ 0#18 ++ f ++ 0#4 ++ d).extractLsb' 4 4 = 0 ∧
      (op ++ 0#18 ++ f ++ 0#4 ++ d).extractLsb' 8 2 = f ∧
      (op ++ 0#18 ++ f ++ 0#4 ++ d).extractLsb' 0 4 = d := by
  refine ⟨?_, ?_, ?_, ?_, ?_⟩
  · unfold opField
    rw [extract_append_high _ _ (by omega), extract_append_high _ _ (by omega),
      extract_append_high _ _ (by omega), extract_append_high _ _ (by omega), extract_all]
  · rw [extract_append_high _ _ (by omega), extract_append_high _ _ (by omega),
      extract_append_high _ _ (by omega), extract_append_low _ _ (by omega), extract_all]; rfl
  · rw [extract_append_high _ _ (by omega), extract_append_low _ _ (by omega), extract_all]; rfl
  · rw [extract_append_high _ _ (by omega), extract_append_high _ _ (by omega),
      extract_append_low _ _ (by omega), extract_all]
  · rw [extract_append_low _ _ (by omega), extract_all]

theorem init (c : BitVec 16) : Statement (.init c) := by
  obtain ⟨h1, h2, h3⟩ := field_of_init c 0x1#4
  simp only [Statement, encode, headOf, List.head?_cons, Option.map_some, Option.some.injEq]
  generalize 0x1#4 ++ 0#12 ++ c = w at *
  simp [decodeHead, h1, h2, h3]

theorem showPixels (c : BitVec 16) (P : List Byte) : Statement (.showPixels c P) := by
  obtain ⟨h1, h2, h3⟩ := field_of_init c 0x2#4
  simp only [Statement, encode, headOf, List.head?_cons, Option.map_some, Option.some.injEq]
  generalize 0x2#4 ++ 0#12 ++ c = w at *
  simp [decodeHead, h1, h2, h3]

theorem teardown : Statement .teardown := by
  unfold Statement; decide

theorem lutRd (p : BitVec 3) (v : Byte) : Statement (.lutRd p v) := by
  obtain ⟨h1, h2, h3, h4⟩ := field_of_fpv p v 0x4#4
  simp only [Statement, encode, headOf, List.head?_cons, Option.map_some, Option.some.injEq]
  generalize 0x4#4 ++ 0#17 ++ p ++ v = w at *
  simp [decodeHead, h1, h2, h3, h4]

theorem symRd (n : Nibble) : Statement (.symRd n) := by
  obtain ⟨h1, h2, h3⟩ := field_of_nibble n 0x5#4
  simp only [Statement, encode, headOf, List.head?_cons, Option.map_some, Option.some.injEq]
  generalize 0x5#4 ++ 0#24 ++ n = w at *
  simp [decodeHead, h1, h2, h3]

theorem enc (p : BitVec 3) (v : Byte) : Statement (.enc p v) := by
  obtain ⟨h1, h2, h3, h4⟩ := field_of_fpv p v 0x6#4
  simp only [Statement, encode, headOf, List.head?_cons, Option.map_some, Option.some.injEq]
  generalize 0x6#4 ++ 0#17 ++ p ++ v = w at *
  simp [decodeHead, h1, h2, h3, h4]

theorem bufRdh (s : BitVec 4) (x : BitVec 20) : Statement (.bufRdh s x) := by
  obtain ⟨h1, h2, h3, h4⟩ := field_of_fsi s x 0x7#4
  simp only [Statement, encode, headOf, List.head?_cons, Option.map_some, Option.some.injEq]
  generalize 0x7#4 ++ s ++ 0#4 ++ x = w at *
  simp [decodeHead, h1, h2, h3, h4]

theorem bufRdb (s : BitVec 4) (x : BitVec 20) : Statement (.bufRdb s x) := by
  obtain ⟨h1, h2, h3, h4⟩ := field_of_fsi s x 0x8#4
  simp only [Statement, encode, headOf, List.head?_cons, Option.map_some, Option.some.injEq]
  generalize 0x8#4 ++ s ++ 0#4 ++ x = w at *
  simp [decodeHead, h1, h2, h3, h4]

theorem descRd (f : DescField) (d : BitVec 4) : Statement (.descRd f d) := by
  obtain ⟨h1, h2, h3, h4, h5⟩ := field_of_fdf (descFieldBits f) d 0x9#4
  simp only [Statement, encode, headOf, List.head?_cons, Option.map_some, Option.some.injEq]
  generalize 0x9#4 ++ 0#18 ++ descFieldBits f ++ 0#4 ++ d = w at *
  simp [decodeHead, h1, h2, h3, h4, h5]

theorem regRd (r : BitVec 4) : Statement (.regRd r) := by
  obtain ⟨h1, h2, h3⟩ := field_of_nibble r 0xA#4
  simp only [Statement, encode, headOf, List.head?_cons, Option.map_some, Option.some.injEq]
  generalize 0xA#4 ++ 0#24 ++ r = w at *
  simp [decodeHead, h1, h2, h3]

end Sys2Proof.Laws.EncodedHead
end

