-- ==== Sys2Proof/Tests/Slice0.lean ====
section
/-! SUPPORT. Tests of the model against 30_encoding.md and 95_test_vectors.md, and witnesses that the statements'
hypotheses can be met. Expected values are the spec's. -/

open Sys2Proof Sys2Proof.Machine

namespace Sys2Proof.Tests

set_option Elab.async false

/-! ## The test instances of 95_test_vectors.md, and small states -/

/-- Instance B: `N = 4`, `GAMMA = 2.5`, the reference table. -/
def instB : Params :=
  { Config.resetInstance with dither := 4, gdt := referenceTable 4 5 2, phasePerm := [0, 1, 2, 3] }

/-- Instance C: `N = 2`, `GAMMA = 2.5`. -/
def instC : Params := { Config.resetInstance with dither := 2, gdt := referenceTable 2 5 2, phasePerm := [0, 1] }

/-- Instance D: `N = 8`, `GAMMA = 2.5`, 4096 bytes of buffer memory, one host. -/
def instD : Params :=
  { Config.resetInstance with
    dither := 8, gdt := referenceTable 8 5 2, phasePerm := List.range 8, bufMemBytes := 4096, hosts := 1 }

/-- Instance A with every decided choice of order made the other way. -/
def instOther : Params :=
  { Config.resetInstance with groupOrder := .lsbFirst, nibbleOrder := .highFirst, bufEndian := .big }

/-- The next state; the reset state where a step stops. -/
def stateOf : Host.Outcome State Fault Refusal → State
  | .next t => t
  | .fault _ => State.reset
  | .refused _ => State.reset

/-- The state after the command of the bits `w`, from host 0 (or from host 1 during host 0's `SHOW`). -/
def after (nbits w : Nat) (s : State) : State := stateOf (step (s.withFetchWord nbits w))

/-- The state after `n` moves `m`. -/
def moves (m : Move) : Nat → State → State
  | 0, s => s
  | n + 1, s => moves m n (stateOf (takeMove m s))

/-- The last response host `h` received. -/
def answer (h : Nat) (s : State) : Option (Nat × Nat) :=
  match s.hosts[h]? with
  | none => none
  | some a => a.received.getLast?.map fun r => (r.status.code.toNat, r.data.toNat)

/-- The answer to one command from host 0. -/
def answerTo (w : Nat) (s : State) : Option (Nat × Nat) := answer 0 (after 32 w s)

/-- Registers 0 to 4, 6 and 7 as numbers. -/
def regs (s : State) : List Nat :=
  [s.reg.state.code.toNat, s.reg.busy.toNat, s.reg.fault.toNat, s.reg.lastErr.code.toNat, s.reg.numLeds.toNat,
    s.reg.head.toNat, s.reg.dmaRun.toNat]

/-- `s` with the byte orders of six symbol writes already drawn. -/
def drawnOrders (s : State) : State :=
  { s with orders := [.lowByteFirst, .highByteFirst, .lowByteFirst, .highByteFirst, .lowByteFirst, .highByteFirst] }

/-- Instance A, `Ready` with one LED. -/
def readyA : State := drawnOrders (after 32 0x10000001 State.reset)

/-- Instance A, the `SHOW` of (255,0,0) accepted. -/
def renderingA : State := after 64 0x000000FF20000001 readyA

/-- Instance A, that `SHOW` ready for its completion step. -/
def writtenA : State := moves .render 12 renderingA

/-- Instance A, that `SHOW` completed. -/
def shownA : State := moves .render 1 writtenA

/-- Instance A, stopped. -/
def stoppedA : State := after 32 0x30000000 readyA

/-- Instance B, `Ready` with one LED. -/
def readyB : State := after 32 0x10000001 (State.resetWith instB)

/-- Host 0 waiting with the command of one word. -/
def waitingWith (w : Word) (s : State) : State :=
  { s with hosts := s.hosts.modify 0 fun a => { a with port := .waiting { word := w, payload := [] } } }

/-! ## WellFormed: the one check, and a term that it refuses -/

theorem test_wellFormed_payload_too_short : (Instr.showPixels 1 [1, 2]).wellFormed = false := by decide
theorem test_wellFormed_payload_too_long : (Instr.showPixels 1 [1, 2, 3, 4]).wellFormed = false := by decide
theorem test_wellFormed_accepts : (Instr.showPixels 1 [1, 2, 3]).wellFormed = true := by decide

/-! ## Decode: one word of each constructor, written field by field from R73 to R79 -/

theorem test_decode_init :
    decode [0b0001_000000000000_0000000000000011#32] = .ok (.init 3) [] := by decide
theorem test_decode_show :
    decode [0b0010_000000000000_0000000000000010#32, 0x04030201, 0x00000605, 0x30000000] =
      .ok (.showPixels 2 [1, 2, 3, 4, 5, 6]) [0x30000000] := by decide
theorem test_decode_show_empty : decode [0b0010_000000000000_0000000000000000#32] = .ok (.showPixels 0 []) [] := by
  decide
theorem test_decode_show_short : decode [0x20000002, 0x04030201] = .shortPayload := by decide
theorem test_decode_teardown : decode [0b0011_0000000000000000000000000000#32] = .ok .teardown [] := by decide
theorem test_decode_lutRd : decode [0b0100_00000000000000000_010_10000000#32] = .ok (.lutRd 2 128) [] := by decide
theorem test_decode_symRd : decode [0b0101_000000000000000000000000_1111#32] = .ok (.symRd 15) [] := by decide
theorem test_decode_enc : decode [0b0110_00000000000000000_000_00010010#32] = .ok (.enc 0 0x12) [] := by decide
theorem test_decode_bufRdh :
    decode [0b0111_0000_0000_00000000000000010001#32] = .ok (.bufRdh 0 17) [] := by decide
theorem test_decode_bufRdb :
    decode [0b1000_1111_0000_00000000000000000000#32] = .ok (.bufRdb 0xF 0) [] := by decide
theorem test_decode_descRd :
    decode [0b1001_000000000000000000_10_0000_0111#32] = .ok (.descRd .next 7) [] := by decide
theorem test_decode_descRd_flags : decode [0x90000307] = .ok (.descRd .flags 7) [] := by decide
theorem test_decode_regRd : decode [0b1010_000000000000000000000000_1010#32] = .ok (.regRd 10) [] := by decide

/-- L2.11: the illegal words of the spec's list. -/
theorem test_decode_illegal :
    ([0x00000000, 0xB0000000, 0xFFFFFFFF, 0x10010000, 0x38000000, 0x40000800, 0x50000010, 0x70100000,
      0x8FFFFFFF, 0x90000010, 0x90000400, 0xA0000010] : List Word).all (fun w =>
        match decodeHead w with
        | .illegal _ => true
        | .plain _ => false
        | .showHead _ => false) = true := by decide

/-- L2.11: words at the edge of their fields decode. -/
theorem test_decode_edges :
    decode [0x1000FFFF] = .ok (.init 65535) [] ∧ decode [0x40000780] = .ok (.lutRd 7 0x80) [] ∧
    decode [0x7F000000] = .ok (.bufRdh 0xF 0) [] ∧ decode [0x8F0FFFFF] = .ok (.bufRdb 0xF 0xFFFFF) [] := by decide

theorem test_decodeTableWord :
    decodeTableWord 32 0x10000003 = some (.init 3) ∧ decodeTableWord 32 0x20000001 = some (.showPixels 1 [0, 0, 0]) ∧
    decodeTableWord 32 0x00000000 = none := by decide

/-- L2.11: payload packing. -/
theorem test_encode_payload : encode (.showPixels 1 [128, 0, 255]) = [0x20000001, 0x00FF0080] := by decide

/-! ## Memory -/

theorem test_memory_write_keeps_form :
    Memory.write 4 7 [(2, 1), (9, 1)] = [(2, 1), (4, 7), (9, 1)] ∧ Memory.write 2 0 [(2, 1), (9, 1)] = [(9, 1)] := by
  decide

/-! ## One step of each command -/

/-- L2.7. -/
theorem test_init :
    answerTo 0x10000003 State.reset = some (0, 0) ∧ regs (after 32 0x10000003 State.reset) = [1, 0, 0, 0, 3, 0, 1] := by
  decide +kernel
theorem test_init_errors :
    answerTo 0x10000401 State.reset = some (1, 0) ∧ answerTo 0x10000000 State.reset = some (1, 0) ∧
    answerTo 0x1000002A (State.resetWith instD) = some (0, 0) ∧
    answerTo 0x1000002B (State.resetWith instD) = some (1, 0) ∧
    regs (after 32 0x10000003 readyA) = [1, 0, 1, 7, 1, 0, 1] := by decide +kernel

/-- L2.6: the accepted `SHOW`, and the bytes of its buffer after 12 render steps and the completion. -/
theorem test_show :
    regs renderingA = [1, 1, 0, 0, 1, 0, 1] ∧ answer 0 renderingA = some (0, 0) ∧
    (shownA.bufBytes (.phase 0)).map BitVec.toNat =
      [0xEE, 0xEE, 0xEE, 0xEE, 0x88, 0x88, 0x88, 0x88, 0x88, 0x88, 0x88, 0x88] ∧
    regs shownA = [1, 0, 0, 0, 1, 0, 1] := by decide +kernel
/-- L2.8. -/
theorem test_show_errors :
    answer 0 (after 64 0x20000001 State.reset) = some (4, 0) ∧ answer 1 (after 64 0x20000001 renderingA) = some (3, 0) ∧
    answerTo 0x20000000 readyA = some (2, 0) ∧ answer 0 (after 64 0x20000001 stoppedA) = some (4, 0) := by
  decide +kernel

/-- L2.9. -/
theorem test_teardown :
    answerTo 0x30000000 readyA = some (0, 0) ∧ regs stoppedA = [2, 0, 0, 0, 1, 0, 0] ∧
    answerTo 0x30000000 stoppedA = some (0, 0) := by decide +kernel
theorem test_teardown_errors :
    answerTo 0x30000000 State.reset = some (4, 0) ∧ answer 1 (after 32 0x30000000 renderingA) = some (3, 0) := by
  decide +kernel

/-- L2.1. -/
theorem test_lutRd :
    answerTo 0x40000280 (State.resetWith instB) = some (0, 45) ∧
    answerTo 0x40000080 (State.resetWith instB) = some (0, 46) ∧ answerTo 0x4000005A State.reset = some (0, 0x5A) := by
  decide +kernel
theorem test_lutRd_range : answerTo 0x40000100 State.reset = some (6, 0) := by decide +kernel

/-- L2.2. -/
theorem test_symRd :
    answerTo 0x50000001 State.reset = some (0, 0x888E) ∧ answerTo 0x50000008 State.reset = some (0, 0xE888) := by
  decide +kernel

/-- L2.3. -/
theorem test_enc :
    answerTo 0x60000012 State.reset = some (0, 0x88E8888E) ∧
    answerTo 0x60000280 (State.resetWith instB) = some (0, 0xEE8E88E8) := by decide +kernel
theorem test_enc_range : answerTo 0x60000200 (State.resetWith instC) = some (6, 0) := by decide +kernel

/-- L2.4 and L2.6. -/
theorem test_bufRdh :
    answerTo 0x70000001 shownA = some (0, 0xEEEE) ∧ answerTo 0x70000005 shownA = some (0, 0x8888) ∧
    answerTo 0x70000000 readyA = some (0, 0) := by decide +kernel
theorem test_bufRdh_errors :
    answerTo 0x70000006 readyA = some (6, 0) ∧ answerTo 0x71000000 readyA = some (6, 0) ∧
    answerTo 0x7F000000 State.reset = some (4, 0) := by decide +kernel
theorem test_bufRdb :
    answerTo 0x80000003 shownA = some (0, 0xEE) ∧ answerTo 0x8000000B shownA = some (0, 0x88) ∧
    answerTo 0x8F000017 shownA = some (0, 0) := by decide +kernel
theorem test_bufRdb_errors :
    answerTo 0x8000000C readyA = some (6, 0) ∧ answerTo 0x8F000018 readyA = some (6, 0) ∧
    answerTo 0x85000000 readyA = some (6, 0) ∧ answerTo 0x8F000000 stoppedA = some (4, 0) := by decide +kernel

/-- L2.5. -/
theorem test_descRd :
    answerTo 0x90000207 readyB = some (0, 0) ∧ answerTo 0x90000001 readyB = some (0, 0xF) ∧
    answerTo 0x90000106 readyB = some (0, 12) ∧ answerTo 0x90000300 readyB = some (0, 3) := by decide +kernel
theorem test_descRd_errors :
    answerTo 0x90000008 readyB = some (6, 0) ∧ answerTo 0x90000000 State.reset = some (4, 0) := by decide +kernel

/-- L2.10, instance B from reset, and after `init 1`. -/
theorem test_regRd :
    [0xA0000005, 0xA0000008, 0xA0000009, 0xA000000A].map (answerTo · (State.resetWith instB)) =
      [some (0, 4), some (0, 0), some (0, 24), some (0, 0xE80)] ∧
    [0xA0000000, 0xA0000004, 0xA0000007, 0xA0000008].map (answerTo · readyB) =
      [some (0, 1), some (0, 1), some (0, 1), some (0, 12)] := by decide +kernel
theorem test_regRd_reserved :
    answerTo 0xA000000B State.reset = some (6, 0) ∧ answerTo 0xA000000F State.reset = some (6, 0) := by decide +kernel

/-- L2.11, L2.2: an illegal word. -/
theorem test_illegal :
    answerTo 0x50000010 readyA = some (5, 0) ∧ regs (after 32 0x50000010 readyA) = [1, 0, 1, 0, 1, 0, 1] := by
  decide +kernel

/-- R121, R124, R53 with the other orders: nibble 1 with `LsbFirst` is `0xE888`, the high nibble's symbol comes
first, and byte `2i` is `s[15:8]`. -/
theorem test_other_orders :
    answerTo 0x50000001 (State.resetWith instOther) = some (0, 0xE888) ∧
    answerTo 0x60000010 (State.resetWith instOther) = some (0, 0xE8888888) ∧ lowOffset instOther 0 = 1 ∧
    answerTo 0xA000000A (State.resetWith instOther) = some (0, 0xE87) := by decide +kernel

/-- R52: an instance that places its phase buffer at bus address 4096 and its gap buffer at 512. -/
theorem test_busAddress :
    let p : Params := { Config.resetInstance with
      descLayout := { fields := [], placement := [{ buf := .phase 0, base := 4096 }, { buf := .gap, base := 512 }] } }
    busAddress p (.phase 0) 5 = some 4101 ∧ busAddress p .gap 0 = some 512 ∧
    busAddress Config.resetInstance .gap 0 = none := by decide

/-- R190, R148: the engine's first twelve reads are of `Phase(0)`, the thirteenth of the gap buffer. -/
theorem test_dmaRead :
    (moves .dmaRead 13 shownA).dma = { configured := true, running := true, cur := 1, off := 1 } ∧
    (moves .dmaRead 5 shownA).stream.map BitVec.toNat = [0xEE, 0xEE, 0xEE, 0xEE, 0x88] := by decide +kernel

/-- L2.4: instance C's tear. After one write of `8E` to `88` at offset 0 the symbol reads `0x8888`. -/
theorem test_render_tear :
    answer 1 (after 32 0x70000000
      (moves .render 1 (after 64 0x20000001 (drawnOrders (moves .render 13 (after 64 0x0000000120000001 readyA)))))) =
      some (0, 0x8888) := by decide +kernel

/-! ## Witnesses: the hypotheses of each statement can be met -/

theorem witness_DecodeOfEncode : (Instr.showPixels 65535 []).wellFormed = false ∧
    (Instr.showPixels 1 [255, 0, 0]).wellFormed = true ∧ (Instr.descRd .flags 15).wellFormed = true := by decide

theorem witness_DecodedWord :
    decode [0x8F0FFFFF, 0] = .ok (.bufRdb 0xF 0xFFFFF) [0] ∧
    decode [0x20000001, 0xFF030201] = .ok (.showPixels 1 [1, 2, 3]) [] := by decide

theorem witness_IllegalWord_noRow : matchesNoRow 0x00000000 ∧ matchesNoRow 0xB0000000 ∧ matchesNoRow 0x90000400 := by
  simp [matchesNoRow, opcodeRows]

/-- A host that is Free with an illegal word to send, and one that waits with it. -/
theorem witness_IllegalWord :
    (({ readyA with hosts := [{ port := .free, inbox := [0], received := [] }] } : State).hosts[0]?) =
      some { port := .free, inbox := [0], received := [] } ∧
    (waitingWith 0xB0000000 { readyA with sched := [.accept 0] }).pending 0 =
      some { word := 0xB0000000, payload := [] } ∧
    (waitingWith 0xB0000000 { readyA with sched := [.accept 0] }).sched = [.accept 0] := by decide +kernel

theorem witness_PayloadBytes :
    ([] : List Word).length < (3 * (1#16).toNat + 3) / 4 ∧ (3 * (1#16).toNat + 3) / 4 ≤ [0#32].length ∧
    (3 * (0#16).toNat + 3) / 4 ≤ ([] : List Word).length := by decide

/-- A scheduled acceptance of a pending command. -/
theorem witness_StepRuns :
    (waitingWith 0x30000000 { readyA with sched := [.accept 0] }).nextMove =
      (.accept 0, waitingWith 0x30000000 { readyA with sched := [] }) ∧
    (waitingWith 0x30000000 { readyA with sched := [] }).pending 0 = some { word := 0x30000000, payload := [] } ∧
    decode [0x30000000] = .ok .teardown [] := by decide +kernel

theorem witness_Placed :
    decodeTableWord 64 0xAB03020120000001 = some (.showPixels 1 [1, 2, 3]) ∧
    readyA.placingHost < readyA.hosts.length ∧ renderingA.placingHost < renderingA.hosts.length := by decide +kernel

theorem witness_OnlyAFreeHost :
    (waitingWith 0x30000000 readyA).hosts[0]? =
      some { port := .waiting { word := 0x30000000, payload := [] }, inbox := [], received := [{ status := .ok, data := 0 }] } ∧
    payloadWords 0x20000001 ≤ [0#32].length ∧ payloadWords 0x30000000 ≤ ([] : List Word).length := by decide +kernel

theorem witness_legalParams :
    legalParams Config.resetInstance = true ∧ legalParams instB = true ∧ legalParams instC = true ∧
    legalParams instD = true ∧ legalParams instOther = true ∧ decidedParams instB = true := by decide +kernel

theorem witness_ResetTakesOneStep :
    ({ renderingA with sched := [.reset, .render] } : State).nextMove.1 = .reset := by decide +kernel

/-- `INIT`: `Ready`, and both answers outside it at the bounds of R174. -/
theorem witness_InitAnswers :
    readyA.reg.state = .ready ∧ State.reset.reg.state ≠ .ready ∧ stoppedA.reg.state ≠ .ready ∧
    allocOK Config.resetInstance 0 = false ∧ allocOK Config.resetInstance 1 = true ∧
    allocOK Config.resetInstance 341 = true ∧ allocOK Config.resetInstance 342 = false ∧
    allocOK instD 42 = true ∧ allocOK instD 43 = false := by decide +kernel

theorem witness_InitAnswers_bounds :
    (1 ≤ (341#16).toNat ∧ (341#16).toNat ≤ Config.resetInstance.maxLeds ∧
      12 * (341#16).toNat ≤ Config.resetInstance.maxDescBytes ∧
      Config.resetInstance.dither * 12 * (341#16).toNat + Config.resetInstance.gapBytes ≤
        Config.resetInstance.bufMemBytes) ∧
    ¬(1 ≤ (0#16).toNat) ∧ ¬(12 * (342#16).toNat ≤ Config.resetInstance.maxDescBytes) := by decide

/-- `SHOW`: each lifecycle state and guard of R177, for the payload of one pixel. -/
theorem witness_ShowAnswers :
    ([1, 2] : List Byte).length ≠ 3 * (1#16).toNat ∧ ([1, 2, 3] : List Byte).length = 3 * (1#16).toNat ∧
    stoppedA.reg.state ≠ .ready ∧ renderingA.reg.state = .ready ∧ renderingA.reg.busy = true ∧
    readyA.reg.state = .ready ∧ readyA.reg.busy = false ∧ readyA.reg.numLeds = 1 ∧ readyA.reg.numLeds ≠ 2 ∧
    ([] : List Byte).length = 3 * (0#16).toNat := by
  decide +kernel

theorem witness_WriteList :
    (List.replicate 6 ByteOrder.lowByteFirst).length = 2 * Config.resetInstance.dither * ([1, 2, 3] : List Byte).length := by
  decide

theorem witness_Inv_reset : Inv State.reset := by decide +kernel
theorem witness_Inv_readyA : Inv readyA := by decide +kernel
theorem witness_Inv_renderingA : Inv renderingA := by decide +kernel
theorem witness_Inv_writtenA : Inv writtenA := by decide +kernel
theorem witness_Inv_shownA : Inv shownA := by decide +kernel
theorem witness_Inv_stoppedA : Inv stoppedA := by decide +kernel
theorem witness_Inv_readyB : Inv readyB := by decide +kernel

/-- A render in flight: its head write, and its completion. -/
theorem witness_Render :
    renderingA.rs.writes.length = 12 ∧ renderingA.rs.writes.head? = some { buf := .phase 0, off := 0, val := 0xEE } ∧
    writtenA.rs = .rendering 0 [] := by decide +kernel

/-- Instance A, `Ready`, host 0 waiting with the `SHOW` of (255,0,0). -/
def askingA : State :=
  { readyA with
    hosts := readyA.hosts.modify 0 fun a => { a with port := .waiting { word := 0x20000001, payload := [0x000000FF] } } }

/-- A `SHOW` that is accepted, in a good state, for a host that waits. -/
theorem witness_AcceptedShow :
    Inv askingA ∧ askingA.reg.state = .ready ∧ askingA.reg.busy = false ∧
    ([255, 0, 0] : List Byte).length = 3 * askingA.reg.numLeds.toNat ∧ askingA.isWaiting askingA.issuer = true ∧
    (exec (.showPixels 1 [255, 0, 0]) askingA matches .next _) = true ∧
    (stateOf (exec (.showPixels 1 [255, 0, 0]) askingA)).reg.busy = true := by decide +kernel

/-- A render of (255,0,0) in flight, from its acceptance on. -/
theorem witness_RenderTracks : RenderTracks [255, 0, 0] renderingA ∧ RenderTracks [255, 0, 0] writtenA := by
  have h (s : State) (w : List ByteWrite) (hr : s.rs = .rendering 0 w) (hn : s.cfg.dither = 1)
      (hl : s.reg.numLeds = 1)
      (hd : ∀ off < 12, (∀ x ∈ w, x.buf = .phase 0 → x.off = off → x.val = streamByte s.cfg [255, 0, 0] 0 off) ∧
        ((∀ x ∈ w, ¬(x.buf = .phase 0 ∧ x.off = off)) →
          s.bufRead (.phase 0) off = some (streamByte s.cfg [255, 0, 0] 0 off))) :
      RenderTracks [255, 0, 0] s := by
    unfold RenderTracks
    rw [hr]
    intro p off hp ho
    rw [hn] at hp
    rw [hl] at ho
    obtain rfl : p = 0 := by omega
    exact hd off ho
  exact ⟨h renderingA renderingA.rs.writes (by decide +kernel) (by decide +kernel) (by decide +kernel)
      (by decide +kernel),
    h writtenA [] (by decide +kernel) (by decide +kernel) (by decide +kernel) (by decide +kernel)⟩

/-- A frame that is shown. -/
theorem witness_FrameShown : FrameShown [255, 0, 0] shownA ∧ shownA.reg.state = .ready := by
  refine ⟨?_, by decide +kernel⟩
  have hn : shownA.cfg.dither = 1 := by decide +kernel
  have hl : 3 * shownA.reg.numLeds.toNat = 3 := by decide +kernel
  have h : ∀ j < 3, shownA.symbolAt 0 (2 * j) = some (encodeByte shownA.cfg 0 (([255, 0, 0] : List Byte).getD j 0)).1 ∧
      shownA.symbolAt 0 (2 * j + 1) = some (encodeByte shownA.cfg 0 (([255, 0, 0] : List Byte).getD j 0)).2 := by
    decide +kernel
  intro p j hp hj
  rw [hn] at hp
  rw [hl] at hj
  obtain rfl : p = 0 := by omega
  exact h j hj

/-- Another host's `SHOW` while host 0's is in flight. -/
theorem witness_OneShowInFlight :
    (({ renderingA with
        hosts := renderingA.hosts.modify 1 fun a => { a with port := .waiting { word := 0x20000001, payload := [0] } }
        sched := [.accept 1] } : State).pending 1) = some { word := 0x20000001, payload := [0] } ∧
    Inv ({ renderingA with
        hosts := renderingA.hosts.modify 1 fun a => { a with port := .waiting { word := 0x20000001, payload := [0] } }
        sched := [.accept 1] } : State) ∧
    decode [0x20000001, 0] = .ok (.showPixels 1 [0, 0, 0]) [] := by decide +kernel

/-- `TEARDOWN`: each row of R172's table. -/
theorem witness_Teardown :
    State.reset.reg.state = .uninitialized ∧ stoppedA.reg.state = .stopped ∧ renderingA.reg.state = .ready ∧
    renderingA.reg.busy = true ∧ readyA.reg.state = .ready ∧ readyA.reg.busy = false ∧
    (stateOf (exec .teardown readyA)).reg.state = .stopped := by decide +kernel

/-- A step that leads to `Ready`. -/
theorem witness_StepToReady :
    (waitingWith 0x10000001 { State.reset with sched := [.accept 0] }).reg.state ≠ .ready ∧
    (stateOf (step (waitingWith 0x10000001 { State.reset with sched := [.accept 0] }))).reg.state = .ready := by
  decide +kernel

/-- Diagnostic reads: phases, selects, indices and descriptors at both sides of each bound, for `N = 4`. -/
theorem witness_Diagnostics :
    readyB.cfg.dither = 4 ∧ readyB.reg.state = .ready ∧ 6 * readyB.reg.numLeds.toNat = 6 ∧
    (3#3).toNat < readyB.cfg.dither ∧ readyB.cfg.dither ≤ (4#3).toNat ∧ (5#20).toNat < 6 * readyB.reg.numLeds.toNat ∧
    6 * readyB.reg.numLeds.toNat ≤ (6#20).toNat ∧ (11#20).toNat < 12 * readyB.reg.numLeds.toNat ∧
    12 * readyB.reg.numLeds.toNat ≤ (12#20).toNat ∧ (23#20).toNat < readyB.cfg.gapBytes ∧
    readyB.cfg.gapBytes ≤ (24#20).toNat ∧ readyB.cfg.dither ≤ (0xE#4).toNat ∧ (0xE#4 : BitVec 4) ≠ 0xF ∧
    (7#4).toNat < 2 * readyB.cfg.dither ∧ 2 * readyB.cfg.dither ≤ (8#4).toNat ∧ 11 ≤ (11#4).toNat := by decide +kernel

theorem witness_LutRd_example :
    (State.resetWith instB).cfg.dither = 4 ∧ (State.resetWith instB).cfg.gdt = referenceTable 4 5 2 := ⟨rfl, rfl⟩

/-- The identity table is the one for `GAMMA = 1` (R106 (d)). -/
theorem identity_entry : ∀ v : Byte, gdtEntry Config.resetInstance 0 v = v := by decide +kernel

/-- Instance A's table is admissible for `GAMMA = 1`. -/
theorem witness_Admissible : AdmissibleFor 1 Config.resetInstance ∧ Admissible Config.resetInstance := by
  have h : AdmissibleFor 1 Config.resetInstance := by
    intro v f hf
    have hv : f = (v.toNat : ℝ) := by
      rw [hf, Real.rpow_one]
      ring
    subst hv
    have hd : Config.resetInstance.dither = 1 := rfl
    refine ⟨?_, ?_, ?_⟩
    · intro p hp
      obtain rfl : p = 0 := by omega
      rw [identity_entry]
      exact .inl (by simp)
    · rw [hd]
      simp [identity_entry]
    · intro p q hp hq
      obtain rfl : p = 0 := by omega
      obtain rfl : q = 0 := by omega
      omega
  exact ⟨h, 1, one_pos, h⟩

/-- Instance A's table is the reference one for `GAMMA = 1`. -/
theorem witness_Reference : IsReferenceFor 1 Config.resetInstance ∧ Config.resetInstance.dither = 1 := by
  refine ⟨?_, rfl⟩
  intro v f hf p hp
  have hv : f = (v.toNat : ℝ) := by
    rw [hf, Real.rpow_one]
    ring
  subst hv
  obtain rfl : p = 0 := by have : Config.resetInstance.dither = 1 := rfl; omega
  have hk : ⌊(2⁻¹ : ℝ)⌋ = 0 := by rw [Int.floor_eq_zero_iff]; norm_num
  rw [identity_entry]
  simp [hk]

theorem witness_ReferenceTable : instB.gdt = referenceTable instB.dither 5 2 ∧ 1 ≤ instB.dither := ⟨rfl, by decide⟩

/-- A value of the ideal curve that is an integer. -/
theorem witness_IsIdeal : IsIdeal 1 255 ((255 : ℤ) : ℝ) ∧ IsIdeal ((1 : ℕ) / (1 : ℕ)) 0 ((0 : ℤ) : ℝ) := by
  constructor
  · have h : ((255 : Byte).toNat : ℝ) = 255 := by
      have : (255 : Byte).toNat = 255 := by decide
      rw [this]; norm_num
    rw [IsIdeal, h]
    norm_num
  · simp [IsIdeal]

theorem witness_decided : decidedParams Config.resetInstance = true ∧ gdtEntry Config.resetInstance 0 0x12 = 0x12 ∧
    (gdtEntry Config.resetInstance 0 0xFF).extractLsb' 0 4 = (gdtEntry Config.resetInstance 0 0xFF).extractLsb' 4 4 := by
  decide +kernel

/-- The step of each agent from a `Ready` state answers a next state. -/
theorem witness_Steps :
    [Move.issue 0, .accept 0, .render, .dmaRead, .dmaFlags 1 false true, .reset].all (fun m =>
      match step { shownA with sched := [m] } with
      | .next _ => true
      | .fault _ => false
      | .refused _ => false) = true := by decide +kernel

/-- The one refusal: a host that sends a `SHOW` without its payload. -/
theorem witness_ShortPayload :
    ([] : List Word).length < payloadWords 0x20000001 ∧
    (match stepIssue 0 { State.reset with hosts := [{ port := .free, inbox := [0x20000001], received := [] }] } with
      | .next _ => false
      | .fault _ => false
      | .refused r => r == .payloadLength) = true := by decide +kernel

/-- R25: the completion step gives a response to a lifecycle command. -/
theorem witness_LifecycleResponse :
    LifecycleResponse { writtenA with sched := [.render] } (stateOf (step { writtenA with sched := [.render] }))
      { status := .ok, data := 0 } ∧ Inv { writtenA with sched := [.render] } := by
  refine ⟨⟨0, ⟨writtenA.hosts[0]'(by decide +kernel), ?_, ?_⟩, .inl ⟨rfl, ?_⟩⟩, ?_⟩ <;> decide +kernel

/-- The next moves of a schedule that lists some, and the fair moves by turns (R178, R190). -/
theorem test_nextMove :
    ({ State.reset with sched := [.dmaRead, .render] } : State).nextMove =
      (.dmaRead, { State.reset with sched := [.render] }) ∧
    (List.range 4).map fairMove = [.render, .dmaRead, .render, .dmaRead] := by decide +kernel

/-- A traversal from the head: no render, cursor at the head, and its length. -/
theorem witness_Traversal :
    shownA.rs = .idle ∧ shownA.dma.cur = 0 ∧ shownA.dma.off = 0 ∧
    shownA.cfg.dither * (12 * shownA.reg.numLeds.toNat + shownA.cfg.gapBytes) = 36 := by decide +kernel

/-- The engine running and not; flags writable and not. -/
theorem witness_Engine :
    State.reset.dma.running = false ∧ readyB.dma.configured = true ∧ readyB.reg.state = .ready ∧
    ¬(stoppedA.dma.configured = true ∧ stoppedA.reg.state = .ready) ∧ stoppedA.dma.configured = true := by
  decide +kernel

/-- A render step that changes a byte while the block stays `Ready`. -/
theorem witness_RenderStep :
    (step { renderingA with sched := [.render] } matches .next _) = true ∧
    (stateOf (step { renderingA with sched := [.render] })).bufRead (.phase 0) 0 = some 0xEE ∧
    renderingA.bufRead (.phase 0) 0 = some 0 := by decide +kernel

/-- Buffers that are all zero, with no render in flight. -/
theorem witness_AllZero : readyA.rs = .idle ∧ ∀ b off x, readyA.bufRead b off = some x → x = 0 := by
  refine ⟨by decide +kernel, ?_⟩
  have hm : readyA.mem = { allocated := true, phase := [[]], gap := [] } := by decide +kernel
  intro b off x h
  unfold State.bufRead at h
  rw [hm] at h
  split at h
  · cases b with
    | gap => simpa [BufferMemory.buffer, Memory.read] using h.symm
    | phase p =>
      cases p with
      | zero => simpa [BufferMemory.buffer, Memory.read] using h.symm
      | succ p => simp [BufferMemory.buffer] at h
  · cases h

/-- A program that has ended, properly (R195); one whose `FAULT` is 1 has not. -/
theorem test_ended :
    shownA.ended = true ∧ shownA.properEnd = true ∧ renderingA.ended = false ∧
    (after 32 0x10000001 readyA).properEnd = false := by decide +kernel

end Sys2Proof.Tests
end

/-! SUPPORT. The proofs about the state: its reset values, `CONFIG`, and `LAST_ERR`. -/

namespace Sys2Proof.Machine

/-! ## `CONFIG` (R32) -/

/-- The lowest bit of a word that ends in a one-bit field. -/
theorem getLsbD_append_bit_zero {n : Nat} (x : BitVec n) (b : Bool) : (x ++ bit b).getLsbD 0 = b := by
  rw [BitVec.getLsbD_append]
  simp [bit]

/-- The bits above a one-bit field are those of the word before it. -/
theorem getLsbD_append_bit_succ {n : Nat} (x : BitVec n) (b : Bool) (k : Nat) :
    (x ++ bit b).getLsbD (k + 1) = x.getLsbD k := by
  simp [bit, BitVec.getLsbD_append]

theorem configWord_nibbleOrder (cfg : Params) :
    (configWord cfg).getLsbD 0 = true ↔ cfg.nibbleOrder = .highFirst := by
  rw [configWord, getLsbD_append_bit_zero, beq_iff_eq]

theorem configWord_bufEndian (cfg : Params) :
    (configWord cfg).getLsbD 1 = true ↔ cfg.bufEndian = .big := by
  rw [configWord, getLsbD_append_bit_succ, getLsbD_append_bit_zero, beq_iff_eq]

theorem configWord_groupOrder (cfg : Params) :
    (configWord cfg).getLsbD 2 = true ↔ cfg.groupOrder = .lsbFirst := by
  rw [configWord, getLsbD_append_bit_succ, getLsbD_append_bit_succ, getLsbD_append_bit_zero, beq_iff_eq]

theorem configWord_bit_three (cfg : Params) : (configWord cfg).getLsbD 3 = false := by
  rw [configWord, getLsbD_append_bit_succ, getLsbD_append_bit_succ, getLsbD_append_bit_succ, BitVec.getLsbD_append]
  simp

/-- Above its four single bits `CONFIG` has the two patterns and zeros. -/
theorem configWord_high (cfg : Params) (k l : Nat) : (configWord cfg).extractLsb' (k + 4) l =
    (0#20 ++ cfg.longPat ++ cfg.shortPat).extractLsb' k l := by
  rw [configWord, extract_append_high _ _ (by omega), extract_append_high _ _ (by omega),
    extract_append_high _ _ (by omega), extract_append_high _ _ (by omega)]
  rfl

theorem configWord_shortPat (cfg : Params) : (configWord cfg).extractLsb' 4 4 = cfg.shortPat := by
  rw [configWord_high cfg 0 4, extract_append_low _ _ (by omega), extract_all]

theorem configWord_longPat (cfg : Params) : (configWord cfg).extractLsb' 8 4 = cfg.longPat := by
  rw [configWord_high cfg 4 4, extract_append_high _ _ (by omega), extract_append_low _ _ (by omega), extract_all]

theorem configWord_zeros (cfg : Params) : (configWord cfg).extractLsb' 12 20 = 0 := by
  rw [configWord_high cfg 8 20, extract_append_high _ _ (by omega), extract_append_high _ _ (by omega), extract_all]
  rfl

theorem configWord_of_decided {cfg : Params} (h : decidedParams cfg = true) : configWord cfg = 0x00000E80 := by
  simp only [decidedParams, Bool.and_eq_true, beq_iff_eq] at h
  obtain ⟨⟨⟨⟨⟨⟨⟨hs, hl⟩, hg⟩, hn⟩, he⟩, _⟩, _⟩, _⟩ := h
  rw [configWord, hs, hl, hg, hn, he]
  decide

/-! ## The reset values (R44) -/

/-- Register `DITHER_COUNT` of a legal instance reads `N` (R27). -/
theorem regValue_dither {s : State} (h : legalParams s.cfg = true) :
    regValue s 5 = some (BitVec.ofNat 32 s.cfg.dither) := by
  have hd : s.cfg.dither ≤ 8 := (legalParams_bounds h).2.1
  simp only [regValue, BitVec.reduceEq, if_true, if_false, Option.some.injEq]
  apply BitVec.eq_of_toNat_eq
  simp only [BitVec.truncate_eq_setWidth, BitVec.toNat_setWidth, BitVec.toNat_ofNat]
  omega

/-- Register `GAP_BYTES` of a legal instance reads its length (R31). -/
theorem regValue_gapBytes {s : State} (h : legalParams s.cfg = true) :
    (regValue s 9).map BitVec.toNat = some s.cfg.gapBytes := by
  have hg : s.cfg.gapBytes < 2 ^ 32 := (legalParams_bounds h).2.2.2.1
  simp only [regValue, BitVec.reduceEq, if_true, if_false, Option.map_some, BitVec.toNat_ofNat,
    Nat.mod_eq_of_lt hg]

/-- No location exists while the buffer memory is not allocated (R39). -/
theorem State.bufRead_of_not_allocated {s : State} (h : s.mem.allocated = false) (b : Buf) (off : Nat) :
    s.bufRead b off = none := by
  simp [State.bufRead, h]

theorem State.resetWith_port {p : Params} {a : HostAgent} (h : a ∈ (State.resetWith p).hosts) :
    a.port = .free := by
  rw [State.resetWith_hosts] at h
  rw [List.eq_of_mem_replicate h]

/-! ## The state in which a move is taken -/

@[simp] theorem State.nextMove_reg (s : State) : s.nextMove.2.reg = s.reg := by
  obtain ⟨_, _, h⟩ := s.nextMove_state; rw [h]

@[simp] theorem State.nextMove_rs (s : State) : s.nextMove.2.rs = s.rs := by
  obtain ⟨_, _, h⟩ := s.nextMove_state; rw [h]

@[simp] theorem State.nextMove_hosts (s : State) : s.nextMove.2.hosts = s.hosts := by
  obtain ⟨_, _, h⟩ := s.nextMove_state; rw [h]

@[simp] theorem State.nextMove_pending (s : State) (h : Nat) : s.nextMove.2.pending h = s.pending h := by
  obtain ⟨_, _, h⟩ := s.nextMove_state; rw [h]; rfl

/-- A step performs its move. -/
theorem step_eq_takeMove {s : State} {m : Move} (h : s.nextMove.1 = m) : step s = takeMove m s.nextMove.2 := by
  rw [step, h]

/-- The acceptance step of a command that decodes whole runs it (R171). -/
theorem stepAccept_of_decode {h : Nat} {s : State} {cmd : Txn} {i : Instr} (hp : s.pending h = some cmd)
    (hd : decode (cmd.word :: cmd.payload) = .ok i []) : stepAccept h s = exec i { s with issuer := h } := by
  simp [stepAccept, hp, hd]

/-! ## Who is given a response -/

/-- Where the hosts change by response `q` to host `h`, host `h` is given `q` and nothing else. -/
theorem givesResponse_iff {s t : State} {h : Nat} {q r : Response} {a : HostAgent}
    (ht : t.hosts = (s.respondTo h q).hosts) (ha : s.hosts[h]? = some a) : GivesResponse s t h r ↔ r = q := by
  simp only [GivesResponse, ht, State.respondTo_same q ha, ha, Option.some.injEq]
  constructor
  · rintro ⟨_, rfl, h⟩
    simpa using (congrArg HostAgent.received h).symm
  · rintro rfl
    exact ⟨a, rfl, rfl⟩

/-- Where the hosts are as before, none is given a response. -/
theorem not_givesResponse {s t : State} (ht : t.hosts = s.hosts) (h : Nat) (r : Response) :
    ¬GivesResponse s t h r := by
  rintro ⟨a, ha, hb⟩
  rw [ht, ha, Option.some.injEq] at hb
  simpa using congrArg (fun b => b.received.length) hb

/-- The host whose `SHOW` is in flight in a good state is there. -/
theorem Inv.renderHost {s : State} (hi : Inv s) {h : Nat} {w : List ByteWrite} (hr : s.rs = .rendering h w) :
    ∃ a, s.hosts[h]? = some a := by
  obtain ⟨_, _, _, _, _, _, _, _, _, _, hw, _⟩ := hi
  simp only [State.renderHostWaits, hr, State.isWaiting] at hw
  cases ha : s.hosts[h]? with
  | none => simp [ha] at hw
  | some a => exact ⟨a, rfl⟩

/-! ## `LAST_ERR` (R25) -/

/-- The acceptance of a lifecycle command answers with the status it leaves in `LAST_ERR`, or accepts a
`SHOW`, and then it neither answers nor writes `LAST_ERR`. -/
theorem exec_lifecycle_lastErr {i : Instr} {s t : State} (hl : isLifecycle i = true) (h : exec i s = .next t) :
    (∃ r, t.hosts = (s.respondTo s.issuer r).hosts ∧ t.reg.lastErr = r.status) ∨
    (t.hosts = s.hosts ∧ t.reg.lastErr = s.reg.lastErr ∧ t.reg.busy = true) := by
  cases exec_cases h with
  | error _ e _ => exact .inl ⟨⟨e, 0⟩, by simp, by simp [State.raise_reg, hl]⟩
  | read _ _ hd => simp [hl] at hd
  | initialise => exact .inl ⟨⟨.ok, 0⟩, rfl, rfl⟩
  | accepted => exact .inr ⟨rfl, rfl, rfl⟩
  | stopAgain => exact .inl ⟨⟨.ok, 0⟩, rfl, rfl⟩
  | stop => exact .inl ⟨⟨.ok, 0⟩, rfl, rfl⟩

/-- A diagnostic command leaves `LAST_ERR`. -/
theorem exec_diagnostic_lastErr {i : Instr} {s t : State} (hd : isLifecycle i = false) (h : exec i s = .next t) :
    t.reg.lastErr = s.reg.lastErr := by
  cases exec_cases h with
  | error => simp [State.raise_reg, hd]
  | read => rfl
  | initialise => cases hd
  | accepted => cases hd
  | stopAgain => cases hd
  | stop => cases hd

/-- The completion step of a `SHOW`. -/
theorem stepRender_of_completion {s : State} {h : Nat} (hr : s.rs = .rendering h []) :
    stepRender s = .next (s.completeShow h) := by
  simp [stepRender, hr]

/-- A response to a lifecycle command leaves its status in `LAST_ERR`. -/
theorem lifecycleResponse_lastErr {s t : State} {r : Response} (hs : step s = .next t)
    (hr : LifecycleResponse s t r) : t.reg.lastErr = r.status := by
  obtain ⟨h, hg, ⟨hm, hrs⟩ | ⟨cmd, i, hm, hp, hd, hl⟩⟩ := hr
  · obtain ⟨a, ha, -⟩ := id hg
    rw [step_eq_takeMove hm, takeMove, stepRender_of_completion (by simpa using hrs)] at hs
    cases hs
    rw [(givesResponse_iff (q := ⟨.ok, 0⟩) (by simp) ha).mp hg, State.completeShow_reg]
  · obtain ⟨a, ha, -⟩ := id hg
    rw [step_eq_takeMove hm, takeMove, stepAccept_of_decode (by simpa using hp) hd] at hs
    obtain ⟨q, hh, hq⟩ | ⟨hh, -, -⟩ := exec_lifecycle_lastErr hl hs
    · rw [(givesResponse_iff (by simpa using hh) ha).mp hg, hq]
    · exact absurd hg (not_givesResponse (by simpa using hh) h r)

/-- A step of a good state that gives no response to a lifecycle command and is no reset leaves `LAST_ERR`. -/
theorem step_lastErr_of_no_lifecycleResponse {s t : State} (hi : Inv s) (hs : step s = .next t)
    (hn : ¬∃ r, LifecycleResponse s t r) (hm : s.nextMove.1 ≠ .reset) : t.reg.lastErr = s.reg.lastErr := by
  rw [← s.nextMove_reg]
  obtain ⟨m, hmv⟩ : ∃ m, s.nextMove.1 = m := ⟨_, rfl⟩
  rw [step_eq_takeMove hmv] at hs
  cases m with
  | issue h =>
    obtain rfl | ⟨_, _, _, _, _, _, _, rfl⟩ := stepIssue_cases hs <;> rfl
  | accept h =>
    obtain ⟨_, rfl⟩ | ⟨cmd, i, hp, hd, he⟩ | ⟨_, _, _, _, _, rfl⟩ := stepAccept_cases hs
    · rfl
    · rw [State.nextMove_pending] at hp
      cases hl : isLifecycle i with
      | false => exact (exec_diagnostic_lastErr hl he :)
      | true =>
        obtain ⟨r, hh, -⟩ | ⟨-, hq, -⟩ := exec_lifecycle_lastErr hl he
        · obtain ⟨-, -, a, ha, -⟩ := State.pending_some hp
          exact absurd ⟨r, h, (givesResponse_iff (by simpa using hh) ha).mpr rfl,
            .inr ⟨cmd, i, hmv, hp, hd, hl⟩⟩ hn
        · exact hq
    · rfl
  | render =>
    obtain ⟨_, rfl⟩ | ⟨h, hr, rfl⟩ | ⟨_, _, _, _, _, hu, rfl⟩ := stepRender_cases hs
    · rfl
    · rw [State.nextMove_rs] at hr
      obtain ⟨a, ha⟩ := hi.renderHost hr
      exact absurd ⟨⟨.ok, 0⟩, h, (givesResponse_iff (by simp) ha).mpr rfl, .inl ⟨hmv, hr⟩⟩ hn
    · obtain ⟨_, _, _, _, rfl⟩ := State.bufWrite_eq_some.mp hu
      rfl
  | dmaRead =>
    obtain ⟨_, rfl⟩ | ⟨_, _, _, _, _, rfl⟩ := stepDmaRead_cases hs <;> rfl
  | dmaFlags =>
    obtain ⟨_, rfl, _⟩ := stepDmaFlags_links hs
    rfl
  | reset => exact absurd hmv hm

/-- A reset leaves `LAST_ERR` OK (R44, R240). -/
theorem step_lastErr_of_reset {s t : State} (hs : step s = .next t) (hm : s.nextMove.1 = .reset) :
    t.reg.lastErr = .ok := by
  rw [step_eq_takeMove hm] at hs
  cases hs
  rfl

/-- Register 3 reads the code of `LAST_ERR` (R34). -/
theorem regValue_lastErr (s : State) : regValue s 3 = some (BitVec.ofNat 32 s.reg.lastErr.code.toNat) := by
  simp only [regValue, BitVec.reduceEq, if_true, if_false]
  cases s.reg.lastErr <;> rfl

/-! ## The obligations -/

/-- Settles O35: a step's response to a lifecycle command determines its `LAST_ERR`, by the moves of the
agents; the good state gives the completing `SHOW` its host. -/
theorem lastErrIsTheLastLifecycleStatus : Obligations.LastErrIsTheLastLifecycleStatus := by
  refine ⟨fun s t hi hs => ⟨fun r => lifecycleResponse_lastErr hs, step_lastErr_of_no_lifecycleResponse hi hs,
    step_lastErr_of_reset hs⟩, fun i s t a hl h ha => ?_, fun i s t => exec_diagnostic_lastErr, fun s => rfl,
    fun s t h hr hs => ?_, fun p => rfl, regValue_lastErr⟩
  · refine (exec_lifecycle_lastErr hl h).imp_left fun ⟨r, hh, hq⟩ => ⟨r, ?_, hq⟩
    rw [hh, State.respondTo_same r ha]
  · rw [stepRender_of_completion hr] at hs
    cases hs
    rfl

/-- Settles O9: each component by its reset law, the hard-wired registers by the bounds of a legal instance. -/
theorem resetStateHoldsItsValues : Obligations.ResetStateHoldsItsValues := fun _ =>
  ⟨rfl, rfl, rfl, rfl, rfl, rfl, rfl, fun hp => ⟨regValue_dither hp, regValue_gapBytes hp⟩, rfl, rfl, rfl,
    rfl, State.bufRead_of_not_allocated rfl, rfl, rfl, rfl, by simp, fun _ => State.resetWith_port⟩

/-- Settles O31, field by field. -/
theorem configRegisterFields : Obligations.ConfigRegisterFields := fun cfg =>
  ⟨configWord_nibbleOrder cfg, configWord_bufEndian cfg, configWord_groupOrder cfg, configWord_bit_three cfg,
    configWord_shortPat cfg, configWord_longPat cfg, configWord_zeros cfg, configWord_of_decided⟩

end Sys2Proof.Machine

/-! SUPPORT. The proofs about the encoding: the rows of the opcode table, illegal words, and the examples of R87. -/

namespace Sys2Proof

/-! ## A masked word, field by field -/

/-- A mask and a match that are appends test the upper and the lower part of a word each by itself. -/
theorem and_append_eq_append_iff {n m : Nat} (x : BitVec (n + m)) (a c : BitVec n) (b d : BitVec m) :
    x &&& (a ++ b) = c ++ d ↔ x.extractLsb' m n &&& a = c ∧ x.extractLsb' 0 m &&& b = d := by
  have hx : x.extractLsb' m n ++ x.extractLsb' 0 m = x := by
    rw [BitVec.extractLsb'_append_extractLsb'_eq_extractLsb' (by omega), extract_all]
  constructor
  · intro h
    have high := congrArg (BitVec.extractLsb' m n) h
    have low := congrArg (BitVec.extractLsb' 0 m) h
    rw [BitVec.extractLsb'_and] at high low
    simp only [extract_append_high _ _ le_rfl, Nat.sub_self, extract_all] at high
    simp only [extract_append_low _ _ (Nat.zero_add m).le, extract_all] at low
    exact ⟨high, low⟩
  · rintro ⟨rfl, rfl⟩
    rw [← BitVec.and_append, hx]

/-- A row of the opcode table tests the opcode and, by its mask `b`, the operand bits (R72). -/
theorem row_iff_opField (w : Word) (op : BitVec 4) (b : BitVec 28) :
    w &&& (BitVec.allOnes 4 ++ b) = op ++ 0#28 ↔ opField w = op ∧ w.extractLsb' 0 28 &&& b = 0#28 := by
  refine (and_append_eq_append_iff (n := 4) (m := 28) w _ _ _ _).trans ?_
  rw [BitVec.and_allOnes, opField]

/-- A masked vector is zero where every bit under the mask is. -/
theorem and_eq_zero_iff_bits {n : Nat} (x b : BitVec n) :
    x &&& b = 0#n ↔ ∀ i < n, b.getLsbD i = true → x.getLsbD i = false := by
  simp only [BitVec.eq_of_getLsbD_eq_iff, BitVec.getLsbD_and, BitVec.getLsbD_zero, Bool.and_eq_false_iff,
    or_iff_not_imp_right, Bool.not_eq_false]

/-- A field is zero where every bit of it is. -/
theorem extract_eq_zero_iff_bits {n : Nat} (x : BitVec n) (k l : Nat) :
    x.extractLsb' k l = 0#l ↔ ∀ i, k ≤ i → i < k + l → x.getLsbD i = false := by
  simp only [BitVec.eq_of_getLsbD_eq_iff, BitVec.getLsbD_extractLsb', BitVec.getLsbD_zero]
  constructor
  · intro h i hk hl
    simpa [show i - k < l by omega, Nat.add_sub_of_le hk] using h (i - k) (by omega)
  · intro h i hi
    simp [h (k + i) (by omega) (by omega)]

/-- The mask of the operand bits from `k` on, `l` of them. -/
def fieldMask (k l : Nat) : BitVec 28 := (BitVec.allOnes l).setWidth 28 <<< k

theorem getLsbD_fieldMask {k l i : Nat} (hi : i < 28) : (fieldMask k l).getLsbD i = true ↔ k ≤ i ∧ i < k + l := by
  simp only [fieldMask, BitVec.getLsbD_shiftLeft, BitVec.getLsbD_setWidth, BitVec.getLsbD_allOnes,
    Bool.and_eq_true, decide_eq_true_eq, Bool.not_eq_true', decide_eq_false_iff_not]
  omega

/-- A mask of one field tests that the field is zero. -/
theorem and_fieldMask_eq_zero_iff (w : Word) {k l : Nat} (hkl : k + l ≤ 28) :
    w.extractLsb' 0 28 &&& fieldMask k l = 0#28 ↔ w.extractLsb' k l = 0#l := by
  rw [← BitVec.extractLsb'_extractLsb'_of_le hkl, and_eq_zero_iff_bits, extract_eq_zero_iff_bits]
  constructor
  · intro h i hk hl
    exact h i (by omega) ((getLsbD_fieldMask (by omega)).mpr ⟨hk, hl⟩)
  · intro h i hi hm
    obtain ⟨hk, hl⟩ := (getLsbD_fieldMask hi).mp hm
    exact h i hk hl

/-- A row whose reserved bits are one field (R73 to R77, R79). -/
theorem row_iff_of_field (w : Word) (op : BitVec 4) (k l : Nat) (hkl : k + l ≤ 28) :
    w &&& (BitVec.allOnes 4 ++ fieldMask k l) = op ++ 0#28 ↔ opField w = op ∧ w.extractLsb' k l = 0 :=
  (row_iff_opField w op _).trans (and_congr_right' (and_fieldMask_eq_zero_iff w hkl))

/-- A row whose reserved bits are two fields (R78). -/
theorem row_iff_of_two_fields (w : Word) (op : BitVec 4) (k l k' l' : Nat) (hkl : k + l ≤ 28)
    (hkl' : k' + l' ≤ 28) :
    w &&& (BitVec.allOnes 4 ++ (fieldMask k l ||| fieldMask k' l')) = op ++ 0#28 ↔
      opField w = op ∧ w.extractLsb' k l = 0 ∧ w.extractLsb' k' l' = 0 := by
  rw [row_iff_opField, BitVec.and_or_distrib_left, BitVec.or_eq_zero_iff, and_fieldMask_eq_zero_iff w hkl,
    and_fieldMask_eq_zero_iff w hkl']
  rfl

/-- A row whose mask holds the whole opcode is matched by words of its own opcode only. -/
theorem opField_of_masked {w M m : Word} (hM : opField M = 15#4) (h : w &&& M = m) : opField w = opField m := by
  have hw : opField w &&& opField M = opField m := by rw [← h]; exact BitVec.extractLsb'_and.symm
  rw [← hw, hM]
  exact BitVec.and_allOnes.symm

end Sys2Proof

namespace Sys2Proof.Machine

/-! ## Illegal words (R82) -/

/-- One opcode of the decoder against the first of the rows: it rejects exactly what the row rejects, and
the opcodes after it what the rows after it reject, none of which has the same opcode. -/
theorem exists_illegal_ite_iff {w M m : Word} {op : BitVec 4} {reserved : Prop} [Decidable reserved]
    {head rest : Head} {cause : IllegalCause} {rows : List (Word × Word)} (hhead : ∀ c, head ≠ .illegal c)
    (hrow : w &&& M = m ↔ opField w = op ∧ reserved)
    (hops : rows.all (fun r => opField r.1 == 15#4 && opField r.2 != op) = true)
    (hrest : (∃ c, rest = .illegal c) ↔ ∀ r ∈ rows, w &&& r.1 ≠ r.2) :
    (∃ c, (if opField w = op then if reserved then head else .illegal cause else rest) = .illegal c) ↔
      ∀ r ∈ (M, m) :: rows, w &&& r.1 ≠ r.2 := by
  simp only [List.all_eq_true, Bool.and_eq_true, beq_iff_eq, bne_iff_ne] at hops
  rw [List.forall_mem_cons, Ne, hrow]
  by_cases hop : opField w = op
  · have hrows : ∀ r ∈ rows, w &&& r.1 ≠ r.2 := fun r hr h =>
      (hops r hr).2 (opField_of_masked (hops r hr).1 h ▸ hop)
    rw [if_pos hop, and_iff_left hrows]
    by_cases hres : reserved
    · simp [hop, hres, hhead]
    · simp [hres]
  · simp [hop, hrest]

/-- The decoder rejects exactly the command words that match no row, opcode by opcode in the order of R72. -/
theorem exists_decodeHead_illegal_iff (w : Word) : (∃ cause, decodeHead w = .illegal cause) ↔ matchesNoRow w := by
  unfold decodeHead matchesNoRow opcodeRows
  refine exists_illegal_ite_iff nofun (row_iff_of_field w 0x1#4 16 12 (by decide)) (by decide) <|
    exists_illegal_ite_iff nofun (row_iff_of_field w 0x2#4 16 12 (by decide)) (by decide) <|
    exists_illegal_ite_iff nofun (row_iff_of_field w 0x3#4 0 28 (by decide)) (by decide) <|
    exists_illegal_ite_iff nofun (row_iff_of_field w 0x4#4 11 17 (by decide)) (by decide) <|
    exists_illegal_ite_iff nofun (row_iff_of_field w 0x5#4 4 24 (by decide)) (by decide) <|
    exists_illegal_ite_iff nofun (row_iff_of_field w 0x6#4 11 17 (by decide)) (by decide) <|
    exists_illegal_ite_iff nofun (row_iff_of_field w 0x7#4 20 4 (by decide)) (by decide) <|
    exists_illegal_ite_iff nofun (row_iff_of_field w 0x8#4 20 4 (by decide)) (by decide) <|
    exists_illegal_ite_iff nofun (row_iff_of_two_fields w 0x9#4 10 18 4 4 (by decide) (by decide)) (by decide) <|
    exists_illegal_ite_iff nofun (row_iff_of_field w 0xA#4 4 24 (by decide)) (by decide) ?_
  exact iff_of_true ⟨_, rfl⟩ nofun

/-- A list of words is illegal exactly when its first word is, and one word is taken. -/
theorem decode_cons_eq_illegal_iff {w : Word} {ws rest : List Word} {cause : IllegalCause} :
    decode (w :: ws) = .illegal cause rest ↔ decodeHead w = .illegal cause ∧ ws = rest := by
  unfold decode
  cases hw : decodeHead w with
  | plain i => simp [hw]
  | illegal c => simp [hw]
  | showHead count =>
    simp only [hw, reduceCtorEq, false_and, iff_false]
    split <;> simp

theorem exists_decode_illegal_iff (w : Word) (ws : List Word) :
    (∃ cause, decode (w :: ws) = .illegal cause ws) ↔ matchesNoRow w := by
  simp only [decode_cons_eq_illegal_iff, and_true, exists_decodeHead_illegal_iff]

theorem exists_decode_illegal_rest_iff (w : Word) (ws : List Word) :
    (∃ cause rest, decode (w :: ws) = .illegal cause rest) ↔ matchesNoRow w := by
  simp only [decode_cons_eq_illegal_iff, exists_and_left, exists_eq', and_true, exists_decodeHead_illegal_iff]

/-- An illegal word asks for no payload. -/
theorem payloadWords_of_matchesNoRow {w : Word} (h : matchesNoRow w) : payloadWords w = 0 := by
  obtain ⟨cause, hc⟩ := (exists_decodeHead_illegal_iff w).mpr h
  simp [payloadWords, hc]

/-- A Free host issues its next word with the payload words it asks for (R171). -/
theorem stepIssue_of_free {s : State} {h : Nat} {a : HostAgent} {w : Word} {ws : List Word}
    (ha : s.hosts[h]? = some a) (hp : a.port = .free) (hi : a.inbox = w :: ws) (hl : payloadWords w ≤ ws.length) :
    stepIssue h s = .next { s with hosts := s.hosts.set h { a with
      port := .waiting { word := w, payload := ws.take (payloadWords w) }
      inbox := ws.drop (payloadWords w) } } := by
  simp [stepIssue, ha, hp, hi, hl]

/-- The acceptance step of an illegal word (R82). -/
theorem stepAccept_of_illegal {h : Nat} {s : State} {cmd : Txn} {cause : IllegalCause} {rest : List Word}
    (hp : s.pending h = some cmd) (hd : decode (cmd.word :: cmd.payload) = .illegal cause rest) :
    stepAccept h s = .next ({ s with issuer := h } : State).illegalWord := by
  simp [stepAccept, hp, hd]

/-- An illegal word sets `FAULT` and is answered, and that is all (R82). -/
theorem State.illegalWord_eq (s : State) : s.illegalWord = { s with
    reg := { s.reg with fault := true }
    hosts := s.hosts.modify s.issuer fun a =>
      { a with port := .free, received := a.received ++ [{ status := .illegalCommand, data := 0 }] } } := by
  simp [State.illegalWord, State.markFault, State.respond, State.respondTo, Status.setsFault]

/-! ## The examples of R87 -/

/-- Nine bytes are packed into three words (R70). -/
theorem encode_show_three {P : List Byte} (h : P.length = 9) :
    ∃ a b c, encode (.showPixels 3 P) = [0x20000003, a, b, c] := by
  obtain ⟨a, b, c, hP⟩ := List.length_eq_three.mp (show (packBytes P).length = 3 by rw [packBytes_length, h])
  exact ⟨a, b, c, by rw [encode, hP]; rfl⟩

/-! ## The obligations -/

/-- Settles O4: the decoder's opcodes against the rows of the table, then the one word that is issued and the
acceptance step of an illegal word. -/
theorem illegalWordRespondsAndMarksFault : Obligations.IllegalWordRespondsAndMarksFault := by
  refine ⟨fun w ws => ⟨exists_decode_illegal_iff w ws, exists_decode_illegal_rest_iff w ws⟩,
    fun s h a w ws hw ha hp hi => ?_, fun s h rest cmd hs hp hw => ?_⟩
  · have h0 := payloadWords_of_matchesNoRow hw
    rw [stepIssue_of_free ha hp hi (by omega), h0, List.take_zero, List.drop_zero]
  · obtain ⟨cause, hd⟩ := (exists_decode_illegal_iff cmd.word cmd.payload).mpr hw
    have hp' : ({ s with sched := rest } : State).pending h = some cmd := hp
    rw [step_of_sched hs, takeMove, stepAccept_of_illegal hp' hd, State.illegalWord_eq]

/-- Settles O1: each row of the table by evaluation; a `SHOW` of 3 pixels has three payload words. -/
theorem encodingExamplesReadBothWays : Obligations.EncodingExamplesReadBothWays :=
  ⟨by decide, fun _ _ _ => rfl, fun _ => encode_show_three⟩

end Sys2Proof.Machine

/-! SUPPORT. The proofs about the Gamma-Dither Table: its entries, its end columns, and `LUT_RD`. -/

namespace Sys2Proof.Machine

/-! ## The table's entries -/

/-- The ideal curve is 0 at 0 (R101). -/
theorem isIdeal_zero {gamma : ℝ} (hg : 0 < gamma) : IsIdeal gamma 0 (0 : ℤ) := by
  simp [IsIdeal, Real.zero_rpow hg.ne']

/-- The ideal curve is 255 at 255 (R101). -/
theorem isIdeal_max (gamma : ℝ) : IsIdeal gamma 255 (255 : ℤ) := by
  simp [IsIdeal]

/-- Where the ideal curve takes an integer value, every phase of an admissible table holds it (R106). -/
theorem AdmissibleFor.gdtEntry_of_integer {gamma : ℝ} {cfg : Params} {v : Byte} {n : ℤ} {p : Nat}
    (h : AdmissibleFor gamma cfg) (hf : IsIdeal gamma v n) (hp : p < cfg.dither) :
    ((gdtEntry cfg p v).toNat : ℤ) = n := by
  obtain ⟨hround, -, -⟩ := h v n hf
  simpa using hround p hp

/-- The first column of an admissible table is 0 (R106). -/
theorem AdmissibleFor.gdtEntry_zero {gamma : ℝ} {cfg : Params} {p : Nat} (h : AdmissibleFor gamma cfg)
    (hg : 0 < gamma) (hp : p < cfg.dither) : gdtEntry cfg p 0 = 0 :=
  BitVec.eq_of_toNat_eq (by exact_mod_cast h.gdtEntry_of_integer (isIdeal_zero hg) hp)

/-- The last column of an admissible table is 255 (R106). -/
theorem AdmissibleFor.gdtEntry_max {gamma : ℝ} {cfg : Params} {p : Nat} (h : AdmissibleFor gamma cfg)
    (hp : p < cfg.dither) : gdtEntry cfg p 255 = 255 :=
  BitVec.eq_of_toNat_eq (by exact_mod_cast h.gdtEntry_of_integer (isIdeal_max gamma) hp)

/-- A phase's entry in the reference table is the one the construction gives (R103). -/
theorem gdtEntry_of_referenceTable {cfg : Params} {n num den p : Nat} (h : cfg.gdt = referenceTable n num den)
    (hp : p < n) (v : Byte) : gdtEntry cfg p v = referenceEntry n num den p v.toNat := by
  simp [gdtEntry, h, referenceTable, List.getD_eq_getElem?_getD, hp, v.isLt]

/-! ## The answers of a command that changes nothing else -/

theorem answers_respond (st : Status) (d : Word) (s : State) : Answers s (s.respond st d) st d := rfl

/-- A diagnostic command's error that is no cause of `FAULT` changes nothing but its issuer (R213). -/
theorem answers_raise {i : Instr} {e : Status} (hi : isLifecycle i = false) (he : e.setsFault = false)
    (s : State) : Answers s (s.raise i e) e 0 := by
  simp [Answers, State.raise, State.markFault, State.respond, State.respondTo, hi, he]

/-! ## `LUT_RD` (R109) -/

theorem exec_lutRd_of_le {ph : BitVec 3} {s : State} (h : s.cfg.dither ≤ ph.toNat) (val : Byte) :
    exec (.lutRd ph val) s = .next (s.raise (.lutRd ph val) .rangeError) := by
  simp [exec, execLutRd, h]

theorem exec_lutRd_of_lt {ph : BitVec 3} {s : State} (h : ph.toNat < s.cfg.dither) (val : Byte) :
    exec (.lutRd ph val) s = .next (s.respond .ok ((gdtEntry s.cfg ph.toNat val).zeroExtend 32)) := by
  simp [exec, execLutRd, h]

/-- The byte 45 of the example of R109. -/
theorem referenceEntry_example : referenceEntry 4 5 2 2 128 = 45 := by decide +kernel

/-! ## The obligation -/

/-- Settles O24: the phase check by its two cases; the end columns are integers of the ideal curve, and the
example is an entry of the reference construction. -/
theorem lutRdReadsTheTable : Obligations.LutRdReadsTheTable := by
  refine fun ph val s => ⟨fun h => ⟨_, exec_lutRd_of_le h val, answers_raise rfl rfl s⟩,
    fun h => ⟨_, exec_lutRd_of_lt h val, ?_, ?_, ?_⟩, fun hd ht => ⟨_, exec_lutRd_of_lt (by rw [hd]; decide) 128, ?_⟩⟩
  · rw [BitVec.ofNat_toNat]
    exact answers_respond ..
  · rintro ⟨gamma, hg, ha⟩ rfl
    rw [ha.gdtEntry_zero hg h]
    exact answers_respond ..
  · rintro ⟨gamma, hg, ha⟩ rfl
    rw [ha.gdtEntry_max h]
    exact answers_respond ..
  · have hentry : gdtEntry s.cfg (2 : BitVec 3).toNat 128 = 45 :=
      (gdtEntry_of_referenceTable ht (by decide) 128).trans referenceEntry_example
    rw [hentry]
    exact answers_respond ..

end Sys2Proof.Machine

/-! SUPPORT. The proofs about the Symbol Encoder: the groups of a symbol, the nibbles of a corrected byte,
`SYM_RD` and `ENC`. -/

namespace Sys2Proof.Machine

/-! ## The groups of a symbol (R121) -/

/-- Of four nibbles that stand one after the other, field `k` is the `k`-th from the least significant. -/
theorem extract_append_nibbles (g : Nat → Nibble) {k : Nat} (hk : k < 4) :
    (g 3 ++ g 2 ++ g 1 ++ g 0).extractLsb' (4 * k) 4 = g k := by
  match k, hk with
  | 0, _ => rw [extract_append_low _ _ (by omega), extract_all]
  | 1, _ => rw [extract_append_high _ _ (by omega), extract_append_low _ _ (by omega), extract_all]
  | 2, _ =>
    rw [extract_append_high _ _ (by omega), extract_append_high _ _ (by omega),
      extract_append_low _ _ (by omega), extract_all]
  | 3, _ =>
    rw [extract_append_high _ _ (by omega), extract_append_high _ _ (by omega),
      extract_append_high _ _ (by omega), extract_all]

theorem symbolOf_group_of_msbFirst {cfg : Params} (h : cfg.groupOrder = .msbFirst) (n : Nibble) {k : Nat}
    (hk : k < 4) : (symbolOf cfg n).extractLsb' (4 * k) 4 = subPulse cfg (n.getLsbD k) := by
  rw [symbolOf, h]
  exact extract_append_nibbles (fun k => subPulse cfg (n.getLsbD k)) hk

theorem symbolOf_group_of_lsbFirst {cfg : Params} (h : cfg.groupOrder = .lsbFirst) (n : Nibble) {k : Nat}
    (hk : k < 4) : (symbolOf cfg n).extractLsb' (4 * k) 4 = subPulse cfg (n.getLsbD (3 - k)) := by
  rw [symbolOf, h]
  simpa only [Nat.reduceSub] using extract_append_nibbles (fun k => subPulse cfg (n.getLsbD (3 - k))) hk

/-- The symbol table depends on the two patterns and the group order only. -/
theorem symbolOf_congr {cfg cfg' : Params} (hs : cfg.shortPat = cfg'.shortPat) (hl : cfg.longPat = cfg'.longPat)
    (hg : cfg.groupOrder = cfg'.groupOrder) (n : Nibble) : symbolOf cfg n = symbolOf cfg' n := by
  simp only [symbolOf, subPulse, hs, hl, hg]

/-! ## The nibbles of a corrected byte (R124) -/

theorem lowNibble_eq_ofNat (c : Byte) : c.extractLsb' 0 4 = BitVec.ofNat 4 (c.toNat % 16) := by
  apply BitVec.eq_of_toNat_eq
  simp

theorem highNibble_eq_ofNat (c : Byte) : c.extractLsb' 4 4 = BitVec.ofNat 4 (c.toNat / 16) := by
  apply BitVec.eq_of_toNat_eq
  simp [Nat.shiftRight_eq_div_pow]

theorem encodeCorrected_of_lowFirst {cfg : Params} (h : cfg.nibbleOrder = .lowFirst) (c : Byte) :
    encodeCorrected cfg c = (symbolOf cfg (c.extractLsb' 0 4), symbolOf cfg (c.extractLsb' 4 4)) := by
  rw [encodeCorrected, h]

theorem encodeCorrected_of_highFirst {cfg : Params} (h : cfg.nibbleOrder = .highFirst) (c : Byte) :
    encodeCorrected cfg c = (symbolOf cfg (c.extractLsb' 4 4), symbolOf cfg (c.extractLsb' 0 4)) := by
  rw [encodeCorrected, h]

/-- A byte with equal nibbles encodes to two equal symbols in either order (R128). -/
theorem encodeCorrected_of_equal_nibbles (cfg : Params) {c : Byte} (h : c.extractLsb' 0 4 = c.extractLsb' 4 4) :
    (encodeCorrected cfg c).1 = (encodeCorrected cfg c).2 := by
  cases ho : cfg.nibbleOrder with
  | lowFirst => rw [encodeCorrected_of_lowFirst ho, h]
  | highFirst => rw [encodeCorrected_of_highFirst ho, h]

/-! ## The decided parameters (R123)

The reset instance has the decided values, so what they give is evaluated on it. -/

/-- The decided values that the Symbol Encoder reads. -/
theorem encoderParams_of_decided {cfg : Params} (h : decidedParams cfg = true) :
    cfg.shortPat = 0b1000#4 ∧ cfg.longPat = 0b1110#4 ∧ cfg.groupOrder = .msbFirst ∧ cfg.nibbleOrder = .lowFirst := by
  simp only [decidedParams, Bool.and_eq_true, beq_iff_eq] at h
  obtain ⟨⟨⟨⟨⟨⟨⟨hs, hl⟩, hg⟩, hn⟩, _⟩, _⟩, _⟩, _⟩ := h
  exact ⟨hs, hl, hg, hn⟩

theorem symbolOf_of_decided {cfg : Params} (h : decidedParams cfg = true) (n : Nibble) :
    symbolOf cfg n = symbolOf Config.resetInstance n := by
  obtain ⟨hs, hl, hg, _⟩ := encoderParams_of_decided h
  exact symbolOf_congr hs hl hg n

/-- The two symbols of corrected byte 0x12 (R128). -/
theorem encodeCorrected_example {cfg : Params} (h : decidedParams cfg = true) :
    encodeCorrected cfg 0x12 = (0x88E8, 0x888E) := by
  obtain ⟨_, _, _, hn⟩ := encoderParams_of_decided h
  rw [encodeCorrected_of_lowFirst hn, symbolOf_of_decided h, symbolOf_of_decided h]
  decide

/-! ## `SYM_RD` (R127) and `ENC` (R128) -/

theorem exec_symRd (nib : Nibble) (s : State) :
    exec (.symRd nib) s = .next (s.respond .ok ((symbolOf s.cfg nib).zeroExtend 32)) := rfl

theorem exec_enc_of_le {ph : BitVec 3} {s : State} (h : s.cfg.dither ≤ ph.toNat) (val : Byte) :
    exec (.enc ph val) s = .next (s.raise (.enc ph val) .rangeError) := by
  simp [exec, execEnc, h]

theorem exec_enc_of_lt {ph : BitVec 3} {s : State} (h : ph.toNat < s.cfg.dither) (val : Byte) :
    exec (.enc ph val) s =
      .next (s.respond .ok ((encodeByte s.cfg ph.toNat val).1 ++ (encodeByte s.cfg ph.toNat val).2)) := by
  simp [exec, execEnc, h]

/-! ## The obligations -/

/-- Settles O38: a symbol is an append of its four groups in either order. -/
theorem symbolGroupsFollowTheBits : Obligations.SymbolGroupsFollowTheBits := fun _ n _ hk =>
  ⟨fun h => symbolOf_group_of_msbFirst h n hk, fun h => symbolOf_group_of_lsbFirst h n hk⟩

/-- Settles O39: the decided parameters give the table of the reset instance, whose sixteen entries are
evaluated. -/
theorem symbolTableContents : Obligations.SymbolTableContents := by
  intro cfg h
  simp only [symbolOf_of_decided h]
  decide

/-- Settles O40: in each order, with the two nibbles as numbers. -/
theorem encodeFollowsTheNibbleOrder : Obligations.EncodeFollowsTheNibbleOrder := by
  intro cfg p b
  rw [← lowNibble_eq_ofNat, ← highNibble_eq_ofNat]
  exact ⟨fun h => encodeCorrected_of_lowFirst h _, fun h => encodeCorrected_of_highFirst h _⟩

/-- Settles O41: `Encode` follows the nibble order (O40), so its symbols are equal where the nibbles are. -/
theorem encodeDependsOnTheCorrectedNibbles : Obligations.EncodeDependsOnTheCorrectedNibbles := by
  intro cfg p q b c
  obtain ⟨hlow, hhigh⟩ := encodeFollowsTheNibbleOrder cfg p b
  obtain ⟨hlow', hhigh'⟩ := encodeFollowsTheNibbleOrder cfg q c
  exact ⟨fun hn => ⟨fun h => by rw [hlow h, hlow' h, hn], fun h => by rw [hhigh h, hhigh' h, hn]⟩,
    fun hn => ⟨fun h => by rw [hlow h, hlow' h, hn], fun h => by rw [hhigh h, hhigh' h, hn]⟩,
    congrArg (encodeCorrected cfg)⟩

/-- Settles O25: the answer is the zero-extended symbol; the two ends of the table are evaluated on the reset
instance. -/
theorem symRdReadsTheSymbol : Obligations.SymRdReadsTheSymbol := by
  refine fun nib s => ⟨_, exec_symRd nib s, ?_, ?_, ?_⟩
  · rw [BitVec.ofNat_toNat]
    exact answers_respond ..
  · rintro hd rfl
    rw [symbolOf_of_decided hd]
    exact answers_respond ..
  · rintro hd rfl
    rw [symbolOf_of_decided hd]
    exact answers_respond ..

/-- Settles O26: the phase check by its two cases; the answer is the append of the two symbols, which are
those of the corrected byte. -/
theorem encReturnsBothSymbols : Obligations.EncReturnsBothSymbols := by
  refine fun ph val s => ⟨fun h => ⟨_, exec_enc_of_le h val, answers_raise rfl rfl s⟩,
    fun h => ⟨_, _, exec_enc_of_lt h val, answers_respond .., ?_⟩⟩
  have hfirst : ((encodeByte s.cfg ph.toNat val).1 ++ (encodeByte s.cfg ph.toNat val).2).extractLsb' 16 16 =
      (encodeByte s.cfg ph.toNat val).1 := by
    rw [extract_append_high _ _ (by omega), extract_all]
  have hsecond : ((encodeByte s.cfg ph.toNat val).1 ++ (encodeByte s.cfg ph.toNat val).2).extractLsb' 0 16 =
      (encodeByte s.cfg ph.toNat val).2 := by
    rw [extract_append_low _ _ (by omega), extract_all]
  refine ⟨hfirst, hsecond, fun heq => ?_, fun hd hentry => ?_⟩
  · rw [hfirst, hsecond]
    exact encodeCorrected_of_equal_nibbles s.cfg heq
  · rw [encodeByte, hentry, encodeCorrected_example hd]
    rfl

end Sys2Proof.Machine

/-! SUPPORT. The proofs about the descriptor ring: its pairs as `INIT` builds them, and its links while `Ready`. -/

namespace Sys2Proof.Machine

/-! ## Lists of blocks of one length -/

/-- Dropping whole blocks drops their entries. -/
theorem drop_flatten_of_length {α : Type} {c : Nat} {L : List (List α)} (h : ∀ l ∈ L, l.length = c) (i : Nat) :
    L.flatten.drop (c * i) = (L.drop i).flatten := by
  induction i generalizing L with
  | zero => rfl
  | succ i ih =>
    cases L with
    | nil => simp
    | cons l L =>
      obtain ⟨rfl, hL⟩ := List.forall_mem_cons.mp h
      rw [List.flatten_cons, Nat.mul_succ, Nat.add_comm, List.drop_length_add_append, ih hL, List.drop_succ_cons]

/-- Block `q` of the blocks of a range stands behind the `q` blocks before it. -/
theorem drop_flatMap_range {α : Type} {c n q : Nat} {f : Nat → List α} (h : ∀ q, (f q).length = c) (hq : q < n) :
    ∃ rest, ((List.range n).flatMap f).drop (c * q) = f q ++ rest := by
  rw [List.flatMap_def, drop_flatten_of_length (by simp [h]), ← List.map_drop,
    List.drop_eq_getElem_cons (by simpa using hq), List.map_cons, List.flatten_cons, List.getElem_range]
  exact ⟨_, rfl⟩

/-! ## The ring as `INIT` builds it (R148, R152) -/

@[simp] theorem buildRing_length (cfg : Params) (phaseBytes : Nat) :
    (buildRing cfg phaseBytes).length = 2 * cfg.dither := by
  simp [buildRing, ringPair, List.length_flatMap, Nat.mul_comm]

/-- Pair `q` stands behind the `q` pairs before it. -/
theorem buildRing_drop {cfg : Params} {q : Nat} (hq : q < cfg.dither) (phaseBytes : Nat) :
    ∃ rest, (buildRing cfg phaseBytes).drop (2 * q) = ringPair cfg phaseBytes q ++ rest :=
  drop_flatMap_range (fun _ => rfl) hq

/-- Descriptor `2q` is the first of pair `q`. -/
theorem buildRing_pixel {cfg : Params} {q : Nat} (hq : q < cfg.dither) (phaseBytes : Nat) :
    (buildRing cfg phaseBytes)[2 * q]? = some
      { buf := .phase (phasePermOf cfg q), len := phaseBytes, next := 2 * q + 1,
        owner := cfg.ownerReady, eof := cfg.eofReady } := by
  obtain ⟨rest, h⟩ := buildRing_drop hq phaseBytes
  rw [← Nat.add_zero (2 * q), ← List.getElem?_drop, h]
  rfl

/-- Descriptor `2q + 1` is the second of pair `q`. -/
theorem buildRing_gap {cfg : Params} {q : Nat} (hq : q < cfg.dither) (phaseBytes : Nat) :
    (buildRing cfg phaseBytes)[2 * q + 1]? = some
      { buf := .gap, len := cfg.gapBytes, next := (2 * q + 2) % (2 * cfg.dither),
        owner := cfg.ownerReady, eof := cfg.eofReady } := by
  obtain ⟨rest, h⟩ := buildRing_drop hq phaseBytes
  rw [← List.getElem?_drop, h]
  rfl

/-- Every phase stands in a ring pair. -/
theorem exists_phasePermOf_eq {cfg : Params} (h : legalParams cfg = true) {p : Nat} (hp : p < cfg.dither) :
    ∃ q, q < cfg.dither ∧ phasePermOf cfg q = p := by
  obtain ⟨-, -, -, -, -, hperm⟩ := legalParams_bounds h
  obtain ⟨q, hq, rfl⟩ := List.mem_iff_getElem.mp (hperm.mem_iff.mpr (List.mem_range.mpr hp))
  exact ⟨q, by simpa [hperm.length_eq] using hq, by simp [phasePermOf, hq]⟩

/-- No phase stands in two ring pairs. -/
theorem phasePermOf_injective {cfg : Params} (h : legalParams cfg = true) {q r : Nat} (hq : q < cfg.dither)
    (hr : r < cfg.dither) (he : phasePermOf cfg q = phasePermOf cfg r) : q = r := by
  obtain ⟨-, -, -, -, -, hperm⟩ := legalParams_bounds h
  have hl : cfg.phasePerm.length = cfg.dither := by simpa using hperm.length_eq
  have hnodup : cfg.phasePerm.Nodup := hperm.nodup_iff.mpr List.nodup_range
  simpa [phasePermOf, hl, hq, hr, hnodup.getElem_inj_iff] using he

/-! ## The ring of a good `Ready` state (R149, R151, R154) -/

section
variable {s : State} (hi : Inv s) (hr : s.reg.state = .ready)
include hi hr

theorem Inv.desc_links : s.desc.map Desc.links = (buildRing s.cfg (12 * s.reg.numLeds.toNat)).map Desc.links := by
  obtain ⟨-, -, -, -, -, -, hring, -⟩ := hi
  simpa only [State.ringOK, hr, if_true] using hring

theorem Inv.desc_length : s.desc.length = 2 * s.cfg.dither := by
  simpa using congrArg List.length (hi.desc_links hr)

/-- A descriptor of the arena has the links of the one that `build_ring` puts there. -/
theorem Inv.desc_of_buildRing {i : Nat} {d : Desc}
    (h : (buildRing s.cfg (12 * s.reg.numLeds.toNat))[i]? = some d) :
    ∃ x, s.desc[i]? = some x ∧ x.buf = d.buf ∧ x.len = d.len ∧ x.next = d.next := by
  have hlinks := congrArg (·[i]?) (hi.desc_links hr)
  simpa [h, Desc.links] using hlinks

theorem Inv.desc_pixel {q : Nat} (hq : q < s.cfg.dither) : ∃ x, s.desc[2 * q]? = some x ∧
    x.buf = .phase (phasePermOf s.cfg q) ∧ x.len = 12 * s.reg.numLeds.toNat ∧ x.next = 2 * q + 1 :=
  hi.desc_of_buildRing hr (buildRing_pixel hq _)

theorem Inv.desc_gap {q : Nat} (hq : q < s.cfg.dither) : ∃ x, s.desc[2 * q + 1]? = some x ∧
    x.buf = .gap ∧ x.len = s.cfg.gapBytes ∧ x.next = (2 * q + 2) % (2 * s.cfg.dither) :=
  hi.desc_of_buildRing hr (buildRing_gap hq _)

/-- Every descriptor links to the one behind it, the last to the first. -/
theorem Inv.desc_next {i : Nat} (h : i < 2 * s.cfg.dither) :
    ∃ x, s.desc[i]? = some x ∧ x.next = (i + 1) % (2 * s.cfg.dither) := by
  obtain ⟨q, rfl | rfl⟩ := i.even_or_odd'
  · obtain ⟨x, hx, -, -, hn⟩ := hi.desc_pixel hr (q := q) (by omega)
    exact ⟨x, hx, by rw [hn, Nat.mod_eq_of_lt (by omega)]⟩
  · obtain ⟨x, hx, -, -, hn⟩ := hi.desc_gap hr (q := q) (by omega)
    exact ⟨x, hx, hn⟩

theorem Inv.follow_desc (n : Nat) {d : Nat} (hd : d < 2 * s.cfg.dither) :
    follow s.desc n d = some ((d + n) % (2 * s.cfg.dither)) := by
  induction n generalizing d with
  | zero => rw [follow, Nat.add_zero, Nat.mod_eq_of_lt hd]
  | succ n ih =>
    obtain ⟨x, hx, hn⟩ := hi.desc_next hr hd
    have hlt : x.next < 2 * s.cfg.dither := hn ▸ Nat.mod_lt _ (by omega)
    simp only [follow, hx]
    rw [ih hlt, hn, Nat.mod_add_mod, Nat.add_assoc, Nat.add_comm 1]

/-- The one descriptor of a phase buffer is the pixel descriptor of the pair that `PHASE_PERM` gives it. -/
theorem Inv.existsUnique_desc_of_phase {p : Nat} (hp : p < s.cfg.dither) :
    ∃! i, i < 2 * s.cfg.dither ∧ ∃ x, s.desc[i]? = some x ∧ x.buf = .phase p := by
  have hlegal : legalParams s.cfg = true := hi.1
  obtain ⟨q, hq, rfl⟩ := exists_phasePermOf_eq hlegal hp
  obtain ⟨x, hx, hb, -⟩ := hi.desc_pixel hr hq
  refine ⟨2 * q, ⟨by omega, x, hx, hb⟩, ?_⟩
  rintro i ⟨hlt, y, hy, hyb⟩
  obtain ⟨r, rfl | rfl⟩ := i.even_or_odd'
  · obtain ⟨z, hz, hzb, -⟩ := hi.desc_pixel hr (q := r) (by omega)
    obtain rfl : y = z := Option.some.inj (hy.symm.trans hz)
    rw [phasePermOf_injective hlegal (by omega) hq (Buf.phase.inj (hzb.symm.trans hyb))]
  · obtain ⟨z, hz, hzb, -⟩ := hi.desc_gap hr (q := r) (by omega)
    obtain rfl : y = z := Option.some.inj (hy.symm.trans hz)
    cases hzb.symm.trans hyb

end

/-! ## The obligations -/

/-- Settles O45: the length of the arena, and the two descriptors of a block of it. -/
theorem ringIsBuiltInPairs : Obligations.RingIsBuiltInPairs := fun cfg phaseBytes _ hq =>
  ⟨buildRing_length cfg phaseBytes, buildRing_pixel hq phaseBytes, buildRing_gap hq phaseBytes⟩

/-- Settles O46: the walk by induction on its links, the alternation by the two descriptors of a pair, and the
phase buffers by `PHASE_PERM`, which is a permutation. -/
theorem ringTraversalVisitsEveryDescriptor : Obligations.RingTraversalVisitsEveryDescriptor := by
  refine fun s hi hr => ⟨fun d n => hi.follow_desc hr n, fun i hlt => ?_, fun p => hi.existsUnique_desc_of_phase hr⟩
  obtain ⟨q, rfl | rfl⟩ := i.even_or_odd'
  · obtain ⟨x, hx, hb, hl, -⟩ := hi.desc_pixel hr (q := q) (by omega)
    exact ⟨x, hx, fun _ => ⟨_, phasePermOf_lt hi.1 (by omega), hb, hl⟩, by omega⟩
  · obtain ⟨x, hx, hb, hl, -⟩ := hi.desc_gap hr (q := q) (by omega)
    exact ⟨x, hx, by omega, fun _ => ⟨hb, hl⟩⟩

/-- Settles O48: every `next` is a remainder modulo `2N`. -/
theorem everyLinkIsInRange : Obligations.EveryLinkIsInRange := by
  refine fun s hi hr => ⟨hi.desc_length hr, fun d hd => ?_⟩
  obtain ⟨i, hlt, rfl⟩ := List.mem_iff_getElem.mp hd
  rw [hi.desc_length hr] at hlt
  obtain ⟨x, hx, hn⟩ := hi.desc_next hr hlt
  obtain ⟨_, rfl⟩ := List.getElem?_eq_some_iff.mp hx
  exact hn ▸ Nat.mod_lt _ (by omega)

end Sys2Proof.Machine

/-! SUPPORT. The proofs about the reads of the buffers and of the arena: `BUF_RDH`, `BUF_RDB` and `DESC_RD`. -/

namespace Sys2Proof.Machine

/-! ## Buffer reads of a good `Ready` state (R50, R141) -/

/-- While `Ready`, every byte of the gap buffer reads 0 (R141). -/
theorem Inv.bufRead_gap {s : State} (hi : Inv s) (hr : s.reg.state = .ready) {off : Nat} (ho : off < s.cfg.gapBytes) :
    s.bufRead .gap off = some 0 := by
  obtain ⟨-, -, -, -, hmem, -⟩ := hi
  simp only [State.memOK, hr, if_true] at hmem
  obtain ⟨halloc, -, hgap, -⟩ := hmem
  exact State.bufRead_eq_some.mpr ⟨halloc, ho, s.mem.gap, rfl, by rw [hgap, Memory.read_nil]⟩

/-- While `Ready`, the phase buffers have 12 bytes a pixel (R30). -/
theorem State.phaseBytes_of_ready {s : State} (hr : s.reg.state = .ready) :
    s.phaseBytes = 12 * s.reg.numLeds.toNat := if_pos hr

/-! ## `BUF_RDH` (R155) -/

section
variable {sel : BitVec 4} {idx : BitVec 20} {s : State}

theorem exec_bufRdh_of_not_ready (hr : s.reg.state ≠ .ready) :
    exec (.bufRdh sel idx) s = .next (s.raise (.bufRdh sel idx) .notInitializedError) := if_pos hr

theorem exec_bufRdh_of_out_of_range (hr : s.reg.state = .ready)
    (h : s.cfg.dither ≤ sel.toNat ∨ 6 * s.reg.numLeds.toNat ≤ idx.toNat) :
    exec (.bufRdh sel idx) s = .next (s.raise (.bufRdh sel idx) .rangeError) := by
  by_cases hs : s.cfg.dither ≤ sel.toNat
  · simp [exec, execBufRdh, hr, hs]
  · simp [exec, execBufRdh, hr, hs, State.symPerPhase, h.resolve_left hs]

theorem exec_bufRdh_of_reads {b0 b1 : Byte} (hr : s.reg.state = .ready) (hs : sel.toNat < s.cfg.dither)
    (hx : idx.toNat < 6 * s.reg.numLeds.toNat)
    (h0 : s.bufRead (.phase sel.toNat) (2 * idx.toNat) = some b0)
    (h1 : s.bufRead (.phase sel.toNat) (2 * idx.toNat + 1) = some b1) :
    exec (.bufRdh sel idx) s = .next (s.respond .ok ((joinBytes s.cfg b0 b1).zeroExtend 32)) := by
  simp [exec, execBufRdh, hr, State.symPerPhase, Nat.not_le.mpr hs, Nat.not_le.mpr hx, h0, h1]

/-! ## `BUF_RDB` (R156) -/

theorem exec_bufRdb_of_not_ready (hr : s.reg.state ≠ .ready) :
    exec (.bufRdb sel idx) s = .next (s.raise (.bufRdb sel idx) .notInitializedError) := if_pos hr

theorem exec_bufRdb_of_no_buffer (hr : s.reg.state = .ready) (hs : selectBuffer s sel = none) :
    exec (.bufRdb sel idx) s = .next (s.raise (.bufRdb sel idx) .rangeError) := by
  simp [exec, execBufRdb, hr, hs]

theorem exec_bufRdb_of_past_end {b : Buf} {len : Nat} (hr : s.reg.state = .ready)
    (hs : selectBuffer s sel = some (b, len)) (hx : len ≤ idx.toNat) :
    exec (.bufRdb sel idx) s = .next (s.raise (.bufRdb sel idx) .rangeError) := by
  simp [exec, execBufRdb, hr, hs, hx]

theorem exec_bufRdb_of_read {b : Buf} {len : Nat} {x : Byte} (hr : s.reg.state = .ready)
    (hs : selectBuffer s sel = some (b, len)) (hx : idx.toNat < len) (h : s.bufRead b idx.toNat = some x) :
    exec (.bufRdb sel idx) s = .next (s.respond .ok (x.zeroExtend 32)) := by
  simp [exec, execBufRdb, hr, hs, Nat.not_le.mpr hx, h]

/-- The first `N` selects name the phase buffers (R77). -/
theorem selectBuffer_phase (hr : s.reg.state = .ready) (hs : sel.toNat < s.cfg.dither) :
    selectBuffer s sel = some (.phase sel.toNat, 12 * s.reg.numLeds.toNat) := by
  rw [selectBuffer, if_pos hs, State.phaseBytes_of_ready hr]

/-- Select 15 names the gap buffer, for `N` up to 15 (R77). -/
theorem selectBuffer_gap (hd : s.cfg.dither ≤ 15) : selectBuffer s 0xF = some (.gap, s.cfg.gapBytes) := by
  simp [selectBuffer, Nat.not_lt.mpr hd]

/-- The selects between name no buffer (R156). -/
theorem selectBuffer_none (hs : s.cfg.dither ≤ sel.toNat) (hg : sel ≠ 0xF) : selectBuffer s sel = none := by
  simp [selectBuffer, Nat.not_lt.mpr hs, show sel ≠ 15#4 from hg]

end

/-! ## `DESC_RD` (R157) -/

section
variable {fld : DescField} {di : BitVec 4} {s : State}

theorem exec_descRd_of_not_ready (hr : s.reg.state ≠ .ready) :
    exec (.descRd fld di) s = .next (s.raise (.descRd fld di) .notInitializedError) := if_pos hr

theorem exec_descRd_of_out_of_range (hr : s.reg.state = .ready) (h : 2 * s.cfg.dither ≤ di.toNat) :
    exec (.descRd fld di) s = .next (s.raise (.descRd fld di) .rangeError) := by
  simp [exec, execDescRd, hr, ndesc, h]

theorem exec_descRd_of_desc {d : Desc} (hr : s.reg.state = .ready) (h : di.toNat < 2 * s.cfg.dither)
    (hd : s.desc[di.toNat]? = some d) :
    exec (.descRd fld di) s = .next (s.respond .ok (descFieldValue d fld)) := by
  simp [exec, execDescRd, hr, ndesc, Nat.not_le.mpr h, hd]

end

/-! ## The values the reads answer -/

/-- Two bytes one above the other, as a number. -/
theorem zeroExtend_append_bytes (hi lo : Byte) :
    (hi ++ lo).zeroExtend 32 = BitVec.ofNat 32 (256 * hi.toNat + lo.toNat) := by
  apply BitVec.eq_of_toNat_eq
  simp only [BitVec.truncate_eq_setWidth, BitVec.toNat_setWidth, BitVec.toNat_append, BitVec.toNat_ofNat]
  rw [← Nat.shiftLeft_add_eq_or_of_lt lo.isLt, Nat.shiftLeft_eq, Nat.mul_comm]

/-- Two bits one above the other, as a number. -/
theorem zeroExtend_append_bits : ∀ hi lo : Bool,
    (bit hi ++ bit lo).zeroExtend 32 = BitVec.ofNat 32 (2 * hi.toNat + lo.toNat) := by decide

/-! ## The obligations -/

/-- Settles O27: one case of R155's checks after the other; the two bytes exist in a good state, and their order
is that of `BUF_ENDIAN`. -/
theorem bufRdhReadsASymbol : Obligations.BufRdhReadsASymbol := by
  refine fun sel idx s => ⟨fun hr => ⟨_, exec_bufRdh_of_not_ready hr, answers_raise rfl rfl s⟩,
    fun hr h => ⟨_, exec_bufRdh_of_out_of_range hr h, answers_raise rfl rfl s⟩, fun hi hr hs hx => ?_⟩
  obtain ⟨b0, h0⟩ := hi.bufRead_isSome hr hs (off := 2 * idx.toNat) (by omega)
  obtain ⟨b1, h1⟩ := hi.bufRead_isSome hr hs (off := 2 * idx.toNat + 1) (by omega)
  refine ⟨_, b0, b1, exec_bufRdh_of_reads hr hs hx h0 h1, h0, h1, fun he => ?_, fun he => ?_⟩
  · rw [joinBytes, he, ← zeroExtend_append_bytes]
    exact answers_respond ..
  · rw [joinBytes, he, ← zeroExtend_append_bytes]
    exact answers_respond ..

/-- Settles O28: the select by the buffer it names, if any, and the index by that buffer's length; the gap buffer
of a good state is all zero. -/
theorem bufRdbReadsAByte : Obligations.BufRdbReadsAByte := by
  refine fun sel idx s => ⟨fun hr => ⟨_, exec_bufRdb_of_not_ready hr, answers_raise rfl rfl s⟩,
    fun hr h => ⟨_, ?_, answers_raise (i := .bufRdb sel idx) rfl rfl s⟩, fun hi hr hs hx => ?_, fun hi hr hx => ?_⟩
  · obtain ⟨hs, hg⟩ | ⟨hs, hx⟩ | ⟨hs, rfl, hx⟩ := h
    · exact exec_bufRdb_of_no_buffer hr (selectBuffer_none hs hg)
    · exact exec_bufRdb_of_past_end hr (selectBuffer_phase hr hs) hx
    · exact exec_bufRdb_of_past_end hr (selectBuffer_gap hs) hx
  · obtain ⟨b, hb⟩ := hi.bufRead_isSome hr hs hx
    refine ⟨_, b, exec_bufRdb_of_read hr (selectBuffer_phase hr hs) hx hb, hb, ?_⟩
    rw [BitVec.ofNat_toNat]
    exact answers_respond ..
  · have hd : s.cfg.dither ≤ 8 := (legalParams_bounds hi.1).2.1
    have hb := hi.bufRead_gap hr hx
    exact ⟨_, exec_bufRdb_of_read hr (selectBuffer_gap (by omega)) hx hb, hb, answers_respond ..⟩

/-- Settles O29: one case of R157's checks after the other; the descriptor exists in a good state, and each field
is read off it. -/
theorem descRdReadsAField : Obligations.DescRdReadsAField := by
  refine fun fld di s => ⟨fun hr => ⟨_, exec_descRd_of_not_ready hr, answers_raise rfl rfl s⟩,
    fun hr h => ⟨_, exec_descRd_of_out_of_range hr h, answers_raise rfl rfl s⟩, fun hi hr h => ?_⟩
  obtain ⟨d, hd, -⟩ := hi.desc_next hr h
  refine ⟨_, d, exec_descRd_of_desc hr h hd, hd, ?_, ?_, ?_, ?_, ?_⟩
  · rintro p rfl hb
    rw [descFieldValue, hb]
    exact answers_respond ..
  · rintro rfl hb
    rw [descFieldValue, hb]
    exact answers_respond ..
  · rintro rfl
    exact answers_respond ..
  · rintro rfl
    exact answers_respond ..
  · rintro rfl
    rw [← zeroExtend_append_bits]
    exact answers_respond ..

end Sys2Proof.Machine

/-! SUPPORT. The proofs about the render write list: its entries in order, and the one write of every byte. -/

namespace Sys2Proof.Machine

/-! ## The bytes of a symbol (R53) -/

theorem lowOffset_eq_iff {cfg : Params} {i off : Nat} :
    lowOffset cfg i = off ↔ i = off / 2 ∧ off = lowOffset cfg (off / 2) := by
  unfold lowOffset
  split <;> omega

theorem highOffset_eq_iff {cfg : Params} {i off : Nat} :
    highOffset cfg i = off ↔ i = off / 2 ∧ off ≠ lowOffset cfg (off / 2) := by
  unfold highOffset lowOffset
  split <;> omega

/-- Symbol `i` of phase `p` of a stream: the first or the second one of stream byte `i / 2` (R142). -/
def streamSymbol (cfg : Params) (stream : List Byte) (p i : Nat) : Symbol :=
  if i % 2 = 0 then (encodeByte cfg p (stream.getD (i / 2) 0)).1
  else (encodeByte cfg p (stream.getD (i / 2) 0)).2

theorem streamSymbol_even (cfg : Params) (P : List Byte) (p j : Nat) :
    streamSymbol cfg P p (2 * j) = (encodeByte cfg p (P.getD j 0)).1 := by
  simp [streamSymbol]

theorem streamSymbol_odd (cfg : Params) (P : List Byte) (p j : Nat) :
    streamSymbol cfg P p (2 * j + 1) = (encodeByte cfg p (P.getD j 0)).2 := by
  simp [streamSymbol, Nat.mul_add_div]

/-- A byte of a rendered stream is the low or the high one of the symbol it lies in. -/
theorem streamByte_eq (cfg : Params) (P : List Byte) (p off : Nat) : streamByte cfg P p off =
    if off = lowOffset cfg (off / 2) then symbolLow (streamSymbol cfg P p (off / 2))
    else symbolHigh (streamSymbol cfg P p (off / 2)) := by
  rw [streamSymbol, Nat.div_div_eq_div_mul]
  rfl

/-- The write of a stream's symbol writes the stream's bytes, in either order. -/
theorem SymWrite.bytes_of_streamSymbol {cfg : Params} {P : List Byte} {w : SymWrite} {o : ByteOrder} {x : ByteWrite}
    (hx : x ∈ w.bytes cfg o) (hw : w.sym = streamSymbol cfg P w.ph w.idx) :
    x.buf = .phase w.ph ∧ x.off / 2 = w.idx ∧ x.val = streamByte cfg P w.ph x.off := by
  obtain rfl | rfl := SymWrite.mem_bytes hx
  · obtain ⟨hi, hl⟩ := lowOffset_eq_iff.mp (rfl : lowOffset cfg w.idx = _)
    exact ⟨rfl, hi.symm, by rw [streamByte_eq, if_pos hl, ← hi, hw]⟩
  · obtain ⟨hi, hl⟩ := highOffset_eq_iff.mp (rfl : highOffset cfg w.idx = _)
    exact ⟨rfl, hi.symm, by rw [streamByte_eq, if_neg hl, ← hi, hw]⟩

/-! ## The entries of the write list (R144) -/

/-- A symbol write of a stream: its phase, its place, and the stream's symbol. -/
theorem streamSymbol_of_mem {cfg : Params} {P : List Byte} {w : SymWrite} (h : w ∈ streamSymbols cfg 0 P) :
    w.ph < cfg.dither ∧ w.idx < 2 * P.length ∧ w.sym = streamSymbol cfg P w.ph w.idx := by
  obtain ⟨k, hk, hw⟩ := mem_streamSymbols.mp h
  rw [Nat.zero_add] at hw
  obtain ⟨p, hp, rfl | rfl⟩ := mem_byteSymbols.mp hw
  · exact ⟨hp, by simpa using hk, (streamSymbol_even ..).symm⟩
  · exact ⟨hp, by simp only; omega, (streamSymbol_odd ..).symm⟩

/-- Stream byte `k` has its symbol writes behind those of the `k` bytes before it. -/
theorem drop_streamSymbols (cfg : Params) {P : List Byte} {k : Nat} (hk : k < P.length) (j : Nat) :
    ∃ rest, (streamSymbols cfg j P).drop (2 * cfg.dither * k) = byteSymbols cfg (j + k) (P.getD k 0) ++ rest := by
  induction P generalizing j k with
  | nil => simp at hk
  | cons b P ih =>
    cases k with
    | zero => exact ⟨_, rfl⟩
    | succ k =>
      obtain ⟨rest, h⟩ := ih (k := k) (by simpa using hk) (j + 1)
      refine ⟨rest, ?_⟩
      rw [streamSymbols, Nat.mul_succ, Nat.add_comm, ← byteSymbols_length cfg j b, List.drop_length_add_append,
        byteSymbols_length, h, Nat.add_right_comm, Nat.add_assoc, List.getD_cons_succ]

/-- The two symbols of stream byte `k` in phase `p` stand behind those of the `k` bytes before it and of the `p`
phases before it. -/
theorem drop_streamSymbols_phase {cfg : Params} {P : List Byte} {k p : Nat} (hk : k < P.length) (hp : p < cfg.dither) :
    ∃ rest, (streamSymbols cfg 0 P).drop (2 * (k * cfg.dither + p)) =
      { ph := p, idx := 2 * k, sym := (encodeByte cfg p (P.getD k 0)).1 } ::
      { ph := p, idx := 2 * k + 1, sym := (encodeByte cfg p (P.getD k 0)).2 } :: rest := by
  obtain ⟨rest, h⟩ := drop_streamSymbols cfg hk 0
  obtain ⟨tail, hb⟩ : ∃ tail, (byteSymbols cfg k (P.getD k 0)).drop (2 * p) =
      [{ ph := p, idx := 2 * k, sym := (encodeByte cfg p (P.getD k 0)).1 },
       { ph := p, idx := 2 * k + 1, sym := (encodeByte cfg p (P.getD k 0)).2 }] ++ tail :=
    drop_flatMap_range (c := 2) (fun _ => rfl) hp
  refine ⟨tail ++ rest, ?_⟩
  rw [show 2 * (k * cfg.dither + p) = 2 * cfg.dither * k + 2 * p by ring, ← List.drop_drop, h, Nat.zero_add,
    List.drop_append_of_le_length (by rw [byteSymbols_length]; omega), hb]
  rfl

theorem length_of_mem_zipWith_bytes {cfg : Params} {ws : List SymWrite} {orders : List ByteOrder} :
    ∀ l ∈ List.zipWith (SymWrite.bytes cfg) ws orders, l.length = 2 := by
  intro l hl
  obtain ⟨i, hi, rfl⟩ := List.mem_iff_getElem.mp hl
  rw [List.getElem_zipWith, SymWrite.bytes_length]

/-- Dropping the byte writes of whole symbols drops the symbols and their drawn orders. -/
theorem drop_renderList (cfg : Params) (P : List Byte) (orders : List ByteOrder) (i : Nat) :
    (renderList cfg P orders).drop (2 * i) =
      (List.zipWith (SymWrite.bytes cfg) ((streamSymbols cfg 0 P).drop i) (orders.drop i)).flatten := by
  rw [renderList, drop_flatten_of_length length_of_mem_zipWith_bytes, List.drop_zipWith]

/-- The four byte writes of stream byte `j` in phase `p`, at their place in the list: byte-major and phase-minor. -/
theorem renderList_entry {cfg : Params} {P : List Byte} {orders : List ByteOrder}
    (h : orders.length = 2 * cfg.dither * P.length) {j p : Nat} (hj : j < P.length) (hp : p < cfg.dither) :
    ((renderList cfg P orders).drop (4 * (j * cfg.dither + p))).take 4 =
      SymWrite.bytes cfg { ph := p, idx := 2 * j, sym := (encodeByte cfg p (P.getD j 0)).1 }
        (orders.getD (2 * (j * cfg.dither + p)) .lowByteFirst) ++
      SymWrite.bytes cfg { ph := p, idx := 2 * j + 1, sym := (encodeByte cfg p (P.getD j 0)).2 }
        (orders.getD (2 * (j * cfg.dither + p) + 1) .lowByteFirst) := by
  have hlt : 2 * (j * cfg.dither + p) + 1 < orders.length := by
    have hrow : (j + 1) * cfg.dither ≤ P.length * cfg.dither := Nat.mul_le_mul_right _ hj
    rw [h]
    linarith
  obtain ⟨rest, hsyms⟩ := drop_streamSymbols_phase hj hp
  rw [show 4 * (j * cfg.dither + p) = 2 * (2 * (j * cfg.dither + p)) by ring, drop_renderList, hsyms,
    List.drop_eq_getElem_cons (by omega), List.drop_eq_getElem_cons hlt, List.zipWith_cons_cons,
    List.zipWith_cons_cons, List.flatten_cons, List.flatten_cons, ← List.append_assoc,
    List.take_left' (by simp), List.getD_eq_getElem orders _ (by omega),
    List.getD_eq_getElem orders _ hlt]

theorem renderList_length {cfg : Params} {P : List Byte} {orders : List ByteOrder}
    (h : orders.length = 2 * cfg.dither * P.length) :
    (renderList cfg P orders).length = 4 * cfg.dither * P.length := by
  have hsyms : (streamSymbols cfg 0 P).length = 2 * cfg.dither * P.length := by
    rw [streamSymbols_length, Nat.mul_comm]
  rw [renderList, List.length_flatten,
    List.sum_eq_card_nsmul _ 2 (List.forall_mem_map.mpr length_of_mem_zipWith_bytes), List.length_map,
    List.length_zipWith, hsyms, h, Nat.min_self, smul_eq_mul]
  ring

/-! ## How often a byte is written (R144) -/

/-- A symbol write writes each of its symbol's two bytes once, in either order, and no other byte. -/
theorem SymWrite.countP_bytes (cfg : Params) (w : SymWrite) (o : ByteOrder) (p off : Nat) :
    (w.bytes cfg o).countP (fun x => x.buf == .phase p && x.off == off) =
      if w.ph = p ∧ w.idx = off / 2 then 1 else 0 := by
  by_cases hl : off = lowOffset cfg (off / 2)
  · cases o <;> simp [SymWrite.bytes, List.countP_cons, lowOffset_eq_iff, highOffset_eq_iff, ← hl]
  · cases o <;> simp [SymWrite.bytes, List.countP_cons, lowOffset_eq_iff, highOffset_eq_iff, hl]

/-- A byte is written as often as its symbol. -/
theorem countP_zipWith_bytes (cfg : Params) {ws : List SymWrite} {orders : List ByteOrder}
    (h : orders.length = ws.length) (p off : Nat) :
    (List.zipWith (SymWrite.bytes cfg) ws orders).flatten.countP (fun x => x.buf == .phase p && x.off == off) =
      ws.countP fun w => w.ph = p ∧ w.idx = off / 2 := by
  induction ws generalizing orders with
  | nil => simp
  | cons w ws ih =>
    cases orders with
    | nil => simp at h
    | cons o orders =>
      rw [List.zipWith_cons_cons, List.flatten_cons, List.countP_append, ih (by simpa using h),
        SymWrite.countP_bytes, List.countP_cons, Nat.add_comm]
      simp only [decide_eq_true_eq]

/-- A stream byte's symbol writes write a symbol of a phase once if it is one of that byte, and else not. -/
theorem countP_byteSymbols {cfg : Params} {p : Nat} (hp : p < cfg.dither) (j i : Nat) (b : Byte) :
    (byteSymbols cfg j b).countP (fun w => w.ph = p ∧ w.idx = i) = if i / 2 = j then 1 else 0 := by
  rw [byteSymbols, List.countP_flatMap, List.sum_map_eq_nsmul_single p _ fun q hq _ => by simp [hq],
    List.count_range, if_pos hp]
  simp only [Function.comp_apply, List.countP_cons, List.countP_nil, true_and, decide_eq_true_eq, one_smul]
  split_ifs <;> omega

/-- A stream's symbol writes write every symbol of a phase once. -/
theorem countP_streamSymbols {cfg : Params} {p : Nat} (hp : p < cfg.dither) (P : List Byte) (j i : Nat) :
    (streamSymbols cfg j P).countP (fun w => w.ph = p ∧ w.idx = i) =
      if j ≤ i / 2 ∧ i / 2 < j + P.length then 1 else 0 := by
  induction P generalizing j with
  | nil => 
    rw [if_neg (by simp only [List.length_nil]; omega)]
    rfl
  | cons b P ih =>
    rw [streamSymbols, List.countP_append, countP_byteSymbols hp, ih, List.length_cons]
    split_ifs <;> omega

/-! ## The obligation -/

/-- Settles O13: the entries by the places of the blocks they stand in, the one write of a byte by counting the
writes of its symbol, and the values by the symbol that each write belongs to. -/
theorem writeListCoversEveryByteOnce : Obligations.WriteListCoversEveryByteOnce := by
  refine fun cfg P orders h => ⟨renderList_length h, fun j p => renderList_entry h, fun p off hp ho => ?_,
    fun x hx => ?_⟩
  · rw [← List.countP_eq_length_filter, renderList, countP_zipWith_bytes cfg (by rw [h, streamSymbols_length]; ring),
      countP_streamSymbols hp, if_pos (by omega)]
  · obtain ⟨w, o, hw, hb⟩ := mem_renderList hx
    obtain ⟨hph, hidx, hsym⟩ := streamSymbol_of_mem hw
    obtain ⟨hbuf, hoff, hval⟩ := SymWrite.bytes_of_streamSymbol hb hsym
    exact ⟨w.ph, hbuf, hph, by omega, hval⟩

end Sys2Proof.Machine

/-! SUPPORT. The proofs about the lifecycle commands: the answers of `INIT` and `TEARDOWN`, and the ways to `Ready`. -/

namespace Sys2Proof.Machine

/-! ## The answers of a lifecycle command -/

/-- A lifecycle command's error writes `LAST_ERR` and `FAULT`, responds, and changes nothing else (R213). -/
theorem answersMarked_raise {i : Instr} {e : Status} {f : Bool} {s : State} (hi : isLifecycle i = true)
    (hf : (s.reg.fault || e.setsFault) = f) : AnswersMarked s (s.raise i e) e f := by
  subst hf
  simp [AnswersMarked, State.raise, State.markFault, State.setLastErr, State.respond, State.respondTo, hi]

/-! ## `INIT` (R173 to R175) -/

theorem allocOK_iff {cfg : Params} {n : Nat} : allocOK cfg n = true ↔
    1 ≤ n ∧ n ≤ cfg.maxLeds ∧ 12 * n ≤ cfg.maxDescBytes ∧ cfg.dither * 12 * n + cfg.gapBytes ≤ cfg.bufMemBytes := by
  simp [allocOK, and_assoc, Nat.mul_assoc]

section
variable {count : BitVec 16} {s : State}

theorem exec_init_of_ready (hr : s.reg.state = .ready) :
    exec (.init count) s = .next (s.raise (.init count) .stateError) := if_pos hr

theorem exec_init_of_not_allocOK (hr : s.reg.state ≠ .ready) (ha : allocOK s.cfg count.toNat = false) :
    exec (.init count) s = .next (s.raise (.init count) .allocationError) := by
  simp [exec, execInit, hr, ha]

theorem exec_init_of_allocOK (hr : s.reg.state ≠ .ready) (ha : allocOK s.cfg count.toNat = true) :
    exec (.init count) s = .next (s.initialise count) := by
  simp [exec, execInit, hr, ha]

/-- After `INIT` every byte of every phase buffer is 0 (R141, R173). -/
theorem State.initialise_bufRead_phase {p off : Nat} (hp : p < s.cfg.dither) (ho : off < 12 * count.toNat) :
    (s.initialise count).bufRead (.phase p) off = some 0 :=
  State.bufRead_eq_some.mpr ⟨rfl, ho, [], by simp [freshBuffers, hp], rfl⟩

/-- After `INIT` every byte of the gap buffer is 0 (R141, R173). -/
theorem State.initialise_bufRead_gap {off : Nat} (ho : off < s.cfg.gapBytes) :
    (s.initialise count).bufRead .gap off = some 0 :=
  State.bufRead_eq_some.mpr ⟨rfl, ho, [], rfl, rfl⟩

end

/-! ## `SHOW` (R177) -/

section
variable {count : BitVec 16} {P : List Byte} {s : State}

theorem exec_showPixels_of_not_ready (hl : P.length = 3 * count.toNat) (hr : s.reg.state ≠ .ready) :
    exec (.showPixels count P) s = .next (s.raise (.showPixels count P) .notInitializedError) := by
  simp [exec, execShowPixels, hl, hr]

theorem exec_showPixels_of_busy (hl : P.length = 3 * count.toNat) (hr : s.reg.state = .ready)
    (hb : s.reg.busy = true) :
    exec (.showPixels count P) s = .next (s.raise (.showPixels count P) .reentrancyError) := by
  simp [exec, execShowPixels, hl, hr, hb]

/-- A command word alone is no `SHOW`: its payload is still to be read (R81). -/
theorem decodeHead_ne_plain_showPixels (w : Word) : decodeHead w ≠ .plain (.showPixels count P) := by
  unfold decodeHead
  repeat' refine iteInduction (motive := (· ≠ Head.plain (.showPixels count P))) (fun _ => ?_) fun _ => ?_
  all_goals simp

/-- A decoded `SHOW` has its whole payload (R70). -/
theorem length_of_decode_showPixels {w : Word} {ws rest : List Word}
    (h : decode (w :: ws) = .ok (.showPixels count P) rest) : P.length = 3 * count.toNat := by
  rw [decode] at h
  split at h
  · next hw => cases h; exact absurd hw (decodeHead_ne_plain_showPixels w)
  · cases h
  · split_ifs at h with hlen
    cases h
    simp only [List.length_take, wordsBytes_length, payloadLen] at hlen ⊢
    omega

end

/-! ## `TEARDOWN` (R183) -/

section
variable {s : State}

theorem exec_teardown_of_uninitialized (h : s.reg.state = .uninitialized) :
    exec .teardown s = .next (s.raise .teardown .notInitializedError) := by
  simp [exec, execTeardown, h]

theorem exec_teardown_of_stopped (h : s.reg.state = .stopped) :
    exec .teardown s = .next ((s.setLastErr .ok).respond .ok 0) := by
  simp [exec, execTeardown, h]

theorem exec_teardown_of_busy (h : s.reg.state = .ready) (hb : s.reg.busy = true) :
    exec .teardown s = .next (s.raise .teardown .reentrancyError) := by
  simp [exec, execTeardown, h, hb]

theorem exec_teardown_of_idle (h : s.reg.state = .ready) (hb : s.reg.busy = false) :
    exec .teardown s = .next (s.dmaStop.release.respond .ok 0) := by
  simp [exec, execTeardown, h, hb]

end

/-! ## The state in which a move is taken -/

@[simp] theorem State.nextMove_cfg (s : State) : s.nextMove.2.cfg = s.cfg := by
  obtain ⟨_, _, h⟩ := s.nextMove_state; rw [h]

@[simp] theorem State.nextMove_mem (s : State) : s.nextMove.2.mem = s.mem := by
  obtain ⟨_, _, h⟩ := s.nextMove_state; rw [h]

/-! ## The ways to `Ready` (R172, R185) -/

/-- A command leads to `Ready` from outside only where it is an `INIT` whose allocation check holds. -/
theorem exec_eq_init_of_to_ready {i : Instr} {s t : State} (hr : s.reg.state ≠ .ready) (h : exec i s = .next t)
    (ht : t.reg.state = .ready) : ∃ count, i = .init count ∧ allocOK s.cfg count.toNat = true := by
  cases exec_cases h with
  | error => exact absurd (by simpa using ht) hr
  | read => exact absurd ht hr
  | initialise count _ ha => exact ⟨count, rfl, ha⟩
  | accepted _ _ _ hready => exact absurd hready hr
  | stopAgain => exact absurd ht hr
  | stop => cases ht

/-- The acceptance step of a command is the only move that leads to `Ready` from outside. -/
theorem takeMove_eq_accept_of_to_ready {m : Move} {s t : State} (hr : s.reg.state ≠ .ready)
    (hs : takeMove m s = .next t) (ht : t.reg.state = .ready) :
    ∃ h cmd i, m = .accept h ∧ s.pending h = some cmd ∧ decode (cmd.word :: cmd.payload) = .ok i [] ∧
      exec i { s with issuer := h } = .next t := by
  cases m with
  | issue h => obtain rfl | ⟨_, _, _, _, _, _, _, rfl⟩ := stepIssue_cases hs <;> exact absurd ht hr
  | accept h =>
    obtain ⟨-, rfl⟩ | ⟨cmd, i, hp, hd, he⟩ | ⟨_, _, _, -, -, rfl⟩ := stepAccept_cases hs
    · exact absurd ht hr
    · exact ⟨h, cmd, i, rfl, hp, hd, he⟩
    · exact absurd ht hr
  | render =>
    obtain ⟨-, rfl⟩ | ⟨_, -, rfl⟩ | ⟨_, _, _, u, -, hu, rfl⟩ := stepRender_cases hs
    · exact absurd ht hr
    · exact absurd ht hr
    · obtain ⟨-, -, _, -, rfl⟩ := State.bufWrite_eq_some.mp hu
      exact absurd ht hr
  | dmaRead => obtain ⟨-, rfl⟩ | ⟨_, _, _, _, _, rfl⟩ := stepDmaRead_cases hs <;> exact absurd ht hr
  | dmaFlags => obtain ⟨_, rfl, -⟩ := stepDmaFlags_links hs; exact absurd ht hr
  | reset => cases hs; cases ht

/-! ## The obligations -/

/-- Settles O11: the three answers by the lifecycle state and the allocation check. -/
theorem initAnswers : Obligations.InitAnswers := by
  refine fun count s => ⟨fun hr => ⟨_, exec_init_of_ready hr, answersMarked_raise rfl (Bool.or_true _)⟩,
    fun hr ha => ⟨_, exec_init_of_not_allocOK hr ?_, answersMarked_raise rfl (Bool.or_false _)⟩,
    fun hr ha => ⟨_, exec_init_of_allocOK hr (allocOK_iff.mpr ha), rfl, rfl, rfl,
      fun p off => State.initialise_bufRead_phase, fun off => State.initialise_bufRead_gap, rfl, rfl, ?_, rfl, rfl⟩⟩
  · exact Bool.eq_false_iff.mpr fun h => ha (allocOK_iff.mp h)
  · simp [ringHead]

/-- Settles O23: the checks of the four commands, and the moves of the agents. -/
theorem onlyInitLeadsBackToReady : Obligations.OnlyInitLeadsBackToReady := by
  refine ⟨fun s hstop => ?_, fun s t hr hs ht => ?_⟩
  · have hr : s.reg.state ≠ .ready := by simp [hstop]
    refine ⟨fun count P hl => ⟨_, exec_showPixels_of_not_ready hl hr, answersMarked_raise rfl (Bool.or_false _)⟩, ?_⟩
    rintro i sel idx fld di (rfl | rfl | rfl)
    · exact ⟨_, exec_bufRdh_of_not_ready hr, answers_raise rfl rfl s⟩
    · exact ⟨_, exec_bufRdb_of_not_ready hr, answers_raise rfl rfl s⟩
    · exact ⟨_, exec_descRd_of_not_ready hr, answers_raise rfl rfl s⟩
  · obtain ⟨h, cmd, i, hm, hp, hd, he⟩ := takeMove_eq_accept_of_to_ready (by simpa using hr) hs ht
    obtain ⟨count, rfl, ha⟩ := exec_eq_init_of_to_ready (by simpa using hr) he ht
    exact ⟨h, cmd, count, hm, by simpa using hp, hd, by simpa using ha⟩

/-- Settles O21: one lemma for each row of R172's table. -/
theorem teardownAnswers : Obligations.TeardownAnswers := fun _ =>
  ⟨fun h => ⟨_, exec_teardown_of_uninitialized h, answersMarked_raise rfl (Bool.or_false _)⟩,
    fun h => ⟨_, exec_teardown_of_stopped h, rfl⟩,
    fun h hb => ⟨_, exec_teardown_of_busy h hb, answersMarked_raise rfl (Bool.or_false _)⟩,
    fun h hb => ⟨_, exec_teardown_of_idle h hb, rfl, rfl, State.bufRead_of_not_allocated rfl, rfl, rfl, rfl, rfl, rfl⟩⟩

/-- Settles O52: the state that a `TEARDOWN` leaves, whose engine does not run. -/
theorem teardownIsAHardStop : Obligations.TeardownIsAHardStop := by
  intro s t hr hb h
  rw [exec_teardown_of_idle hr hb] at h
  cases h
  exact ⟨rfl, rfl, rfl⟩

end Sys2Proof.Machine

/-! SUPPORT. The proofs about a `SHOW` in flight: its write list while it renders, and its completion. -/

namespace Sys2Proof.Machine

/-! ## A render in flight -/

/-- A render is in flight only while `Ready` and `BUSY` (R35, R172). -/
theorem Inv.ready_busy_of_rendering {s : State} (hi : Inv s) {h : Nat} {W : List ByteWrite}
    (hr : s.rs = .rendering h W) : s.reg.state = .ready ∧ s.reg.busy = true := by
  obtain ⟨-, -, -, -, -, -, -, -, hbusy, hready, -⟩ := hi
  rw [hr] at hbusy hready
  exact ⟨hready rfl, hbusy⟩

/-- A command leaves the render sequencer while it is `BUSY`. -/
theorem exec_rs_of_busy {i : Instr} {s t : State} (hb : s.reg.busy = true) (h : exec i s = .next t) : t.rs = s.rs := by
  cases exec_cases h with
  | accepted _ _ _ _ hidle => simp [hb] at hidle
  | _ => simp

/-- Every step leaves the list in flight, or performs its head, or completes it, or is a reset (R182). -/
theorem step_rs_of_rendering {s t : State} {h : Nat} {W : List ByteWrite} (hi : Inv s) (hr : s.rs = .rendering h W)
    (hs : step s = .next t) : t.rs = s.rs ∨
      (∃ w ws, W = w :: ws ∧ s.nextMove.1 = .render ∧ t.bufRead w.buf w.off = some w.val ∧ t.rs = .rendering h ws) ∨
      (W = [] ∧ s.nextMove.1 = .render ∧ t.rs = .idle) ∨ s.nextMove.1 = .reset := by
  obtain ⟨-, hbusy⟩ := hi.ready_busy_of_rendering hr
  obtain ⟨m, hm⟩ : ∃ m, s.nextMove.1 = m := ⟨_, rfl⟩
  rw [step_eq_takeMove hm] at hs
  rw [← s.nextMove_rs] at hr ⊢
  cases m with
  | issue g => obtain rfl | ⟨_, _, _, _, _, _, _, rfl⟩ := stepIssue_cases hs <;> exact .inl rfl
  | accept g =>
    refine .inl ?_
    obtain ⟨-, rfl⟩ | ⟨_, i, -, -, he⟩ | ⟨_, _, _, -, -, rfl⟩ := stepAccept_cases hs
    · rfl
    · exact (exec_rs_of_busy (by simpa using hbusy) he :)
    · rfl
  | render =>
    obtain ⟨hidle, -⟩ | ⟨g, hg, rfl⟩ | ⟨g, w, ws, u, hg, hu, rfl⟩ := stepRender_cases hs
    · cases hr.symm.trans hidle
    · cases hr.symm.trans hg
      exact .inr (.inr (.inl ⟨rfl, hm, rfl⟩))
    · cases hr.symm.trans hg
      have hread : u.bufRead w.buf w.off = some w.val :=
        State.bufRead_bufWrite_same (lo := 0) hu fun m hb => hi.buffer_wf (by simpa using hb)
      exact .inr (.inl ⟨w, ws, rfl, hm, hread, rfl⟩)
  | dmaRead => obtain ⟨-, rfl⟩ | ⟨_, _, _, _, _, rfl⟩ := stepDmaRead_cases hs <;> exact .inl rfl
  | dmaFlags => obtain ⟨_, rfl, -⟩ := stepDmaFlags_links hs; exact .inl rfl
  | reset => exact .inr (.inr (.inr hm))

/-! ## The frame that a completed `SHOW` leaves (R143, R179) -/

theorem symbolHigh_append_symbolLow (x : Symbol) : symbolHigh x ++ symbolLow x = x :=
  (BitVec.extractLsb'_append_extractLsb'_eq_extractLsb' (x := x) rfl).trans (extract_all x)

/-- The two bytes of a symbol of a rendered stream give the symbol, in either byte order (R53). -/
theorem joinBytes_streamByte (cfg : Params) (P : List Byte) (p i : Nat) :
    joinBytes cfg (streamByte cfg P p (2 * i)) (streamByte cfg P p (2 * i + 1)) = streamSymbol cfg P p i := by
  have h0 : 2 * i / 2 = i := by omega
  have h1 : (2 * i + 1) / 2 = i := by omega
  cases he : cfg.bufEndian <;>
    simp [joinBytes, streamByte_eq, h0, h1, lowOffset, he, symbolHigh_append_symbolLow]

/-- A render that tracks its stream and has no write to come has shown the frame. -/
theorem RenderTracks.frameShown {P : List Byte} {s : State} {h : Nat} (ht : RenderTracks P s)
    (hr : s.rs = .rendering h []) : FrameShown P s := by
  have hbyte : ∀ p off, p < s.cfg.dither → off < 12 * s.reg.numLeds.toNat →
      s.bufRead (.phase p) off = some (streamByte s.cfg P p off) := by
    intro p off hp ho
    simp only [RenderTracks, hr] at ht
    exact (ht p off hp ho).2 (by simp)
  have hsymbol : ∀ p i, p < s.cfg.dither → i < 6 * s.reg.numLeds.toNat →
      s.symbolAt p i = some (streamSymbol s.cfg P p i) := by
    intro p i hp hi
    simp only [State.symbolAt, hbyte p (2 * i) hp (by omega), hbyte p (2 * i + 1) hp (by omega), joinBytes_streamByte]
  intro p j hp hj
  rw [hsymbol p _ hp (by omega), hsymbol p _ hp (by omega), streamSymbol_even, streamSymbol_odd]
  exact ⟨rfl, rfl⟩

/-- The completion step leaves every byte as it was (R179). -/
theorem State.completeShow_sameBytes (h : Nat) (s : State) : SameBytes s (s.completeShow h) :=
  sameBytes_of_eq rfl rfl rfl rfl

/-- A frame stays shown where the parameters, the strip length and the bytes are the same. -/
theorem FrameShown.of_sameBytes {P : List Byte} {s t : State} (hf : FrameShown P s) (hb : SameBytes s t)
    (hc : t.cfg = s.cfg) (hn : t.reg.numLeds = s.reg.numLeds) : FrameShown P t := by
  simpa only [FrameShown, State.symbolAt, hb _ _, hc, hn] using hf

/-! ## The obligations -/

/-- Settles O15: the completion step, and the frame of a render with no write to come. -/
theorem showCompletionResponds : Obligations.ShowCompletionResponds := fun s h hr =>
  ⟨_, stepRender_of_completion hr, rfl, s.completeShow_sameBytes h,
    fun _ ht => (ht.frameShown hr).of_sameBytes (s.completeShow_sameBytes h) rfl rfl⟩

/-- Settles O20: a good state with a render in flight is `Ready` and `BUSY`, so a second `SHOW` is refused; the moves
of the agents say what a step does to the list in flight. -/
theorem oneShowInFlightAtATime : Obligations.OneShowInFlightAtATime := by
  refine ⟨fun s h g W rest cmd count P hi hr hm hp hd => ?_, fun s t h W => step_rs_of_rendering⟩
  obtain ⟨hready, hbusy⟩ := hi.ready_busy_of_rendering hr
  have hstep : step s = .next (({ s with sched := rest, issuer := g } : State).raise (.showPixels count P)
      .reentrancyError) := by
    have hl := length_of_decode_showPixels hd
    rw [step_of_sched hm]
    exact (stepAccept_of_decode (s := { s with sched := rest }) hp hd).trans
      (exec_showPixels_of_busy hl hready hbusy)
  exact ⟨_, hstep, sameBytes_of_eq (by simp) (by simp) (by simp) (by simp), by simp,
    by simp [State.raise_reg, isLifecycle, Status.setsFault], by simp⟩

end Sys2Proof.Machine

/-! SUPPORT. The proof about `REG_RD`: a read is a lookup in the register map. -/

namespace Sys2Proof.Machine

/-! ## `REG_RD` (R187) -/

section
variable {rn : BitVec 4} {s : State}

theorem exec_regRd_of_regValue {v : Word} (h : regValue s rn = some v) :
    exec (.regRd rn) s = .next (s.respond .ok v) := by
  simp [exec, execRegRd, h]

theorem exec_regRd_of_reserved (h : regValue s rn = none) :
    exec (.regRd rn) s = .next (s.raise (.regRd rn) .rangeError) := by
  simp [exec, execRegRd, h]

/-- The registers of the map of R34 in order, each zero-extended. -/
def registerMap (s : State) : List Word :=
  [BitVec.ofNat 32 s.reg.state.code.toNat, BitVec.ofNat 32 s.reg.busy.toNat, BitVec.ofNat 32 s.reg.fault.toNat,
   BitVec.ofNat 32 s.reg.lastErr.code.toNat, BitVec.ofNat 32 s.reg.numLeds.toNat, BitVec.ofNat 32 (s.cfg.dither % 16),
   BitVec.ofNat 32 s.reg.head.toNat, BitVec.ofNat 32 s.reg.dmaRun.toNat,
   if s.reg.state = .ready then BitVec.ofNat 32 (12 * s.reg.numLeds.toNat) else 0,
   BitVec.ofNat 32 s.cfg.gapBytes, configWord s.cfg]

theorem zeroExtend_eq_ofNat {n : Nat} (x : BitVec n) : x.zeroExtend 32 = BitVec.ofNat 32 x.toNat :=
  (BitVec.ofNat_toNat 32 x).symm

theorem bit_toNat (b : Bool) : (bit b).toNat = b.toNat := BitVec.toNat_ofBool b

/-- Register 8 reads `PHASE_BYTES`, which is 0 outside `Ready` (R30). -/
theorem ofNat_phaseBytes (s : State) : BitVec.ofNat 32 s.phaseBytes =
    if s.reg.state = .ready then BitVec.ofNat 32 (12 * s.reg.numLeds.toNat) else 0 :=
  apply_ite (BitVec.ofNat 32) ..

/-- A register read is a lookup in the map; the numbers behind it are reserved (R33, R187). -/
theorem regValue_eq_registerMap : regValue s rn = (registerMap s)[rn.toNat]? := by
  simp only [regValue, registerMap, zeroExtend_eq_ofNat, bit_toNat, ofNat_phaseBytes, BitVec.toNat_ofNat]
  obtain ⟨k, hk⟩ := rn
  interval_cases k <;> rfl

end

/-! ## The obligation -/

/-- Settles O30: a read is a lookup in the register map. -/
theorem regRdReadsTheRegister : Obligations.RegRdReadsTheRegister := by
  refine fun rn s => ⟨fun h => ⟨_, exec_regRd_of_reserved ?_, answers_raise rfl rfl s⟩,
    fun v hv => ⟨_, exec_regRd_of_regValue ?_, answers_respond ..⟩⟩
  · rw [regValue_eq_registerMap]
    exact List.getElem?_eq_none h
  · change (rn.toNat, v) ∈ (registerMap s).zipIdx.map Prod.swap at hv
    have hmem : (v, rn.toNat) ∈ (registerMap s).zipIdx := by simpa using hv
    rw [regValue_eq_registerMap, List.mem_zipIdx_iff_getElem?.mp hmem]

end Sys2Proof.Machine

/-! SUPPORT. The proof about the output stream: a traversal of the ring, byte by byte, descriptor by descriptor and pair
by pair. -/

namespace Sys2Proof.Machine

/-! ## Runs -/

/-- A run of `m + n` steps goes on with `n` steps where `m` steps end. -/
theorem run_add {m n : Nat} {s t : State} (h : Host.Core.run Sys2Proof.core m s = .next t) :
    Host.Core.run Sys2Proof.core (m + n) s = Host.Core.run Sys2Proof.core n t := by
  induction m generalizing s with
  | zero =>
    cases h
    rw [Nat.zero_add]
  | succ m ih =>
    rw [Nat.succ_add]
    simp only [Host.Core.run] at h ⊢
    split at h
    · next u _ => exact ih h
    · cases h
    · cases h

/-- A run of one step is the step. -/
theorem run_one_of_step {s t : State} (h : step s = .next t) : Host.Core.run Sys2Proof.core 1 s = .next t := by
  have hcore : Sys2Proof.core.step s = .next t := h
  simp [Host.Core.run, hcore]

/-- A running engine emits the byte under its cursor (R190). -/
theorem stepDmaRead_of_byte {s : State} {d : Desc} {x : Byte} (hrun : s.dma.running = true)
    (hd : s.desc[s.dma.cur]? = some d) (hx : s.bufRead d.buf s.dma.off = some x) :
    stepDmaRead s = .next { s with stream := s.stream ++ [x], dma := s.dma.advance d } := by
  simp [stepDmaRead, hrun, hd, hx]

/-! ## Reading bytes of an unchanged ring (R190, R193) -/

/-- `s` with the bytes `E` emitted since, the cursor at byte `p.2` of descriptor `p.1`, and the moves `ms` to come. -/
def State.emitted (s : State) (E : List Byte) (p : Nat × Nat) (ms : List Move) : State :=
  { s with stream := s.stream ++ E, dma := { s.dma with cur := p.1, off := p.2 }, sched := ms }

/-- From the state `s`, but for the cursor, `n` read steps take the cursor from `p` to `q` and emit `bytes`,
whatever was emitted before and whatever moves come after. -/
def Emits (s : State) (n : Nat) (bytes : List Byte) (p q : Nat × Nat) : Prop :=
  ∀ E rest, Host.Core.run Sys2Proof.core n (s.emitted E p (List.replicate n .dmaRead ++ rest)) =
    .next (s.emitted (E ++ bytes) q rest)

section
variable {s : State}

theorem Emits.refl (p : Nat × Nat) : Emits s 0 [] p p := fun E rest => by
  simp [Host.Core.run]

theorem Emits.trans {m n : Nat} {xs ys : List Byte} {p q r : Nat × Nat} (h₁ : Emits s m xs p q)
    (h₂ : Emits s n ys q r) : Emits s (m + n) (xs ++ ys) p r := fun E rest => by
  rw [List.replicate_add, List.append_assoc, run_add (h₁ E _), h₂, List.append_assoc]

/-- One read step emits the byte under the cursor and moves on (R190). -/
theorem Emits.byte {c off : Nat} {d : Desc} {x : Byte} (hrun : s.dma.running = true) (hd : s.desc[c]? = some d)
    (hx : s.bufRead d.buf off = some x) :
    Emits s 1 [x] (c, off) (if off + 1 = d.len then (d.next, 0) else (c, off + 1)) := fun E rest => by
  have hread : (s.emitted E (c, off) rest).bufRead d.buf off = some x :=
    (State.bufRead_congr rfl rfl rfl rfl d.buf off).trans hx
  have hstep : step (s.emitted E (c, off) (.dmaRead :: rest)) = stepDmaRead (s.emitted E (c, off) rest) :=
    step_of_sched (s := s.emitted E (c, off) (.dmaRead :: rest)) rfl
  refine run_one_of_step (hstep.trans ((stepDmaRead_of_byte (s := s.emitted E (c, off) rest) hrun hd hread).trans ?_))
  by_cases hend : off + 1 = d.len <;> simp [State.emitted, DmaCursor.advance, hend]

/-- The read steps from byte `off` of a descriptor on emit its other bytes and go to the next descriptor. -/
theorem Emits.descriptor_from {c n off : Nat} {d : Desc} (hrun : s.dma.running = true) (hd : s.desc[c]? = some d)
    (hx : ∀ o, o < d.len → ∃ x, s.bufRead d.buf o = some x) (hn : off + (n + 1) = d.len) :
    Emits s (n + 1) ((List.range' off (n + 1)).map fun o => (s.bufRead d.buf o).getD 0) (c, off) (d.next, 0) := by
  induction n generalizing off with
  | zero =>
    obtain ⟨x, hb⟩ := hx off (by omega)
    have hlast := Emits.byte hrun hd hb
    rw [if_pos hn] at hlast
    simpa [hb] using hlast
  | succ n ih =>
    obtain ⟨x, hb⟩ := hx off (by omega)
    have hfirst := Emits.byte hrun hd hb
    rw [if_neg (by omega)] at hfirst
    have hrest := ih (off := off + 1) (by omega)
    rw [List.range'_succ, List.map_cons, hb, Nat.add_comm (n + 1)]
    exact hfirst.trans hrest

/-- The read steps of a whole descriptor emit its buffer and go to the next descriptor (R193). -/
theorem Emits.descriptor {c : Nat} {d : Desc} (hrun : s.dma.running = true) (hd : s.desc[c]? = some d)
    (hlen : d.len = s.bufLen d.buf) (hpos : 0 < d.len) (hx : ∀ o, o < d.len → ∃ x, s.bufRead d.buf o = some x) :
    Emits s d.len (s.bufBytes d.buf) (c, 0) (d.next, 0) := by
  obtain ⟨n, hn⟩ := Nat.exists_eq_succ_of_ne_zero hpos.ne'
  rw [State.bufBytes, ← hlen, List.range_eq_range', hn]
  exact Emits.descriptor_from hrun hd hx (by omega)

end

/-! ## One traversal of the ring of a good `Ready` state -/

section
variable {s : State} (hi : Inv s) (hr : s.reg.state = .ready)
include hi hr

theorem Inv.running_of_ready : s.dma.running = true := by
  obtain ⟨-, -, -, -, -, -, -, hdma, -⟩ := hi
  simp only [State.dmaOK, hr, if_true] at hdma
  obtain ⟨-, -, hrun, -⟩ := hdma
  exact hrun

theorem Inv.numLeds_pos : 0 < s.reg.numLeds.toNat := by
  obtain ⟨-, -, -, -, -, hstrip, -⟩ := hi
  exact (allocOK_iff.mp (hstrip hr)).1

/-- The read steps of ring pair `q` emit its phase buffer and the gap buffer (R148, R193). -/
theorem Inv.emits_pair {q : Nat} (hq : q < s.cfg.dither) :
    Emits s (12 * s.reg.numLeds.toNat + s.cfg.gapBytes)
      (s.bufBytes (.phase (phasePermOf s.cfg q)) ++ s.bufBytes .gap)
      (2 * q, 0) ((2 * q + 2) % (2 * s.cfg.dither), 0) := by
  obtain ⟨d, hd, hb, hl, hn⟩ := hi.desc_pixel hr hq
  obtain ⟨e, he, heb, hel, hen⟩ := hi.desc_gap hr hq
  have hrun := hi.running_of_ready hr
  have hpos := hi.numLeds_pos hr
  obtain ⟨-, -, hgap, -⟩ := legalParams_bounds hi.1
  have hpixel := Emits.descriptor hrun hd (by simp [hl, hb, State.bufLen, State.phaseBytes_of_ready hr]) (by omega)
    fun o ho => hb ▸ hi.bufRead_isSome hr (phasePermOf_lt hi.1 hq) (hl ▸ ho)
  have hgaps := Emits.descriptor hrun he (by simp [hel, heb, State.bufLen]) (by omega)
    fun o ho => ⟨0, heb ▸ hi.bufRead_gap hr (hel ▸ ho)⟩
  rw [hb, hl, hn] at hpixel
  rw [heb, hel, hen] at hgaps
  exact hpixel.trans hgaps

/-- The read steps of the first `k` ring pairs emit their buffers one after the other. -/
theorem Inv.emits_pairs {k : Nat} (hk : k ≤ s.cfg.dither) :
    Emits s (k * (12 * s.reg.numLeds.toNat + s.cfg.gapBytes))
      ((List.range k).flatMap fun q => s.bufBytes (.phase (phasePermOf s.cfg q)) ++ s.bufBytes .gap)
      (0, 0) (2 * k % (2 * s.cfg.dither), 0) := by
  induction k with
  | zero => simpa using Emits.refl (0, 0)
  | succ k ih =>
    have hprefix := ih (by omega)
    rw [Nat.mod_eq_of_lt (by omega)] at hprefix
    rw [Nat.succ_mul, List.range_succ, List.flatMap_append, List.flatMap_singleton]
    exact hprefix.trans (hi.emits_pair hr hk)

/-- One traversal from the head emits every buffer in ring order and comes back to the head (R193). -/
theorem Inv.emits_traversal :
    Emits s (s.cfg.dither * (12 * s.reg.numLeds.toNat + s.cfg.gapBytes)) s.traversal (0, 0) (0, 0) := by
  simpa [State.traversal] using hi.emits_pairs hr le_rfl

end

/-! ## The obligation -/

/-- Settles O50: a read step emits a byte, so by induction a descriptor its buffer, and by induction on the pairs the
ring its traversal. -/
theorem outputStreamIsTheRingTraversal : Obligations.OutputStreamIsTheRingTraversal := by
  intro s rest hi hr _ hcur hoff hsched
  have hhead : (s.dma.cur, s.dma.off) = (0, 0) := by rw [hcur, hoff]
  have hrun := hi.emits_traversal hr [] rest
  rw [← hhead, ← hsched] at hrun
  have hstart : s.emitted [] (s.dma.cur, s.dma.off) s.sched = s := by simp [State.emitted]
  rw [hstart] at hrun
  exact ⟨_, hrun, rfl⟩

end Sys2Proof.Machine

/-! SUPPORT. The proof about the status codes of R210 and the two words of a response (R71). -/

namespace Sys2Proof.Machine

/-! ## Status codes and response words -/

/-- The codes 8 to 15 of R210 are reserved. -/
theorem Status.code_toNat_lt (e : Status) : e.code.toNat < 8 := by
  cases e <;> decide

theorem Response.words_eq (r : Response) : r.words = [BitVec.ofNat 32 r.status.code.toNat, r.data] := by
  rw [Response.words, zeroExtend_eq_ofNat]

/-! ## The obligation -/

/-- Settles O33: the codes in order by evaluation, their bound status by status, and the first word of a response
as a zero extension. -/
theorem statusCodes : Obligations.StatusCodes :=
  ⟨rfl, Status.code_toNat_lt, Response.words_eq⟩

end Sys2Proof.Machine

/-! SUPPORT. The proofs about the decoder and the encoder as inverses of each other, and about the packing of
payloads. -/

namespace Sys2Proof

/-! ## What a list of words decodes to, by its command word -/

theorem decode_of_plain {w : Word} {i : Instr} (h : decodeHead w = .plain i) (ws : List Word) :
    decode (w :: ws) = .ok i ws := by
  rw [decode, h]

theorem decode_of_showHead {w : Word} {count : BitVec 16} (h : decodeHead w = .showHead count) (ws : List Word) :
    decode (w :: ws) = if ws.length < payloadLen count then .shortPayload
      else .ok (.showPixels count ((wordsBytes (ws.take (payloadLen count))).take (3 * count.toNat)))
        (ws.drop (payloadLen count)) := by
  rw [decode, h]

theorem payloadWords_of_plain {w : Word} {i : Instr} (h : decodeHead w = .plain i) : payloadWords w = 0 := by
  rw [payloadWords, h]

theorem payloadWords_of_showHead {w : Word} {count : BitVec 16} (h : decodeHead w = .showHead count) :
    payloadWords w = payloadLen count := by
  rw [payloadWords, h]

/-- The command word of a `SHOW` (R73). -/
theorem decodeHead_showWord (count : BitVec 16) : decodeHead (0x2#4 ++ 0#12 ++ count) = .showHead count :=
  Option.some.inj (Laws.EncodedHead.showPixels count [])

/-! ## Decoding an encoding -/

/-- The head of every encoding, from the lemma of each command. -/
theorem encodedHead : ∀ i : Instr, Laws.EncodedHead.Statement i
  | .init c => Laws.EncodedHead.init c
  | .showPixels c P => Laws.EncodedHead.showPixels c P
  | .teardown => Laws.EncodedHead.teardown
  | .lutRd p v => Laws.EncodedHead.lutRd p v
  | .symRd n => Laws.EncodedHead.symRd n
  | .enc p v => Laws.EncodedHead.enc p v
  | .bufRdh s x => Laws.EncodedHead.bufRdh s x
  | .bufRdb s x => Laws.EncodedHead.bufRdb s x
  | .descRd f d => Laws.EncodedHead.descRd f d
  | .regRd r => Laws.EncodedHead.regRd r

/-- A command of one word reads back from it, whatever follows. -/
theorem decode_encode_of_oneWord {i : Instr} {w : Word} (hw : encode i = [w])
    (hh : Laws.EncodedHead.headOf i = .plain i) (rest : List Word) : decode (encode i ++ rest) = .ok i rest := by
  have head := encodedHead i
  rw [Laws.EncodedHead.Statement, hw, hh] at head
  rw [hw]
  exact decode_of_plain (Option.some.inj head) rest

/-- A `SHOW` with its whole payload reads back from its words, whatever follows. -/
theorem decode_encode_show {count : BitVec 16} {P : List Byte} (hP : P.length = 3 * count.toNat) (rest : List Word) :
    decode (encode (.showPixels count P) ++ rest) = .ok (.showPixels count P) rest := by
  have hlen : payloadLen count = (packBytes P).length := by rw [packBytes_length, hP, payloadLen]
  rw [encode, List.cons_append, decode_of_showHead (decodeHead_showWord count), hlen,
    if_neg (by rw [List.length_append]; omega), List.take_left, List.drop_left, ← hP, wordsBytes_packBytes]

/-! ## Encoding a decoded command -/

/-- What it means for a word to be read as `h`: the command's encoding is that word, for `SHOW` its first word. -/
def Head.Spells (w : Word) : Head → Prop
  | .plain i => encode i = [w]
  | .showHead count => 0x2#4 ++ 0#12 ++ count = w
  | .illegal _ => True

/-- One opcode of the decoder: its row's fields spell the word, and so does what the opcodes after it read. -/
theorem Head.spells_ite {w : Word} {op : BitVec 4} {reserved : Prop} [Decidable reserved] {head rest : Head}
    {cause : IllegalCause} (hhead : opField w = op → reserved → head.Spells w) (hrest : rest.Spells w) :
    (if opField w = op then if reserved then head else .illegal cause else rest).Spells w := by
  split_ifs with hop hres
  · exact hhead hop hres
  · trivial
  · exact hrest

/-- A field of a word with the field below it appended is one field of the word. -/
theorem append_lower_field {w : Word} {j k l m : Nat} (h : j = k + l) :
    w.extractLsb' j m ++ w.extractLsb' k l = w.extractLsb' k (m + l) :=
  BitVec.extractLsb'_append_extractLsb'_eq_extractLsb' h

/-- A word of format `FN16` (R73) with its reserved bits 0 is its opcode and its fields. -/
theorem word_eq_fn16 {w : Word} {op : BitVec 4} (hop : opField w = op) (h : w.extractLsb' 16 12 = 0) :
    op ++ 0#12 ++ w.extractLsb' 0 16 = w := by
  rw [← hop, ← BitVec.ofNat_eq_ofNat, ← h, opField,
    append_lower_field (by omega), append_lower_field (by omega)]
  exact extract_all w

/-- The same for the format of `TEARDOWN` (R74). -/
theorem word_eq_teardown {w : Word} {op : BitVec 4} (hop : opField w = op) (h : w.extractLsb' 0 28 = 0) :
    op ++ 0#28 = w := by
  rw [← hop, ← BitVec.ofNat_eq_ofNat, ← h, opField,
    append_lower_field (by omega)]
  exact extract_all w

/-- The same for format `FPV` (R75). -/
theorem word_eq_fpv {w : Word} {op : BitVec 4} (hop : opField w = op) (h : w.extractLsb' 11 17 = 0) :
    op ++ 0#17 ++ w.extractLsb' 8 3 ++ w.extractLsb' 0 8 = w := by
  rw [← hop, ← BitVec.ofNat_eq_ofNat, ← h, opField,
    append_lower_field (by omega), append_lower_field (by omega), append_lower_field (by omega)]
  exact extract_all w

/-- The same for formats `FNIB` (R76) and `FR` (R79). -/
theorem word_eq_nibble {w : Word} {op : BitVec 4} (hop : opField w = op) (h : w.extractLsb' 4 24 = 0) :
    op ++ 0#24 ++ w.extractLsb' 0 4 = w := by
  rw [← hop, ← BitVec.ofNat_eq_ofNat, ← h, opField,
    append_lower_field (by omega), append_lower_field (by omega)]
  exact extract_all w

/-- The same for format `FSI` (R77). -/
theorem word_eq_fsi {w : Word} {op : BitVec 4} (hop : opField w = op) (h : w.extractLsb' 20 4 = 0) :
    op ++ w.extractLsb' 24 4 ++ 0#4 ++ w.extractLsb' 0 20 = w := by
  rw [← hop, ← BitVec.ofNat_eq_ofNat, ← h, opField,
    append_lower_field (by omega), append_lower_field (by omega), append_lower_field (by omega)]
  exact extract_all w

/-- The same for format `FDF` (R78). -/
theorem word_eq_fdf {w : Word} {op : BitVec 4} (hop : opField w = op)
    (h0 : w.extractLsb' 10 18 = 0) (h1 : w.extractLsb' 4 4 = 0) :
    op ++ 0#18 ++ w.extractLsb' 8 2 ++ 0#4 ++ w.extractLsb' 0 4 = w := by
  rw [← hop, ← BitVec.ofNat_eq_ofNat, ← h0, ← BitVec.ofNat_eq_ofNat, ← h1, opField,
    append_lower_field (by omega), append_lower_field (by omega), append_lower_field (by omega),
    append_lower_field (by omega)]
  exact extract_all w

/-- What the decoder reads spells the word, opcode by opcode in the order of R72. -/
theorem decodeHead_spells (w : Word) : (decodeHead w).Spells w := by
  have hone : ∀ {x : Word}, x = w → [x] = [w] := congrArg fun x => [x]
  unfold decodeHead
  refine Head.spells_ite (fun hop h => hone (word_eq_fn16 hop h)) <|
    Head.spells_ite word_eq_fn16 <|
    Head.spells_ite (fun hop h => hone (word_eq_teardown hop h)) <|
    Head.spells_ite (fun hop h => hone (word_eq_fpv hop h)) <|
    Head.spells_ite (fun hop h => hone (word_eq_nibble hop h)) <|
    Head.spells_ite (fun hop h => hone (word_eq_fpv hop h)) <|
    Head.spells_ite (fun hop h => hone (word_eq_fsi hop h)) <|
    Head.spells_ite (fun hop h => hone (word_eq_fsi hop h)) <|
    Head.spells_ite (fun hop ⟨h0, h1⟩ => hone ?_) <|
    Head.spells_ite (fun hop h => hone (word_eq_nibble hop h)) trivial
  rw [descFieldBits_of]
  exact word_eq_fdf hop h0 h1

/-- A command that a word alone decodes to is well formed: it is no `SHOW`. -/
theorem wellFormed_of_decodeHead_plain {w : Word} {i : Instr} (h : decodeHead w = .plain i) : i.wellFormed = true := by
  cases i with
  | showPixels count P => exact absurd h (Machine.decodeHead_ne_plain_showPixels w)
  | _ => rfl

/-- The payload that a `SHOW` takes has `3 * COUNT` bytes (R70). -/
theorem showPayload_length {count : BitVec 16} {ws : List Word} (h : payloadLen count ≤ ws.length) :
    ((wordsBytes (ws.take (payloadLen count))).take (3 * count.toNat)).length = 3 * count.toNat := by
  rw [List.length_take, wordsBytes_length, List.length_take, payloadLen] at *
  omega

/-! ## The place of a payload byte (R70) -/

/-- Byte `k` of a list of words is in word `k / 4` at bit `8 * (k % 4)`. -/
theorem wordsBytes_getElem? (ws : List Word) (k : Nat) :
    (wordsBytes ws)[k]? = (ws[k / 4]?).map fun w => w.extractLsb' (8 * (k % 4)) 8 := by
  induction ws generalizing k with
  | nil => rfl
  | cons w ws ih =>
    match k with
    | 0 | 1 | 2 | 3 => rfl
    | k + 4 =>
      rw [wordsBytes, List.getElem?_append_right (by simp [wordBytes]), Nat.add_div_right k (by decide),
        Nat.add_mod_right, List.getElem?_cons_succ]
      exact ih k

/-- A payload byte stands in the words behind the command word. -/
theorem showPayload_getElem? (count : BitVec 16) (ws : List Word) {k : Nat} (hk : k < 3 * count.toNat) :
    ((wordsBytes (ws.take (payloadLen count))).take (3 * count.toNat))[k]? =
      (ws[k / 4]?).map fun w => w.extractLsb' (8 * (k % 4)) 8 := by
  rw [List.getElem?_take_of_lt hk, wordsBytes_getElem?, List.getElem?_take_of_lt (by rw [payloadLen]; omega)]

/-! ## The obligations -/

/-- Settles O2: a command of one word by its head, and a `SHOW` by its packed payload. -/
theorem decodeOfEncodeIsTheCommand : Obligations.DecodeOfEncodeIsTheCommand := by
  intro i rest hi
  cases i with
  | showPixels count P => exact decode_encode_show (beq_iff_eq.mp hi) rest
  | _ => exact decode_encode_of_oneWord rfl rfl rest

/-- Settles O3: the head that a word decodes to spells the word, and a `SHOW` takes its payload words. -/
theorem decodedWordIsTheEncodedWord : Obligations.DecodedWordIsTheEncodedWord := by
  intro w ws i rest h
  have hspells := decodeHead_spells w
  cases hw : decodeHead w with
  | plain j =>
    rw [hw] at hspells
    rw [decode_of_plain hw] at h
    cases h
    rw [payloadWords_of_plain hw]
    exact ⟨by rw [show encode i = [w] from hspells]; rfl, wellFormed_of_decodeHead_plain hw, Nat.zero_le _, rfl⟩
  | showHead count =>
    rw [hw] at hspells
    rw [decode_of_showHead hw] at h
    split_ifs at h with hlen
    cases h
    rw [payloadWords_of_showHead hw]
    have hle := Nat.le_of_not_lt hlen
    exact ⟨congrArg some hspells, beq_iff_eq.mpr (showPayload_length hle), hle, rfl⟩
  | illegal cause =>
    rw [Machine.decode_cons_eq_illegal_iff.mpr ⟨hw, rfl⟩] at h
    cases h

/-- Settles O5: the two lengths of the words behind a `SHOW`, and the place of each byte. -/
theorem payloadBytesArePackedLittleEndian : Obligations.PayloadBytesArePackedLittleEndian := by
  intro count ws
  have hdecode := decode_of_showHead (decodeHead_showWord count) ws
  refine ⟨fun h => hdecode.trans (if_pos h), fun h => ⟨_, hdecode.trans (if_neg (Nat.not_lt.mpr h)),
    showPayload_length h, fun k => showPayload_getElem? count ws⟩⟩

end Sys2Proof

/-! SUPPORT. The proofs about one step as the interface gives it: which command it runs, which command is placed, what a
host issues, and the reset input. -/

namespace Sys2Proof.Machine

/-! ## Placed commands (log entry 17) -/

/-- A command read from the bits of a word is the one read from the transaction that is placed. -/
theorem decode_placedTxn {nbits w : Nat} {i : Instr} (h : decodeTableWord nbits w = some i) :
    decode ((placedTxn nbits w).word :: (placedTxn nbits w).payload) = .ok i [] := by
  simp only [decodeTableWord] at h
  rw [Nat.add_comm, wordsOfNat] at h
  split at h <;> cases h
  assumption

theorem State.rendersFor_eq_true {s : State} {h : Nat} : s.rendersFor h = true ↔ ∃ W, s.rs = .rendering h W := by
  rw [State.rendersFor]
  cases s.rs <;> simp

/-- The `SHOW` of the placing host is not the one in flight. -/
theorem State.rendersFor_placingHost (s : State) : s.rendersFor s.placingHost = false := by
  rw [State.placingHost]
  split_ifs with h0
  · obtain ⟨W, hW⟩ := State.rendersFor_eq_true.mp h0
    rw [State.rendersFor, hW]
    rfl
  · exact Bool.eq_false_iff.mpr h0

/-- A transaction placed at the port of a host that exists is pending there. -/
theorem State.pending_withFetchWord {s : State} (h : s.placingHost < s.hosts.length) (nbits w : Nat) :
    (s.withFetchWord nbits w).pending s.placingHost = some (placedTxn nbits w) := by
  have hr : (s.withFetchWord nbits w).rendersFor s.placingHost = false := s.rendersFor_placingHost
  rw [State.pending, hr]
  simp [State.withFetchWord, h]

/-! ## The obligations -/

/-- Settles O6: the schedule's first move, and the acceptance step of a command that decodes. -/
theorem stepRunsTheDecodedCommand : Obligations.StepRunsTheDecodedCommand := by
  refine ⟨fun s m rest hs => ⟨State.nextMove_cons hs, step_of_sched hs⟩, fun s t h cmd i hm hp hd => ?_⟩
  rw [step, hm]
  exact stepAccept_of_decode hp hd

/-- Settles O7: the placed transaction is pending at its host, and its acceptance is the next move. -/
theorem placedCommandRunsNext : Obligations.PlacedCommandRunsNext := by
  intro s nbits w i hw hh
  have hd := decode_placedTxn hw
  refine ⟨placedTxn nbits w, hd, ?_⟩
  have hsched : (s.withFetchWord nbits w).sched = .accept s.placingHost :: s.sched := rfl
  rw [step_of_sched hsched]
  exact stepAccept_of_decode (s.pending_withFetchWord hh nbits w) hd

/-- Settles O8: a Waiting host's move does nothing, a Free host's delivers its transaction. -/
theorem onlyAFreeHostIssues : Obligations.OnlyAFreeHostIssues := by
  refine fun s h a ha => ⟨fun cmd hp => by simp [stepIssue, ha, hp], fun w ws hp hi hl =>
    ⟨_, stepIssue_of_free ha hp hi hl, rfl, fun g hg => List.getElem?_set_ne hg.symm, ?_⟩⟩
  obtain ⟨hlt, -⟩ := List.getElem?_eq_some_iff.mp ha
  exact List.getElem?_set_self hlt

/-- Settles O10: a reset answers the reset state of the instance, with the hosts Free. -/
theorem resetTakesOneStep : Obligations.ResetTakesOneStep := by
  intro s hm
  refine ⟨_, step_eq_takeMove hm, rfl, rfl, State.bufRead_of_not_allocated rfl, rfl, rfl, rfl, by simp, by simp,
    fun h a ha => ⟨{ a with port := .free }, ?_, rfl, rfl⟩⟩
  simp [ha]

end Sys2Proof.Machine

/-! SUPPORT. The proofs about the answers of commands: the errors of `SHOW`, the second `TEARDOWN`, the frame of the
diagnostic reads, who is answered, the bytes of a symbol, and the flags that the engine writes. -/

namespace Sys2Proof.Machine

/-! ## `SHOW` (R177) -/

section
variable {count : BitVec 16} {P : List Byte} {s : State}

theorem exec_showPixels_of_payload (hl : P.length ≠ 3 * count.toNat) :
    exec (.showPixels count P) s = .refused .payloadLength := if_pos hl

theorem exec_showPixels_of_mismatch (hl : P.length = 3 * count.toNat) (hr : s.reg.state = .ready)
    (hb : s.reg.busy = false) (hn : count ≠ s.reg.numLeds) :
    exec (.showPixels count P) s = .next (s.raise (.showPixels count P) .sizeMismatchError) := by
  simp [exec, execShowPixels, hl, hr, hb, hn]

theorem exec_showPixels_of_accepted (hl : P.length = 3 * count.toNat) (hr : s.reg.state = .ready)
    (hb : s.reg.busy = false) (hn : count = s.reg.numLeds) :
    exec (.showPixels count P) s = .next (s.startRender P) := by
  simp [exec, execShowPixels, hl, hr, hb, hn]

end

/-! ## `TEARDOWN` (R183) -/

/-- A `TEARDOWN` that leaves `Stopped` leaves `LAST_ERR` OK: its errors leave the two other states. -/
theorem exec_teardown_lastErr {s t : State} (h : exec .teardown s = .next t) (ht : t.reg.state = .stopped) :
    t.reg.lastErr = .ok := by
  cases hs : s.reg.state with
  | uninitialized =>
    rw [exec_teardown_of_uninitialized hs] at h
    cases h
    rw [State.raise_reg_state, hs] at ht
    cases ht
  | stopped =>
    rw [exec_teardown_of_stopped hs] at h
    cases h
    rfl
  | ready =>
    cases hb : s.reg.busy with
    | true =>
      rw [exec_teardown_of_busy hs hb] at h
      cases h
      rw [State.raise_reg_state, hs] at ht
      cases ht
    | false =>
      rw [exec_teardown_of_idle hs hb] at h
      cases h
      rfl

/-! ## The diagnostic reads (R56) -/

/-- Whatever a diagnostic read answers, it gives one response and changes nothing else. -/
theorem exec_diagnostic_answers {i : Instr} {s t : State} (hi : isLifecycle i = false) (h : exec i s = .next t) :
    ∃ st d, Answers s t st d := by
  have hraise : ∀ e : Status, e.setsFault = false → ∃ st d, Answers s (s.raise i e) st d :=
    fun e he => ⟨e, 0, answers_raise hi he s⟩
  have hrespond : ∀ d, ∃ st d', Answers s (s.respond .ok d) st d' := fun d => ⟨.ok, d, answers_respond ..⟩
  cases i with
  | init => cases hi
  | showPixels => cases hi
  | teardown => cases hi
  | lutRd ph val =>
    simp only [exec, execLutRd] at h
    split_ifs at h <;> cases h
    · exact hraise _ rfl
    · exact hrespond _
  | symRd nib => cases h; exact hrespond _
  | enc ph val =>
    simp only [exec, execEnc] at h
    split_ifs at h <;> cases h
    · exact hraise _ rfl
    · exact hrespond _
  | bufRdh sel idx =>
    simp only [exec, execBufRdh] at h
    split_ifs at h
    · cases h; exact hraise _ rfl
    · cases h; exact hraise _ rfl
    · cases h; exact hraise _ rfl
    · split at h <;> cases h
      exact hrespond _
  | bufRdb sel idx =>
    simp only [exec, execBufRdb] at h
    split_ifs at h
    · cases h; exact hraise _ rfl
    · split at h
      · cases h; exact hraise _ rfl
      · split_ifs at h
        · cases h; exact hraise _ rfl
        · split at h <;> cases h
          exact hrespond _
  | descRd fld di =>
    simp only [exec, execDescRd] at h
    split_ifs at h
    · cases h; exact hraise _ rfl
    · cases h; exact hraise _ rfl
    · split at h <;> cases h
      exact hrespond _
  | regRd rn =>
    simp only [exec, execRegRd] at h
    split at h <;> cases h
    · exact hrespond _
    · exact hraise _ rfl

/-! ## Who is answered (R71, R171) -/

/-- A command answers its issuing host, or it is a `SHOW` that is accepted. -/
theorem exec_hosts {i : Instr} {s t : State} (h : exec i s = .next t) :
    (t.rs = s.rs ∧ ∃ r, t.hosts = (s.respondTo s.issuer r).hosts) ∨
    (t.hosts = s.hosts ∧ (∃ count P, i = .showPixels count P) ∧ s.reg.busy = false ∧ t.reg.busy = true) := by
  cases exec_cases h with
  | error _ e _ => exact .inl ⟨by simp, ⟨e, 0⟩, by simp⟩
  | read _ d _ => exact .inl ⟨rfl, ⟨.ok, d⟩, rfl⟩
  | initialise => exact .inl ⟨rfl, ⟨.ok, 0⟩, rfl⟩
  | accepted count P _ _ hb _ => exact .inr ⟨rfl, ⟨count, P, rfl⟩, hb, rfl⟩
  | stopAgain => exact .inl ⟨rfl, ⟨.ok, 0⟩, rfl⟩
  | stop => exact .inl ⟨rfl, ⟨.ok, 0⟩, rfl⟩

/-! ## The bytes of a symbol (R53) -/

theorem symbolLow_toNat (x : Symbol) : (symbolLow x).toNat = x.toNat % 256 := by
  simp [symbolLow]

theorem symbolHigh_toNat (x : Symbol) : (symbolHigh x).toNat = x.toNat / 256 := by
  rw [symbolHigh, BitVec.extractLsb'_toNat, Nat.shiftRight_eq_div_pow]
  omega

/-! ## The flags of a descriptor (R192) -/

theorem stepDmaFlags_of_writable {s : State} (h : s.dma.configured = true ∧ s.reg.state = .ready) (d : Nat)
    (o e : Bool) :
    stepDmaFlags d o e s =
      .next { s with desc := s.desc.modify d fun x => { x with owner := o, eof := e } } := by
  rw [stepDmaFlags, if_pos h]

theorem stepDmaFlags_of_not_writable {s : State} (h : ¬(s.dma.configured = true ∧ s.reg.state = .ready)) (d : Nat)
    (o e : Bool) : stepDmaFlags d o e s = .next s := by
  rw [stepDmaFlags, if_neg h]

/-! ## The obligations -/

/-- Settles O12: one lemma for each check of R177, and the acceptance; `NUM_LEDS` is not 0 in a good `Ready` state. -/
theorem showAnswers : Obligations.ShowAnswers := by
  intro count P s
  refine ⟨exec_showPixels_of_payload, fun hl => ⟨fun hr => ⟨_, exec_showPixels_of_not_ready hl hr,
    answersMarked_raise rfl (Bool.or_false _)⟩, fun hr hb => ⟨_, exec_showPixels_of_busy hl hr hb,
    answersMarked_raise rfl (Bool.or_false _)⟩, fun hr hb hn => ⟨_, exec_showPixels_of_mismatch hl hr hb hn,
    answersMarked_raise rfl (Bool.or_false _)⟩, fun hr hb hn => ?_, fun hi hr hb hn => ?_⟩⟩
  · refine ⟨_, _, exec_showPixels_of_accepted hl hr hb hn, ?_, rfl, rfl, sameBytes_of_eq rfl rfl rfl rfl, rfl⟩
    rw [State.drawn_length, streamSymbols_length, Nat.mul_comm]
  · have hne : count ≠ s.reg.numLeds := by
      rintro rfl
      exact (hi.numLeds_pos hr).ne' (by rw [hn]; rfl)
    exact ⟨_, exec_showPixels_of_mismatch hl hr hb hne, answersMarked_raise rfl (Bool.or_false _)⟩

/-- Settles O22: the second `TEARDOWN` writes OK to a `LAST_ERR` that is OK already. -/
theorem teardownIsIdempotent : Obligations.TeardownIsIdempotent := by
  intro s t u h ht hu
  have hok := exec_teardown_lastErr h ht
  have hmarked : t.setLastErr .ok = t := by rw [State.setLastErr, ← hok]
  rw [exec_teardown_of_stopped ht, hmarked] at hu
  cases hu
  refine ⟨rfl, ?_, fun h hne => State.respondTo_other _ hne⟩
  rw [AnswersMarked, ← hok]
  rfl

/-- Settles O32: a diagnostic read answers, and that is all. -/
theorem diagnosticReadsChangeNothing : Obligations.DiagnosticReadsChangeNothing := by
  intro i s t hi h
  obtain ⟨st, d, rfl⟩ := exec_diagnostic_answers hi h
  exact ⟨rfl, sameBytes_of_eq rfl rfl rfl rfl, fun h hne => State.respondTo_other ⟨st, d⟩ hne, rfl⟩

/-- Settles O34: a response changes its own host. -/
theorem oneResponseToTheIssuer : Obligations.OneResponseToTheIssuer := by
  intro i s t a h ha
  obtain ⟨hrs, r, hh⟩ | ⟨hh, hi, hb, hbt⟩ := exec_hosts h
  · rw [hh]
    exact ⟨fun g hne => State.respondTo_other r hne, .inl ⟨hrs, r, State.respondTo_same r ha⟩⟩
  · exact ⟨fun g _ => by rw [hh], .inr ⟨hh, hi, hb, hbt⟩⟩

/-- Settles O42: the offsets by the byte order, and the two bytes appended. -/
theorem symbolBytesInMemory : Obligations.SymbolBytesInMemory := by
  refine fun cfg i x => ⟨fun he => ⟨?_, ?_, ?_⟩, fun he => ⟨?_, ?_, ?_⟩, symbolLow_toNat x, symbolHigh_toNat x⟩
  · rw [lowOffset, he]
  · rw [highOffset, he]
  · rw [joinBytes, he]; exact symbolHigh_append_symbolLow x
  · rw [lowOffset, he]
  · rw [highOffset, he]
  · rw [joinBytes, he]; exact symbolHigh_append_symbolLow x

/-- Settles O53: the flag move modifies one descriptor, or nothing. -/
theorem dmaWritesOnlyFlags : Obligations.DmaWritesOnlyFlags := by
  intro s d o e
  by_cases h : s.dma.configured = true ∧ s.reg.state = .ready
  · have hstep := stepDmaFlags_of_writable h d o e
    obtain ⟨_, hdesc, hlinks⟩ := stepDmaFlags_links hstep
    refine ⟨_, hstep, rfl, ?_, fun g hne => List.getElem?_modify_ne _ _ hne.symm, fun _ _ x hx => ?_,
      fun hn => absurd h hn⟩
    · rw [hdesc]; exact hlinks
    · simp [hx]
  · exact ⟨s, stepDmaFlags_of_not_writable h d o e, rfl, rfl, fun _ _ => rfl, fun hc hr => absurd ⟨hc, hr⟩ h,
      fun _ => rfl⟩

end Sys2Proof.Machine

/-! SUPPORT. The inversion of a move, and the invariant: every part of it that a move can touch, and that every
step keeps it. -/

namespace Sys2Proof.Machine

/-! ## Everything a move can do -/

/-- The ways a move can answer a next state. -/
inductive MoveCase (s : State) : Move → State → Prop
  /-- The agent has no step to take (log entry 5). -/
  | unmoved (m : Move) (hm : m ≠ .reset) (ha : ∀ h, m = .accept h → s.pending h = none) : MoveCase s m s
  /-- A host issues a transaction (R171). -/
  | issued (h : Nat) (a : HostAgent) (w : Word) (ws : List Word) (ha : s.hosts[h]? = some a)
      (hl : payloadWords w ≤ ws.length) :
      MoveCase s (.issue h) { s with hosts := s.hosts.set h { a with
        port := .waiting { word := w, payload := ws.take (payloadWords w) }
        inbox := ws.drop (payloadWords w) } }
  /-- A pending command runs (R171). -/
  | executed (h : Nat) (cmd : Txn) (i : Instr) (t : State) (hp : s.pending h = some cmd)
      (hd : decode (cmd.word :: cmd.payload) = .ok i []) (he : exec i { s with issuer := h } = .next t) :
      MoveCase s (.accept h) t
  /-- A pending word is illegal (R82). -/
  | illegal (h : Nat) (cmd : Txn) (hp : s.pending h = some cmd) (hw : matchesNoRow cmd.word) :
      MoveCase s (.accept h) ({ s with issuer := h } : State).illegalWord
  /-- The head of the write list is written (R178). -/
  | written (h : Nat) (w : ByteWrite) (ws : List ByteWrite) (u : State) (hr : s.rs = .rendering h (w :: ws))
      (hu : s.bufWrite w.buf w.off w.val = some u) : MoveCase s .render { u with rs := .rendering h ws }
  /-- A `SHOW` completes (R179). -/
  | completed (h : Nat) (hr : s.rs = .rendering h []) : MoveCase s .render (s.completeShow h)
  /-- The engine emits a byte (R190). -/
  | emitted (d : Desc) (x : Byte) (hrun : s.dma.running = true) (hd : s.desc[s.dma.cur]? = some d)
      (hx : s.bufRead d.buf s.dma.off = some x) :
      MoveCase s .dmaRead { s with stream := s.stream ++ [x], dma := s.dma.advance d }
  /-- The engine's flag move leaves the links (R192). -/
  | flagged (d : Nat) (o e : Bool) (desc : List Desc) (hl : desc.map Desc.links = s.desc.map Desc.links) :
      MoveCase s (.dmaFlags d o e) { s with desc := desc }
  /-- The reset input (R240). -/
  | reset (t : State) (ht : stepReset s = .next t) : MoveCase s .reset t

/-- The inversion of a move, agent by agent. -/
theorem takeMove_cases {m : Move} {s t : State} (h : takeMove m s = .next t) : MoveCase s m t := by
  cases m with
  | issue g =>
    obtain rfl | ⟨a, w, ws, ha, -, -, hl, rfl⟩ := stepIssue_cases h
    · exact .unmoved _ nofun nofun
    · exact .issued g a w ws ha hl
  | accept g =>
    obtain ⟨hp, rfl⟩ | ⟨cmd, i, hp, hd, he⟩ | ⟨cmd, cause, rest, hp, hd, rfl⟩ := stepAccept_cases h
    · exact .unmoved _ nofun fun g' hg => by cases hg; exact hp
    · exact .executed g cmd i t hp hd he
    · exact .illegal g cmd hp ((exists_decode_illegal_rest_iff _ _).mp ⟨cause, rest, hd⟩)
  | render =>
    obtain ⟨-, rfl⟩ | ⟨g, hr, rfl⟩ | ⟨g, w, ws, u, hr, hu, rfl⟩ := stepRender_cases h
    · exact .unmoved _ nofun nofun
    · exact .completed g hr
    · exact .written g w ws u hr hu
  | dmaRead =>
    obtain ⟨-, rfl⟩ | ⟨d, x, hrun, hd, hx, rfl⟩ := stepDmaRead_cases h
    · exact .unmoved _ nofun nofun
    · exact .emitted d x hrun hd hx
  | dmaFlags d o e =>
    obtain ⟨desc, rfl, hl⟩ := stepDmaFlags_links h
    exact .flagged d o e desc hl
  | reset => exact .reset t h

/-- The inversion of a step, from the state in which its move is taken. -/
theorem step_cases {s t : State} (h : step s = .next t) : MoveCase s.nextMove.2 s.nextMove.1 t := takeMove_cases h

@[simp] theorem State.nextMove_desc (s : State) : s.nextMove.2.desc = s.desc := by
  obtain ⟨_, _, h⟩ := s.nextMove_state; rw [h]

@[simp] theorem State.nextMove_dma (s : State) : s.nextMove.2.dma = s.dma := by
  obtain ⟨_, _, h⟩ := s.nextMove_state; rw [h]

@[simp] theorem State.nextMove_stream (s : State) : s.nextMove.2.stream = s.stream := by
  obtain ⟨_, _, h⟩ := s.nextMove_state; rw [h]

@[simp] theorem State.nextMove_calls (s : State) : s.nextMove.2.calls = s.calls := by
  obtain ⟨_, _, h⟩ := s.nextMove_state; rw [h]

theorem State.nextMove_sameBytes (s : State) : SameBytes s s.nextMove.2 :=
  sameBytes_of_eq (by simp) (by simp) (by simp) (by simp)

/-- Choosing the next move keeps the invariant. -/
theorem Inv.nextMove {s : State} (hi : Inv s) : Inv s.nextMove.2 := by
  obtain ⟨_, _, h⟩ := s.nextMove_state
  rw [h]
  exact hi

/-! ## The invariant in two parts

The block's part does not speak of the hosts, and the hosts' part only of them and of the host whose `SHOW` is in
flight. -/

/-- The part of the invariant about the block. -/
def BlockOK (s : State) : Prop :=
  legalParams s.cfg = true ∧ s.reg.head = 0 ∧ s.memOK ∧ s.stripOK ∧ s.ringOK ∧ s.dmaOK ∧
    s.reg.busy = s.rs.active ∧ (s.rs.active = true → s.reg.state = .ready) ∧
    ∀ x ∈ s.rs.writes, ByteWrite.inPhase s.cfg.dither (12 * s.reg.numLeds.toNat) x = true

/-- The part of the invariant about the hosts. -/
def HostsOK (s : State) : Prop :=
  s.hosts.length = s.cfg.hosts ∧ (∀ a ∈ s.hosts, HostAgent.portOK a = true) ∧ s.renderHostWaits = true

theorem inv_iff {s : State} : Inv s ↔ BlockOK s ∧ HostsOK s := by
  simp only [Inv, State.renderOK, BlockOK, HostsOK]
  tauto

/-! ## The block's part -/

/-- What the block's part reads of a state. -/
def State.block (s : State) : Params × (Lifecycle × Bool × BitVec 16 × BitVec 4 × Bool) × BufferMemory ×
    List (Buf × Nat × Nat) × DmaCursor × Render :=
  (s.cfg, (s.reg.state, s.reg.busy, s.reg.numLeds, s.reg.head, s.reg.dmaRun), s.mem, s.desc.map Desc.links, s.dma, s.rs)

/-- The lengths of the descriptors are among their links. -/
theorem map_links_len (l : List Desc) : (l.map Desc.links).map (fun x => x.2.1) = l.map Desc.len := by
  rw [List.map_map]
  rfl

theorem BlockOK.of_block_eq {s t : State} (hb : BlockOK s) (h : t.block = s.block) : BlockOK t := by
  simp only [State.block, Prod.mk.injEq] at h
  obtain ⟨hc, ⟨hst, hbusy, hn, hh, hrun⟩, hm, hd, hdma, hrs⟩ := h
  have hnil : t.desc = [] ↔ s.desc = [] := by rw [← List.map_eq_nil_iff, hd, List.map_eq_nil_iff]
  have hlen : t.desc.map Desc.len = s.desc.map Desc.len := by rw [← map_links_len, hd, map_links_len]
  simpa only [BlockOK, State.memOK, State.stripOK, State.ringOK, State.dmaOK, hc, hst, hbusy, hn, hh, hrun, hm, hd,
    hdma, hrs, hnil, hlen] using hb

/-- Outside `Ready` no render is in flight. -/
theorem BlockOK.idle_of_not_ready {s : State} (hb : BlockOK s) (hr : s.reg.state ≠ .ready) : s.rs = .idle := by
  obtain ⟨-, -, -, -, -, -, -, hactive, -⟩ := hb
  cases hrs : s.rs with
  | idle => rfl
  | rendering h W => exact absurd (hactive (by rw [hrs]; rfl)) hr

/-- With `BUSY` 0 no render is in flight (R35). -/
theorem BlockOK.idle_of_not_busy {s : State} (hb : BlockOK s) (h0 : s.reg.busy = false) : s.rs = .idle := by
  obtain ⟨-, -, -, -, -, -, hbusy, -⟩ := hb
  cases hrs : s.rs with
  | idle => rfl
  | rendering h W => rw [h0, hrs] at hbusy; cases hbusy

/-- `INIT` builds a good block (R173). -/
theorem BlockOK.initialise {s : State} {count : BitVec 16} (hb : BlockOK s) (hr : s.reg.state ≠ .ready)
    (ha : allocOK s.cfg count.toNat = true) : BlockOK (s.initialise count) := by
  have hidle := hb.idle_of_not_ready hr
  obtain ⟨hlegal, -, -, -, -, -, hbusy, -, -⟩ := hb
  obtain ⟨hN, -⟩ := legalParams_bounds hlegal
  obtain ⟨hpos, -⟩ := allocOK_iff.mp ha
  have hlen : ((buildRing s.cfg (12 * count.toNat)).map Desc.len).getD 0 0 = 12 * count.toNat := by
    rw [List.getD_eq_getElem?_getD, List.getElem?_map, buildRing_pixel (q := 0) hN]
    rfl
  refine ⟨hlegal, rfl, ?_, fun _ => ha, rfl, ⟨rfl, rfl, rfl, ?_, ?_⟩, hbusy, fun _ => rfl, ?_⟩
  · exact ⟨rfl, List.length_replicate, rfl, fun m hm => by rw [List.eq_of_mem_replicate hm]; exact ⟨rfl, rfl⟩⟩
  · exact Nat.mul_pos two_pos hN
  · exact hlen ▸ Nat.mul_pos (by decide) hpos
  · simp [hidle, Render.writes]

/-- A write list of a stream writes phase buffers only (R51, R144). -/
theorem inPhase_of_mem_renderList {cfg : Params} {P : List Byte} {orders : List ByteOrder} {n : Nat}
    (ho : orders.length = 2 * cfg.dither * P.length) (hl : P.length = 3 * n) {x : ByteWrite}
    (hx : x ∈ renderList cfg P orders) : ByteWrite.inPhase cfg.dither (12 * n) x = true := by
  obtain ⟨-, -, -, hmem⟩ := writeListCoversEveryByteOnce cfg P orders ho
  obtain ⟨p, hb, hp, hoff, -⟩ := hmem x hx
  have hlt : x.off < 12 * n := by omega
  simp [ByteWrite.inPhase, hb, hp, hlt]

/-- As many byte orders are drawn as the stream has symbols. -/
theorem length_drawn_streamSymbols (s : State) (P : List Byte) :
    (s.drawn (streamSymbols s.cfg 0 P).length).length = 2 * s.cfg.dither * P.length := by
  rw [State.drawn_length, streamSymbols_length, Nat.mul_comm]

/-- The acceptance of a `SHOW` keeps the block good (R177). -/
theorem BlockOK.startRender {s : State} {P : List Byte} (hb : BlockOK s) (hr : s.reg.state = .ready)
    (hl : P.length = 3 * s.reg.numLeds.toNat) : BlockOK (s.startRender P) := by
  obtain ⟨hlegal, hhead, hmem, hstrip, hring, hdma, -, -, -⟩ := hb
  exact ⟨hlegal, hhead, hmem, hstrip, hring, hdma, rfl, fun _ => hr,
    fun x => inPhase_of_mem_renderList (length_drawn_streamSymbols s P) hl⟩

/-- `TEARDOWN` keeps the block good (R183). -/
theorem BlockOK.release {s : State} (hb : BlockOK s) (h0 : s.reg.busy = false) : BlockOK s.dmaStop.release := by
  have hidle := hb.idle_of_not_busy h0
  obtain ⟨hlegal, hhead, -, -, -, -, hbusy, -, -⟩ := hb
  exact ⟨hlegal, hhead, ⟨rfl, rfl, rfl⟩, nofun, rfl, ⟨rfl, rfl⟩, hbusy, by simp [hidle, Render.active],
    by simp [hidle, Render.writes]⟩

/-- The completion of a `SHOW` keeps the block good (R179). -/
theorem BlockOK.completeShow {s : State} (hb : BlockOK s) (h : Nat) : BlockOK (s.completeShow h) := by
  obtain ⟨hlegal, hhead, hmem, hstrip, hring, hdma, -, -, -⟩ := hb
  exact ⟨hlegal, hhead, hmem, hstrip, hring, hdma, rfl, nofun, nofun⟩

/-- The reset state of a legal instance has a good block (R44). -/
theorem blockOK_resetWith {p : Params} (hp : legalParams p = true) : BlockOK (State.resetWith p) :=
  ⟨hp, rfl, ⟨rfl, rfl, rfl⟩, nofun, rfl, ⟨rfl, rfl⟩, rfl, nofun, nofun⟩

theorem inPhase_iff {N len : Nat} {w : ByteWrite} :
    w.inPhase N len = true ↔ ∃ p, w.buf = .phase p ∧ p < N ∧ w.off < len := by
  rw [ByteWrite.inPhase]
  cases w.buf <;> simp

/-- A byte write into a phase buffer keeps the buffer memory good (R39, R58). -/
theorem State.memOK_setBuffer_phase {s : State} (hm : s.memOK) (hr : s.reg.state = .ready) {p off : Nat} {m : Memory}
    (hb : s.mem.buffer (.phase p) = some m) (ho : off < 12 * s.reg.numLeds.toNat) (x : Byte) :
    ({ s with mem := s.mem.setBuffer (.phase p) (Memory.write off x m) } : State).memOK := by
  simp only [State.memOK, hr, if_true] at hm ⊢
  obtain ⟨halloc, hlen, hgap, hwf⟩ := hm
  obtain ⟨hm0, hm1⟩ := hwf m (List.mem_of_getElem? hb)
  refine ⟨halloc, (List.length_set ..).trans hlen, hgap, fun n hn => ?_⟩
  obtain hn | rfl := List.mem_or_eq_of_mem_set hn
  · exact hwf n hn
  · exact ⟨Memory.wf_write hm0 off x, Memory.below_write hm1 ho x⟩

/-- A render step keeps the block good (R178). -/
theorem BlockOK.written {s u : State} {h : Nat} {w : ByteWrite} {ws : List ByteWrite} (hb : BlockOK s)
    (hrs : s.rs = .rendering h (w :: ws)) (hu : s.bufWrite w.buf w.off w.val = some u) :
    BlockOK { u with rs := .rendering h ws } := by
  obtain ⟨hlegal, hhead, hmem, hstrip, hring, hdma, hbusy, hactive, hwrites⟩ := hb
  obtain ⟨-, -, m, hbuf, rfl⟩ := State.bufWrite_eq_some.mp hu
  simp only [hrs, Render.writes, List.forall_mem_cons] at hwrites
  obtain ⟨hw, hws⟩ := hwrites
  obtain ⟨p, hp, -, ho⟩ := inPhase_iff.mp hw
  have hready := hactive (by rw [hrs]; rfl)
  rw [hp] at hbuf ⊢
  exact ⟨hlegal, hhead, State.memOK_setBuffer_phase hmem hready hbuf ho w.val, hstrip, hring, hdma,
    hbusy.trans (by rw [hrs]; rfl), fun _ => hready, hws⟩

/-- The engine runs only while `Ready` (R29, R183). -/
theorem Inv.ready_of_running {s : State} (hi : Inv s) (hrun : s.dma.running = true) : s.reg.state = .ready := by
  obtain ⟨-, -, -, -, -, -, -, ⟨-, hdma⟩, -⟩ := hi
  by_contra hr
  rw [if_neg hr, hrun] at hdma
  cases hdma

/-- Every descriptor of a good `Ready` state has a byte and a link within the ring. -/
theorem Inv.desc_bounds {s : State} (hi : Inv s) (hr : s.reg.state = .ready) {i : Nat} (h : i < 2 * s.cfg.dither) :
    ∃ d, s.desc[i]? = some d ∧ 0 < d.len ∧ d.next < 2 * s.cfg.dither := by
  obtain ⟨-, -, hgap, -⟩ := legalParams_bounds hi.1
  have hpos := hi.numLeds_pos hr
  obtain ⟨q, rfl | rfl⟩ := i.even_or_odd'
  · obtain ⟨d, hd, -, hl, hn⟩ := hi.desc_pixel hr (q := q) (by omega)
    exact ⟨d, hd, by omega, by omega⟩
  · obtain ⟨d, hd, -, hl, hn⟩ := hi.desc_gap hr (q := q) (by omega)
    exact ⟨d, hd, by omega, hn ▸ Nat.mod_lt _ (by omega)⟩

/-- The cursor of a good `Ready` state names a byte of a descriptor (R36). -/
theorem Inv.cursor {s : State} (hi : Inv s) (hr : s.reg.state = .ready) : s.dma.cur < 2 * s.cfg.dither ∧
    ∃ d, s.desc[s.dma.cur]? = some d ∧ s.dma.off < d.len ∧ d.next < 2 * s.cfg.dither := by
  have hdma : s.dmaOK := by obtain ⟨-, -, -, -, -, -, -, hdma, -⟩ := hi; exact hdma
  simp only [State.dmaOK, hr, if_true] at hdma
  obtain ⟨-, -, -, hcur, hoff⟩ := hdma
  obtain ⟨d, hd, -, hn⟩ := hi.desc_bounds hr hcur
  exact ⟨hcur, d, hd, by simpa [List.getD_eq_getElem?_getD, hd] using hoff, hn⟩

/-- A read of the engine keeps the block good (R190). -/
theorem Inv.block_emitted {s : State} {d : Desc} {x : Byte} (hi : Inv s) (hrun : s.dma.running = true)
    (hd : s.desc[s.dma.cur]? = some d) :
    BlockOK { s with stream := s.stream ++ [x], dma := s.dma.advance d } := by
  have hr := hi.ready_of_running hrun
  obtain ⟨hcur, d', hd', hoff, hnext⟩ := hi.cursor hr
  obtain rfl : d = d' := Option.some.inj (hd.symm.trans hd')
  obtain ⟨hlegal, hhead, hmem, hstrip, hring, hdma, hrest⟩ := (inv_iff.mp hi).1
  refine ⟨hlegal, hhead, hmem, hstrip, hring, ?_, hrest⟩
  simp only [State.dmaOK, hr, if_true] at hdma ⊢
  obtain ⟨hreg, hconf, -, -⟩ := hdma
  rw [DmaCursor.advance]
  split_ifs with hend
  · obtain ⟨e, he, hpos, -⟩ := hi.desc_bounds hr hnext
    exact ⟨hreg, hconf, hrun, hnext, by simpa [List.getD_eq_getElem?_getD, he] using hpos⟩
  · refine ⟨hreg, hconf, hrun, hcur, ?_⟩
    simp only [List.getD_eq_getElem?_getD, List.getElem?_map, hd, Option.map_some, Option.getD_some]
    omega

/-! ## The hosts' part -/

/-- What holds of every host still holds of every host where one is changed to one of which it holds. -/
theorem forall_mem_modify {α : Type} {p : α → Prop} {f : α → α} {l : List α} (h : ∀ a ∈ l, p a) (hf : ∀ a, p (f a))
    (i : Nat) : ∀ a ∈ l.modify i f, p a := by
  intro a ha
  obtain ⟨j, hj⟩ := List.mem_iff_getElem?.mp ha
  rw [List.getElem?_modify] at hj
  obtain ⟨b, hb, rfl⟩ := Option.map_eq_some_iff.mp hj
  by_cases hij : i = j
  · rw [if_pos hij]; exact hf b
  · rw [if_neg hij]; exact h b (List.mem_of_getElem? hb)

/-- A response to one host leaves the others waiting. -/
theorem State.isWaiting_respondTo {s t : State} {g h : Nat} {r : Response} (hh : t.hosts = (s.respondTo g r).hosts)
    (hne : h ≠ g) : t.isWaiting h = s.isWaiting h := by
  rw [State.isWaiting, State.isWaiting, hh, State.respondTo_other r hne]

/-- A response to a host whose `SHOW` is not in flight keeps the hosts good (R71, R171). -/
theorem HostsOK.of_response {s t : State} {g : Nat} {r : Response} (ho : HostsOK s) (hc : t.cfg = s.cfg)
    (hh : t.hosts = (s.respondTo g r).hosts) (hrs : ∀ h W, t.rs = .rendering h W → s.rs = .rendering h W ∧ h ≠ g) :
    HostsOK t := by
  obtain ⟨hlen, hports, hwait⟩ := ho
  refine ⟨by rw [hh, State.respondTo_length, hlen, hc], ?_, ?_⟩
  · rw [hh, State.respondTo_hosts]
    exact forall_mem_modify hports (fun _ => rfl) g
  · rw [State.renderHostWaits]
    cases ht : t.rs with
    | idle => rfl
    | rendering h W =>
      obtain ⟨hs, hne⟩ := hrs h W ht
      rw [State.renderHostWaits, hs] at hwait
      exact (State.isWaiting_respondTo hh hne).trans hwait

/-- The hosts' part reads the hosts, their number, and the host whose `SHOW` is in flight. -/
theorem HostsOK.of_hosts_eq {s t : State} (ho : HostsOK s) (hc : t.cfg = s.cfg) (hh : t.hosts = s.hosts)
    (hrs : ∀ h W, t.rs = .rendering h W → s.isWaiting h = true) : HostsOK t := by
  obtain ⟨hlen, hports, -⟩ := ho
  refine ⟨by rw [hh, hlen, hc], by rw [hh]; exact hports, ?_⟩
  rw [State.renderHostWaits]
  cases ht : t.rs with
  | idle => rfl
  | rendering h W =>
    rw [← hrs h W ht]
    simp only [State.isWaiting, hh]

/-- The host whose `SHOW` is in flight waits (R171). -/
theorem HostsOK.isWaiting_of_rendering {s : State} (ho : HostsOK s) {h : Nat} {W : List ByteWrite}
    (hr : s.rs = .rendering h W) : s.isWaiting h = true := by
  obtain ⟨-, -, hwait⟩ := ho
  rwa [State.renderHostWaits, hr] at hwait

/-- A host that issues a whole transaction keeps the hosts good (R70, R171). -/
theorem HostsOK.issued {s : State} (ho : HostsOK s) {h : Nat} {a : HostAgent} {w : Word} {ws : List Word}
    (ha : s.hosts[h]? = some a) (hl : payloadWords w ≤ ws.length) :
    HostsOK { s with hosts := s.hosts.set h { a with
      port := .waiting { word := w, payload := ws.take (payloadWords w) }
      inbox := ws.drop (payloadWords w) } } := by
  obtain ⟨hlt, -⟩ := List.getElem?_eq_some_iff.mp ha
  obtain ⟨hlen, hports, hwait⟩ := ho
  refine ⟨by simpa using hlen, fun b hb => ?_, ?_⟩
  · obtain hb | rfl := List.mem_or_eq_of_mem_set hb
    · exact hports b hb
    · simp [HostAgent.portOK, hl]
  · rw [State.renderHostWaits] at hwait ⊢
    cases hrs : s.rs with
    | idle => rfl
    | rendering g W =>
      simp only [hrs, State.isWaiting] at hwait ⊢
      by_cases hg : h = g
      · subst hg
        simp [hlt]
      · rwa [List.getElem?_set_ne hg]

/-! ## Every step keeps the invariant -/

/-- A command that runs for a waiting host whose `SHOW` is not in flight keeps the invariant. -/
theorem Inv.of_exec {i : Instr} {s t : State} (hi : Inv s) (hf : s.rendersFor s.issuer = false)
    (hw : s.isWaiting s.issuer = true) (h : exec i s = .next t) : Inv t := by
  obtain ⟨hb, ho⟩ := inv_iff.mp hi
  have hne : ∀ h W, s.rs = .rendering h W → s.rs = .rendering h W ∧ h ≠ s.issuer := by
    rintro h W hrs
    refine ⟨hrs, ?_⟩
    rintro rfl
    simp [State.rendersFor, hrs] at hf
  refine inv_iff.mpr ?_
  cases exec_cases h with
  | error _ e _ =>
    exact ⟨hb.of_block_eq (by simp [State.block]),
      ho.of_response (g := s.issuer) (r := ⟨e, 0⟩) (by simp) (by simp) (by simpa using hne)⟩
  | read _ d _ => exact ⟨hb.of_block_eq rfl, ho.of_response (r := ⟨.ok, d⟩) rfl rfl hne⟩
  | initialise count hr ha => exact ⟨hb.initialise hr ha, ho.of_response (r := ⟨.ok, 0⟩) rfl rfl hne⟩
  | accepted count P hl hr h0 hn =>
    refine ⟨hb.startRender hr (hn ▸ hl), ho.of_hosts_eq rfl rfl ?_⟩
    rintro h W hrs
    cases hrs
    exact hw
  | stopAgain => exact ⟨hb.of_block_eq rfl, ho.of_response (r := ⟨.ok, 0⟩) rfl rfl hne⟩
  | stop hr h0 => exact ⟨(hb.release h0).of_block_eq rfl, ho.of_response (r := ⟨.ok, 0⟩) rfl rfl hne⟩

/-- A reset of a good state is good. -/
theorem Inv.of_stepReset {s t : State} (hi : Inv s) (h : stepReset s = .next t) : Inv t := by
  obtain ⟨⟨hlegal, -⟩, hlen, -, -⟩ := inv_iff.mp hi
  cases h
  refine inv_iff.mpr ⟨blockOK_resetWith hlegal, (List.length_map ..).trans hlen, fun a ha => ?_, rfl⟩
  obtain ⟨b, -, rfl⟩ := List.mem_map.mp ha
  rfl

/-- Every move keeps the invariant, agent by agent. -/
theorem Inv.of_takeMove {m : Move} {s t : State} (hi : Inv s) (h : takeMove m s = .next t) : Inv t := by
  obtain ⟨hb, ho⟩ := inv_iff.mp hi
  cases takeMove_cases h with
  | unmoved => exact hi
  | issued g a w ws ha hl => exact inv_iff.mpr ⟨hb.of_block_eq rfl, ho.issued ha hl⟩
  | executed g cmd i _ hp _ he =>
    obtain ⟨hf, hw, -⟩ := State.pending_some hp
    have hi' : Inv { s with issuer := g } := hi
    exact hi'.of_exec hf hw he
  | illegal g cmd hp _ =>
    obtain ⟨hf, -, -⟩ := State.pending_some hp
    refine inv_iff.mpr ⟨hb.of_block_eq rfl, ho.of_response (g := g) (r := ⟨.illegalCommand, 0⟩) rfl rfl ?_⟩
    rintro h W hrs
    refine ⟨hrs, ?_⟩
    rintro rfl
    simp [State.rendersFor, show s.rs = _ from hrs] at hf
  | written g w ws u hrs hu =>
    refine inv_iff.mpr ⟨hb.written hrs hu, ?_⟩
    obtain ⟨-, -, _, -, rfl⟩ := State.bufWrite_eq_some.mp hu
    refine ho.of_hosts_eq rfl rfl ?_
    rintro h W hW
    cases hW
    exact ho.isWaiting_of_rendering hrs
  | completed g hrs => exact inv_iff.mpr ⟨hb.completeShow g, ho.of_response (g := g) (r := ⟨.ok, 0⟩) rfl rfl nofun⟩
  | emitted d x hrun hd _ =>
    exact inv_iff.mpr ⟨hi.block_emitted hrun hd, ho.of_hosts_eq rfl rfl fun _ _ => ho.isWaiting_of_rendering⟩
  | flagged d o e desc hl =>
    exact inv_iff.mpr ⟨hb.of_block_eq (by simp [State.block, hl]),
      ho.of_hosts_eq rfl rfl fun _ _ => ho.isWaiting_of_rendering⟩
  | reset _ ht => exact hi.of_stepReset ht

theorem Inv.of_step {s t : State} (hi : Inv s) (h : step s = .next t) : Inv t := hi.nextMove.of_takeMove h

/-- The reset state of a legal instance is good (R44). -/
theorem inv_resetWith {p : Params} (hp : legalParams p = true) : Inv (State.resetWith p) := by
  refine inv_iff.mpr ⟨blockOK_resetWith hp, List.length_replicate, fun a ha => ?_, rfl⟩
  rw [HostAgent.portOK, State.resetWith_port ha]

/-! ## The obligations -/

/-- Settles O56: the block's part by what each move does to it, the hosts' part by who is answered and who issues. -/
theorem everyStepKeepsTheInvariant : Obligations.EveryStepKeepsTheInvariant := fun _ _ => Inv.of_step

/-- Settles O55: the reset instance is a legal one. -/
theorem resetMeetsTheInvariant : Obligations.ResetMeetsTheInvariant :=
  ⟨fun _ => inv_resetWith, inv_resetWith (by decide +kernel)⟩

end Sys2Proof.Machine

/-! SUPPORT. The proofs about every step of the machine: `FAULT`, the lifecycle, the ring, the histories, the bytes, and
that no good state faults. -/

namespace Sys2Proof.Machine

/-! ## `FAULT` (R24, R214) -/

/-- A command sets `FAULT` exactly where it is an `INIT` while `Ready`; every other error is no cause of it. -/
theorem exec_fault {i : Instr} {s t : State} (h : exec i s = .next t) :
    t.reg.fault = true ↔ s.reg.fault = true ∨ (s.reg.state = .ready ∧ ∃ count, i = .init count) := by
  cases i with
  | init count =>
    by_cases hr : s.reg.state = .ready
    · rw [exec_init_of_ready hr] at h
      cases h
      simp [hr, Status.setsFault]
    · have hkeep : t.reg.fault = s.reg.fault := by
        cases ha : allocOK s.cfg count.toNat with
        | false =>
          rw [exec_init_of_not_allocOK hr ha] at h
          cases h
          simp [Status.setsFault]
        | true =>
          rw [exec_init_of_allocOK hr ha] at h
          cases h
          rfl
      simp [hkeep, hr]
  | showPixels count P =>
    simp only [exec, execShowPixels] at h
    split_ifs at h <;> cases h <;> simp [Status.setsFault]
  | teardown =>
    simp only [exec, execTeardown] at h
    split at h
    · cases h; simp [Status.setsFault]
    · cases h; simp
    · split_ifs at h <;> cases h <;> simp [Status.setsFault]
  | _ =>
    obtain ⟨_, _, rfl⟩ := exec_diagnostic_answers rfl h
    simp

/-- What the acceptance of a command does where it sets `FAULT` (R214). -/
def CausesFault (s : State) (m : Move) : Prop :=
  ∃ h cmd, m = .accept h ∧ s.pending h = some cmd ∧ (matchesNoRow cmd.word ∨
    (s.reg.state = .ready ∧ ∃ count, decode (cmd.word :: cmd.payload) = .ok (.init count) []))

/-- The acceptance of the pending command of `h` causes `FAULT` by that command's words. -/
theorem causesFault_accept {s : State} {h : Nat} {cmd : Txn} (hp : s.pending h = some cmd) :
    CausesFault s (.accept h) ↔ (matchesNoRow cmd.word ∨
      (s.reg.state = .ready ∧ ∃ count, decode (cmd.word :: cmd.payload) = .ok (.init count) [])) := by
  constructor
  · rintro ⟨g, cmd', hg, hp', hc⟩
    cases hg
    obtain rfl := Option.some.inj (hp.symm.trans hp')
    exact hc
  · exact fun hc => ⟨h, cmd, rfl, hp, hc⟩

/-- A word that decodes to a command matches a row. -/
theorem not_matchesNoRow_of_decode {w : Word} {ws rest : List Word} {i : Instr} (h : decode (w :: ws) = .ok i rest) :
    ¬matchesNoRow w := by
  intro hw
  obtain ⟨cause, hc⟩ := (exists_decode_illegal_iff w ws).mpr hw
  rw [h] at hc
  cases hc

/-- After a move `FAULT` is 1 exactly if it was, or the move causes it, and the move is no reset. -/
theorem MoveCase.fault {s t : State} {m : Move} (hc : MoveCase s m t) :
    t.reg.fault = true ↔ m ≠ .reset ∧ (s.reg.fault = true ∨ CausesFault s m) := by
  have hother : (∀ h, m ≠ .accept h) → ¬CausesFault s m := fun hm ⟨h, _, he, _⟩ => hm h he
  cases hc with
  | unmoved _ hm ha =>
    have hno : ¬CausesFault s m := fun ⟨h, _, he, hp, _⟩ => by simp [ha h he] at hp
    simp [hm, hno]
  | executed h cmd i _ hp hd he =>
    rw [causesFault_accept hp, exec_fault he, hd]
    simp [not_matchesNoRow_of_decode hd]
  | illegal h cmd hp hw => simp [causesFault_accept hp, hw, Status.setsFault]
  | written h w ws u _ hu =>
    obtain ⟨-, -, _, -, rfl⟩ := State.bufWrite_eq_some.mp hu
    simp [hother]
  | reset _ ht => cases ht; simp [Regs.reset]
  | _ => simp [hother]

/-! ## The lifecycle (R172) -/

/-- A command leaves the lifecycle state, or is an `INIT` that succeeds, or a `TEARDOWN` from an idle `Ready`. -/
theorem exec_lifecycle_state {i : Instr} {s t : State} (h : exec i s = .next t) :
    t.reg.state = s.reg.state ∨
    (s.reg.state ≠ .ready ∧ t.reg.state = .ready ∧ ∃ count, i = .init count ∧ allocOK s.cfg count.toNat = true) ∨
    (s.reg.state = .ready ∧ s.reg.busy = false ∧ t.reg.state = .stopped ∧ i = .teardown) := by
  cases exec_cases h with
  | error => exact .inl (by simp)
  | read => exact .inl rfl
  | initialise count hr ha => exact .inr (.inl ⟨hr, rfl, count, rfl, ha⟩)
  | accepted => exact .inl rfl
  | stopAgain => exact .inl rfl
  | stop hr hb => exact .inr (.inr ⟨hr, hb, rfl, rfl⟩)

/-- Only the acceptance of a command and a reset move the lifecycle state. -/
theorem MoveCase.state {s t : State} {m : Move} (hc : MoveCase s m t) : t.reg.state = s.reg.state ∨
    (∃ h cmd i, m = .accept h ∧ s.pending h = some cmd ∧ decode (cmd.word :: cmd.payload) = .ok i [] ∧
      exec i { s with issuer := h } = .next t) ∨
    (m = .reset ∧ t.reg.state = .uninitialized) := by
  cases hc with
  | executed h cmd i _ hp hd he => exact .inr (.inl ⟨h, cmd, i, rfl, hp, hd, he⟩)
  | written h w ws u _ hu =>
    obtain ⟨-, -, _, -, rfl⟩ := State.bufWrite_eq_some.mp hu
    exact .inl rfl
  | reset _ ht => cases ht; exact .inr (.inr ⟨rfl, rfl⟩)
  | _ => exact .inl rfl

/-! ## What stays while the block stays `Ready` -/

/-- A command that leaves the block `Ready` leaves the arena and the buffers. -/
theorem exec_keeps_memory_of_ready {i : Instr} {s t : State} (hr : s.reg.state = .ready) (h : exec i s = .next t)
    (ht : t.reg.state = .ready) : t.desc = s.desc ∧ t.mem = s.mem ∧ t.reg.numLeds = s.reg.numLeds := by
  cases exec_cases h with
  | error => exact ⟨by simp, by simp, by simp⟩
  | initialise _ hn _ => exact absurd hr hn
  | stop => cases ht
  | _ => exact ⟨rfl, rfl, rfl⟩

/-- A move between two `Ready` states leaves every link of the ring (R149). -/
theorem MoveCase.links {s t : State} {m : Move} (hc : MoveCase s m t) (hr : s.reg.state = .ready)
    (ht : t.reg.state = .ready) : t.desc.map Desc.links = s.desc.map Desc.links := by
  cases hc with
  | executed h cmd i _ _ _ he =>
    obtain ⟨hd, -, -⟩ := exec_keeps_memory_of_ready (s := { s with issuer := h }) hr he ht
    rw [hd]
  | written h w ws u _ hu =>
    obtain ⟨-, -, _, -, rfl⟩ := State.bufWrite_eq_some.mp hu
    rfl
  | flagged _ _ _ _ hl => exact hl
  | reset _ hs => cases hs; cases ht
  | _ => rfl

/-- A move between two `Ready` states leaves every byte, or is the render step that writes one (R58). -/
theorem MoveCase.bytes {s t : State} {m : Move} (hc : MoveCase s m t) (hr : s.reg.state = .ready)
    (ht : t.reg.state = .ready) : SameBytes s t ∨
      ∃ h w ws u, m = .render ∧ s.rs = .rendering h (w :: ws) ∧ s.bufWrite w.buf w.off w.val = some u ∧
        t = { u with rs := .rendering h ws } := by
  cases hc with
  | executed h cmd i _ _ _ he =>
    obtain ⟨-, hm, hn⟩ := exec_keeps_memory_of_ready (s := { s with issuer := h }) hr he ht
    obtain ⟨hc, -⟩ := exec_keeps he
    exact .inl (sameBytes_of_eq hm (ht.trans hr.symm) hn hc)
  | written h w ws u hrs hu => exact .inr ⟨h, w, ws, u, rfl, hrs, hu, rfl⟩
  | reset _ hs => cases hs; cases ht
  | _ => exact .inl (sameBytes_of_eq rfl rfl rfl rfl)

/-! ## A render step (R178) -/

/-- What a render step does to the bytes, in a good state: the written byte has its value, the others are as before. -/
theorem Inv.bufRead_written {s u : State} {w : ByteWrite} (hi : Inv s) (hu : s.bufWrite w.buf w.off w.val = some u)
    (b : Buf) (off : Nat) :
    (b = w.buf ∧ off = w.off ∧ u.bufRead b off = some w.val) ∨
    (¬(b = w.buf ∧ off = w.off) ∧ u.bufRead b off = s.bufRead b off) := by
  have hwf : ∀ m, s.mem.buffer w.buf = some m → Memory.wfFrom 0 m = true := fun m hm => hi.buffer_wf hm
  by_cases h : b = w.buf ∧ off = w.off
  · obtain ⟨rfl, rfl⟩ := h
    exact .inl ⟨rfl, rfl, State.bufRead_bufWrite_same hu hwf⟩
  · exact .inr ⟨h, State.bufRead_bufWrite_other hu hwf h⟩

/-- The byte that a good state's write list begins with exists. -/
theorem Inv.bufWrite_head {s : State} {h : Nat} {w : ByteWrite} {ws : List ByteWrite} (hi : Inv s)
    (hrs : s.rs = .rendering h (w :: ws)) : ∃ u, s.bufWrite w.buf w.off w.val = some u := by
  obtain ⟨hready, -⟩ := hi.ready_busy_of_rendering hrs
  obtain ⟨-, -, -, -, -, -, -, -, hwrites⟩ := (inv_iff.mp hi).1
  obtain ⟨p, hp, hlt, ho⟩ := inPhase_iff.mp (hwrites w (by simp [hrs, Render.writes]))
  obtain ⟨x, hx⟩ := hi.bufRead_isSome hready hlt ho
  rw [← Option.isSome_iff_exists, State.bufWrite_isSome, hp, hx]
  rfl

/-- A render step with a write to come performs it. -/
theorem stepRender_of_bufWrite {s u : State} {h : Nat} {w : ByteWrite} {ws : List ByteWrite}
    (hrs : s.rs = .rendering h (w :: ws)) (hu : s.bufWrite w.buf w.off w.val = some u) :
    stepRender s = .next { u with rs := .rendering h ws } := by
  simp [stepRender, hrs, hu]

/-! ## A read of the engine (R190) -/

/-- The byte under the cursor of a good `Ready` state exists. -/
theorem Inv.byte_at_cursor {s : State} (hi : Inv s) (hr : s.reg.state = .ready) :
    ∃ d x, s.desc[s.dma.cur]? = some d ∧ s.bufRead d.buf s.dma.off = some x := by
  obtain ⟨hcur, d, hd, hoff, -⟩ := hi.cursor hr
  obtain ⟨q, hq | hq⟩ := (s.dma.cur).even_or_odd'
  · obtain ⟨e, he, hb, hl, -⟩ := hi.desc_pixel hr (q := q) (by omega)
    obtain rfl : d = e := Option.some.inj (hd.symm.trans (hq ▸ he))
    obtain ⟨x, hx⟩ := hi.bufRead_isSome hr (phasePermOf_lt hi.1 (q := q) (by omega)) (hl ▸ hoff)
    exact ⟨d, x, hd, hb ▸ hx⟩
  · obtain ⟨e, he, hb, hl, -⟩ := hi.desc_gap hr (q := q) (by omega)
    obtain rfl : d = e := Option.some.inj (hd.symm.trans (hq ▸ he))
    exact ⟨d, 0, hd, hb ▸ hi.bufRead_gap hr (hl ▸ hoff)⟩

theorem stepDmaRead_of_not_running {s : State} (h : s.dma.running = false) : stepDmaRead s = .next s := by
  simp [stepDmaRead, h]

/-! ## No good state faults -/

/-- A byte of the buffer that a select names exists, within the length that goes with it (R77). -/
theorem Inv.bufRead_selected {s : State} (hi : Inv s) (hr : s.reg.state = .ready) {sel : BitVec 4} {b : Buf}
    {len k : Nat} (hs : selectBuffer s sel = some (b, len)) (hk : k < len) : ∃ x, s.bufRead b k = some x := by
  simp only [selectBuffer, State.phaseBytes_of_ready hr] at hs
  split_ifs at hs with hp
  · cases hs
    exact hi.bufRead_isSome hr hp hk
  · cases hs
    exact ⟨0, hi.bufRead_gap hr hk⟩

/-- From a good state every well-formed command answers. -/
theorem Inv.exec_answers {i : Instr} {s : State} (hi : Inv s) (hw : i.wellFormed = true) : ∃ t, exec i s = .next t := by
  cases i with
  | init count =>
    by_cases hr : s.reg.state = .ready
    · exact ⟨_, exec_init_of_ready hr⟩
    · cases ha : allocOK s.cfg count.toNat with
      | false => exact ⟨_, exec_init_of_not_allocOK hr ha⟩
      | true => exact ⟨_, exec_init_of_allocOK hr ha⟩
  | showPixels count P =>
    have hl : P.length = 3 * count.toNat := beq_iff_eq.mp hw
    by_cases hr : s.reg.state = .ready
    · cases hb : s.reg.busy with
      | true => exact ⟨_, exec_showPixels_of_busy hl hr hb⟩
      | false =>
        by_cases hn : count = s.reg.numLeds
        · exact ⟨_, exec_showPixels_of_accepted hl hr hb hn⟩
        · exact ⟨_, exec_showPixels_of_mismatch hl hr hb hn⟩
    · exact ⟨_, exec_showPixels_of_not_ready hl hr⟩
  | teardown =>
    cases hs : s.reg.state with
    | uninitialized => exact ⟨_, exec_teardown_of_uninitialized hs⟩
    | stopped => exact ⟨_, exec_teardown_of_stopped hs⟩
    | ready =>
      cases hb : s.reg.busy with
      | true => exact ⟨_, exec_teardown_of_busy hs hb⟩
      | false => exact ⟨_, exec_teardown_of_idle hs hb⟩
  | lutRd ph val => exact ⟨_, rfl⟩
  | symRd nib => exact ⟨_, rfl⟩
  | enc ph val => exact ⟨_, rfl⟩
  | bufRdh sel idx =>
    by_cases hr : s.reg.state = .ready
    · by_cases h : s.cfg.dither ≤ sel.toNat ∨ 6 * s.reg.numLeds.toNat ≤ idx.toNat
      · exact ⟨_, exec_bufRdh_of_out_of_range hr h⟩
      · obtain ⟨hs, hx⟩ := not_or.mp h
        obtain ⟨b0, h0⟩ := hi.bufRead_isSome hr (Nat.lt_of_not_le hs) (off := 2 * idx.toNat) (by omega)
        obtain ⟨b1, h1⟩ := hi.bufRead_isSome hr (Nat.lt_of_not_le hs) (off := 2 * idx.toNat + 1) (by omega)
        exact ⟨_, exec_bufRdh_of_reads hr (Nat.lt_of_not_le hs) (Nat.lt_of_not_le hx) h0 h1⟩
    · exact ⟨_, exec_bufRdh_of_not_ready hr⟩
  | bufRdb sel idx =>
    by_cases hr : s.reg.state = .ready
    · cases hs : selectBuffer s sel with
      | none => exact ⟨_, exec_bufRdb_of_no_buffer hr hs⟩
      | some bl =>
        obtain ⟨b, len⟩ := bl
        by_cases hx : len ≤ idx.toNat
        · exact ⟨_, exec_bufRdb_of_past_end hr hs hx⟩
        · obtain ⟨x, hb⟩ := hi.bufRead_selected hr hs (Nat.lt_of_not_le hx)
          exact ⟨_, exec_bufRdb_of_read hr hs (Nat.lt_of_not_le hx) hb⟩
    · exact ⟨_, exec_bufRdb_of_not_ready hr⟩
  | descRd fld di =>
    by_cases hr : s.reg.state = .ready
    · by_cases h : 2 * s.cfg.dither ≤ di.toNat
      · exact ⟨_, exec_descRd_of_out_of_range hr h⟩
      · obtain ⟨d, hd, -⟩ := hi.desc_bounds hr (Nat.lt_of_not_le h)
        exact ⟨_, exec_descRd_of_desc hr (Nat.lt_of_not_le h) hd⟩
    · exact ⟨_, exec_descRd_of_not_ready hr⟩
  | regRd rn =>
    cases hv : regValue s rn with
    | none => exact ⟨_, exec_regRd_of_reserved hv⟩
    | some v => exact ⟨_, exec_regRd_of_regValue hv⟩

/-- A whole transaction decodes, to a well-formed command or as an illegal word (R70). -/
theorem decode_of_whole {cmd : Txn} (h : cmd.payload.length = payloadWords cmd.word) :
    (∃ i, decode (cmd.word :: cmd.payload) = .ok i [] ∧ i.wellFormed = true) ∨
    ∃ cause, decode (cmd.word :: cmd.payload) = .illegal cause cmd.payload := by
  cases hw : decodeHead cmd.word with
  | plain i =>
    rw [payloadWords_of_plain hw, List.length_eq_zero_iff] at h
    exact .inl ⟨i, by rw [h, decode_of_plain hw], wellFormed_of_decodeHead_plain hw⟩
  | showHead count =>
    rw [payloadWords_of_showHead hw] at h
    have hd := decode_of_showHead hw cmd.payload
    rw [if_neg (by omega), List.drop_of_length_le h.le] at hd
    exact .inl ⟨_, hd, beq_iff_eq.mpr (showPayload_length h.ge)⟩
  | illegal cause => exact .inr ⟨cause, decode_cons_eq_illegal_iff.mpr ⟨hw, rfl⟩⟩

/-- From a good state the acceptance of a host's command answers. -/
theorem Inv.stepAccept_answers {s : State} (hi : Inv s) (h : Nat) : ∃ t, stepAccept h s = .next t := by
  cases hp : s.pending h with
  | none => exact ⟨s, by simp [stepAccept, hp]⟩
  | some cmd =>
    obtain ⟨-, -, a, ha, hport⟩ := State.pending_some hp
    obtain ⟨-, hports, -⟩ := (inv_iff.mp hi).2
    have hwhole : cmd.payload.length = payloadWords cmd.word := by
      simpa [HostAgent.portOK, hport] using hports a (List.mem_of_getElem? ha)
    obtain ⟨i, hd, hw⟩ | ⟨cause, hd⟩ := decode_of_whole hwhole
    · have hi' : Inv { s with issuer := h } := hi
      rw [stepAccept_of_decode hp hd]
      exact hi'.exec_answers hw
    · exact ⟨_, stepAccept_of_illegal hp hd⟩

/-- From a good state the render sequencer's move answers. -/
theorem Inv.stepRender_answers {s : State} (hi : Inv s) : ∃ t, stepRender s = .next t := by
  cases hrs : s.rs with
  | idle => exact ⟨s, by simp [stepRender, hrs]⟩
  | rendering h W =>
    cases W with
    | nil => exact ⟨_, stepRender_of_completion hrs⟩
    | cons w ws =>
      obtain ⟨u, hu⟩ := hi.bufWrite_head hrs
      exact ⟨_, stepRender_of_bufWrite hrs hu⟩

/-- From a good state the engine's read answers. -/
theorem Inv.stepDmaRead_answers {s : State} (hi : Inv s) : ∃ t, stepDmaRead s = .next t := by
  cases hrun : s.dma.running with
  | false => exact ⟨s, stepDmaRead_of_not_running hrun⟩
  | true =>
    obtain ⟨d, x, hd, hx⟩ := hi.byte_at_cursor (hi.ready_of_running hrun)
    exact ⟨_, stepDmaRead_of_byte hrun hd hx⟩

/-- A host's move answers, or the host has too few words for its `SHOW` (R70). -/
theorem stepIssue_answers (h : Nat) (s : State) : (∃ t, stepIssue h s = .next t) ∨
    (stepIssue h s = .refused .payloadLength ∧ ∃ a w ws, s.hosts[h]? = some a ∧ a.port = .free ∧ a.inbox = w :: ws ∧
      ws.length < payloadWords w) := by
  unfold stepIssue
  split
  · exact .inl ⟨_, rfl⟩
  · next a ha =>
    split
    · exact .inl ⟨_, rfl⟩
    · exact .inl ⟨_, rfl⟩
    · next w ws hp hi =>
      split_ifs with hl
      · exact .inr ⟨rfl, a, w, ws, ha, hp, hi, hl⟩
      · exact .inl ⟨_, rfl⟩

/-- From a good state every move answers, but for the issue of a `SHOW` without its whole payload. -/
theorem Inv.takeMove_answers {s : State} (hi : Inv s) (m : Move) : (∃ t, takeMove m s = .next t) ∨
    (takeMove m s = .refused .payloadLength ∧ ∃ h a w ws, m = .issue h ∧ s.hosts[h]? = some a ∧ a.port = .free ∧
      a.inbox = w :: ws ∧ ws.length < payloadWords w) := by
  cases m with
  | issue h => exact (stepIssue_answers h s).imp_right fun ⟨hr, a, w, ws, hshort⟩ => ⟨hr, h, a, w, ws, rfl, hshort⟩
  | accept h => exact .inl (hi.stepAccept_answers h)
  | render => exact .inl hi.stepRender_answers
  | dmaRead => exact .inl hi.stepDmaRead_answers
  | dmaFlags d o e => exact .inl ⟨_, rfl⟩
  | reset => exact .inl ⟨_, rfl⟩

/-! ## What was observed (R193, R188, R195) -/

/-- Each host of `l` is still there in `l'`, with what it had received. -/
def ReceivedGrow (l l' : List HostAgent) : Prop :=
  ∀ (h : Nat) (a : HostAgent), l[h]? = some a → ∃ b : HostAgent, l'[h]? = some b ∧ a.received <+: b.received

theorem ReceivedGrow.refl (l : List HostAgent) : ReceivedGrow l l := fun _ a ha => ⟨a, ha, List.prefix_rfl⟩

theorem receivedGrow_map {l : List HostAgent} {f : HostAgent → HostAgent} (hf : ∀ a, (f a).received = a.received) :
    ReceivedGrow l (l.map f) := fun h a ha => ⟨f a, by simp [ha], by rw [hf]⟩

theorem receivedGrow_set {l : List HostAgent} {g : Nat} {a b : HostAgent} (ha : l[g]? = some a)
    (hb : b.received = a.received) : ReceivedGrow l (l.set g b) := by
  intro h c hc
  by_cases hg : g = h
  · subst hg
    obtain rfl := Option.some.inj (ha.symm.trans hc)
    obtain ⟨hlt, -⟩ := List.getElem?_eq_some_iff.mp ha
    exact ⟨b, List.getElem?_set_self hlt, by rw [hb]⟩
  · exact ⟨c, by rw [List.getElem?_set_ne hg, hc], List.prefix_rfl⟩

theorem receivedGrow_respondTo (s : State) (g : Nat) (r : Response) :
    ReceivedGrow s.hosts (s.respondTo g r).hosts := by
  intro h a ha
  by_cases hg : h = g
  · subst hg
    exact ⟨_, State.respondTo_same r ha, List.prefix_append ..⟩
  · exact ⟨a, by rw [State.respondTo_other r hg, ha], List.prefix_rfl⟩

/-- A command only adds calls. -/
theorem exec_calls {i : Instr} {s t : State} (h : exec i s = .next t) : s.calls <+: t.calls := by
  cases exec_cases h with
  | initialise => simp
  | stop => simp
  | _ => simp

/-- A move leaves the parameters, and only adds to what was observed. -/
theorem MoveCase.histories {s t : State} {m : Move} (hc : MoveCase s m t) : t.cfg = s.cfg ∧ s.stream <+: t.stream ∧
    s.calls <+: t.calls ∧ ReceivedGrow s.hosts t.hosts := by
  cases hc with
  | unmoved => exact ⟨rfl, List.prefix_rfl, List.prefix_rfl, .refl _⟩
  | issued h a w ws ha _ => exact ⟨rfl, List.prefix_rfl, List.prefix_rfl, receivedGrow_set ha rfl⟩
  | executed h cmd i _ _ _ he =>
    obtain ⟨hcfg, hstream, -⟩ := exec_keeps he
    refine ⟨hcfg, by rw [hstream], exec_calls (s := { s with issuer := h }) he, ?_⟩
    obtain ⟨-, r, hh⟩ | ⟨hh, -⟩ := exec_hosts he
    · rw [hh]; exact receivedGrow_respondTo { s with issuer := h } h r
    · rw [hh]; exact .refl _
  | illegal h cmd _ _ =>
    exact ⟨rfl, List.prefix_rfl, List.prefix_rfl, receivedGrow_respondTo s h ⟨.illegalCommand, 0⟩⟩
  | written h w ws u _ hu =>
    obtain ⟨-, -, _, -, rfl⟩ := State.bufWrite_eq_some.mp hu
    exact ⟨rfl, List.prefix_rfl, List.prefix_rfl, .refl _⟩
  | completed h _ => exact ⟨rfl, List.prefix_rfl, List.prefix_rfl, receivedGrow_respondTo s h ⟨.ok, 0⟩⟩
  | emitted => exact ⟨rfl, List.prefix_append .., List.prefix_rfl, .refl _⟩
  | flagged => exact ⟨rfl, List.prefix_rfl, List.prefix_rfl, .refl _⟩
  | reset _ hs => cases hs; exact ⟨rfl, List.prefix_rfl, List.prefix_rfl, receivedGrow_map fun _ => rfl⟩

/-! ## The output (R242, R60) -/

/-- What a move adds to the stream: nothing, or the byte under the cursor of the running engine. -/
theorem MoveCase.stream {s t : State} {m : Move} (hc : MoveCase s m t) : t.stream = s.stream ∨
    ∃ d x, s.dma.running = true ∧ s.bufRead d s.dma.off = some x ∧ t.stream = s.stream ++ [x] := by
  cases hc with
  | executed h cmd i _ _ _ he =>
    obtain ⟨-, hstream, -⟩ := exec_keeps he
    exact .inl hstream
  | written h w ws u _ hu =>
    obtain ⟨-, -, _, -, rfl⟩ := State.bufWrite_eq_some.mp hu
    exact .inl rfl
  | emitted d x hrun _ hx => exact .inr ⟨d.buf, x, hrun, hx, rfl⟩
  | reset _ hs => cases hs; exact .inl rfl
  | _ => exact .inl rfl

/-- Every byte of the buffer space that exists is 0. -/
def AllZero (s : State) : Prop := ∀ (b : Buf) (off : Nat) (x : Byte), s.bufRead b off = some x → x = 0

/-- Outside `Ready` a good state has no byte (R39). -/
theorem Inv.allZero_of_not_ready {s : State} (hi : Inv s) (hr : s.reg.state ≠ .ready) : AllZero s := by
  obtain ⟨-, -, hmem, -⟩ := (inv_iff.mp hi).1
  simp only [State.memOK, hr, if_false] at hmem
  obtain ⟨halloc, -⟩ := hmem
  intro b off x hx
  rw [State.bufRead_of_not_allocated halloc] at hx
  cases hx

/-- `INIT` leaves every byte 0 (R173). -/
theorem allZero_initialise (s : State) (count : BitVec 16) : AllZero (s.initialise count) := by
  intro b off x hx
  obtain ⟨-, -, m, hm, rfl⟩ := State.bufRead_eq_some.mp hx
  cases b with
  | gap => cases hm; rfl
  | phase p =>
    have hmem : m ∈ List.replicate s.cfg.dither ([] : Memory) := List.mem_of_getElem? hm
    rw [List.eq_of_mem_replicate hmem]
    rfl

/-- With no render in flight a move of a good state keeps every byte 0. -/
theorem MoveCase.allZero {s t : State} {m : Move} (hc : MoveCase s m t) (ht : Inv t) (hidle : s.rs = .idle)
    (hz : AllZero s) : AllZero t := by
  by_cases htr : t.reg.state = .ready
  · by_cases hr : s.reg.state = .ready
    · obtain hsame | ⟨h, w, ws, u, -, hrs, -⟩ := hc.bytes hr htr
      · exact fun b off x hx => hz b off x ((hsame b off).symm.trans hx)
      · cases hidle.symm.trans hrs
    · obtain hst | ⟨h, cmd, i, -, -, -, he⟩ | ⟨-, hst⟩ := hc.state
      · exact absurd (hst.symm.trans htr) hr
      · cases exec_cases he with
        | initialise count _ _ => exact allZero_initialise _ count
        | error => exact absurd (by simpa using htr) hr
        | accepted _ _ _ hready => exact absurd hready hr
        | stop => cases htr
        | _ => exact absurd htr hr
      · cases hst.symm.trans htr
  · exact ht.allZero_of_not_ready htr

/-! ## The obligations -/

/-- Settles O57: the locations and descriptors that a good state's moves use exist, and its pending transactions
are whole. -/
theorem goodStatesNeverFault : Obligations.GoodStatesNeverFault := by
  intro s hi
  have h := hi.nextMove.takeMove_answers s.nextMove.1
  rwa [State.nextMove_hosts] at h

/-- Settles O36: what each move does to `FAULT`. -/
theorem faultIsStickyAndHasTwoCauses : Obligations.FaultIsStickyAndHasTwoCauses := by
  intro s t h
  simpa only [CausesFault, State.nextMove_reg, State.nextMove_pending] using (step_cases h).fault

/-- Settles O37: what each command does to the lifecycle state, and no other move but a reset. -/
theorem lifecycleMovesAlongItsTable : Obligations.LifecycleMovesAlongItsTable := by
  intro s t hs
  obtain hst | ⟨h, cmd, i, hm, hp, hd, he⟩ | ⟨hm, hst⟩ := (step_cases hs).state
  · exact .inl (by simpa using hst)
  · rw [State.nextMove_pending] at hp
    obtain hst | ⟨hr, htr, count, rfl, ha⟩ | ⟨hr, hb, htr, rfl⟩ := exec_lifecycle_state he
    · exact .inl (by simpa using hst)
    · exact .inr (.inl ⟨by simpa using hr, htr, h, cmd, count, hm, hp, hd, by simpa using ha⟩)
    · exact .inr (.inr (.inl ⟨by simpa using hr, by simpa using hb, htr, h, cmd, hm, hp, hd⟩))
  · exact .inr (.inr (.inr ⟨hst, hm⟩))

/-- Settles O47: the moves that change the arena leave or enter `Ready`, but for the flags. -/
theorem ringIsFixedWhileReady : Obligations.RingIsFixedWhileReady := by
  intro s t hr h ht
  simpa using (step_cases h).links (by simpa using hr) ht

/-- Settles O58: the one move that changes a byte while `Ready`, and the byte that it changes. -/
theorem bytesChangeOnlyByRenderSteps : Obligations.BytesChangeOnlyByRenderSteps := by
  intro s t hi hs hr ht b off
  rw [← s.nextMove_sameBytes b off]
  obtain hsame | ⟨h, w, ws, u, hm, hrs, hu, rfl⟩ := (step_cases hs).bytes (by simpa using hr) ht
  · exact .inl (hsame b off)
  · obtain ⟨rfl, rfl, hx⟩ | ⟨-, hx⟩ := hi.nextMove.bufRead_written hu b off
    · exact .inr ⟨h, w, ws, hm, by simpa using hrs, rfl, rfl, hx⟩
    · exact .inl hx

/-- Settles O59: the state after the step is good. -/
theorem gapBufferStaysZero : Obligations.GapBufferStaysZero :=
  fun _ _ hi h ht _ => (hi.of_step h).bufRead_gap ht

/-- Settles O60: what each move adds to the histories. -/
theorem parametersStayAndHistoriesGrow : Obligations.ParametersStayAndHistoriesGrow := by
  intro s t h
  simpa [ReceivedGrow] using (step_cases h).histories

/-- Settles O51: outside `Ready` the engine does not run; while every byte is 0 it reads nothing else, and no move
but a render step writes one. -/
theorem outputIsZeroBeforeAFrame : Obligations.OutputIsZeroBeforeAFrame := by
  refine ⟨fun s t hi hr h => ?_, fun s t hi hidle hz h => ?_⟩
  · obtain hst | ⟨d, x, hrun, -⟩ := (step_cases h).stream
    · simpa using hst
    · exact absurd (hi.ready_of_running (by simpa using hrun)) hr
  · have hz' : AllZero s.nextMove.2 := fun b off x hx => hz b off x (by rwa [← s.nextMove_sameBytes b off])
    refine ⟨(step_cases h).allZero (hi.of_step h) (by simpa using hidle) hz', ?_⟩
    obtain hst | ⟨d, x, -, hx, hst⟩ := (step_cases h).stream
    · exact .inl (by simpa using hst)
    · rw [hz' d _ x hx, State.nextMove_stream] at hst
      exact .inr hst

end Sys2Proof.Machine

/-! SUPPORT. The proofs about a render and its stream, about fairness, and about the frame that
a completed `SHOW` leaves. -/

namespace Sys2Proof.Machine

/-! ## A render stays on its stream (R142, R143) -/

/-- A render that tracks a stream is in flight. -/
theorem RenderTracks.rendering {P : List Byte} {s : State} (ht : RenderTracks P s) : ∃ h W, s.rs = .rendering h W := by
  cases hrs : s.rs with
  | idle => simp [RenderTracks, hrs] at ht
  | rendering h W => exact ⟨h, W, rfl⟩

theorem renderTracks_iff {P : List Byte} {s : State} {h : Nat} {W : List ByteWrite} (hrs : s.rs = .rendering h W) :
    RenderTracks P s ↔ ∀ p off, p < s.cfg.dither → off < 12 * s.reg.numLeds.toNat →
      (∀ x ∈ W, x.buf = .phase p → x.off = off → x.val = streamByte s.cfg P p off) ∧
      ((∀ x ∈ W, ¬(x.buf = .phase p ∧ x.off = off)) → s.bufRead (.phase p) off = some (streamByte s.cfg P p off)) := by
  simp only [RenderTracks, hrs]

/-- Tracking reads the render, the parameters, the strip length and the bytes. -/
theorem RenderTracks.of_sameBytes {P : List Byte} {s t : State} (ht : RenderTracks P s) (hrs : t.rs = s.rs)
    (hc : t.cfg = s.cfg) (hn : t.reg.numLeds = s.reg.numLeds) (hb : SameBytes s t) : RenderTracks P t := by
  simpa only [RenderTracks, hrs, hc, hn, hb _ _] using ht

/-- The write of the head of the list keeps the render on its stream: the byte written is the stream's. -/
theorem RenderTracks.written {P : List Byte} {s u : State} {h : Nat} {w : ByteWrite} {ws : List ByteWrite} (hi : Inv s)
    (ht : RenderTracks P s) (hrs : s.rs = .rendering h (w :: ws)) (hu : s.bufWrite w.buf w.off w.val = some u) :
    RenderTracks P { u with rs := .rendering h ws } := by
  have hread := hi.bufRead_written hu
  obtain ⟨-, -, _, -, rfl⟩ := State.bufWrite_eq_some.mp hu
  rw [renderTracks_iff hrs] at ht
  refine (renderTracks_iff rfl).mpr fun p off hp ho => ?_
  obtain ⟨hval, hdone⟩ := ht p off hp ho
  obtain ⟨hw, hws⟩ := List.forall_mem_cons.mp hval
  refine ⟨hws, fun hnone => ?_⟩
  obtain ⟨hb, hoff, hx⟩ | ⟨hne, hx⟩ := hread (.phase p) off
  · exact hx.trans (congrArg some (hw hb.symm hoff.symm))
  · refine hx.trans (hdone (List.forall_mem_cons.mpr ⟨fun ⟨hb, hoff⟩ => hne ⟨hb.symm, hoff.symm⟩, hnone⟩))

/-- A command that runs while a render is in flight answers an error or reads: it leaves the block `Ready`. -/
theorem exec_ready_of_busy {i : Instr} {s t : State} (hr : s.reg.state = .ready) (hb : s.reg.busy = true)
    (h : exec i s = .next t) : t.reg.state = .ready := by
  obtain hst | ⟨hn, -⟩ | ⟨-, h0, -⟩ := exec_lifecycle_state h
  · exact hst.trans hr
  · exact absurd hr hn
  · simp [hb] at h0

/-- What a move does to a render of `P` in a good state. -/
theorem MoveCase.renderTracks {P : List Byte} {s t : State} {m : Move} (hc : MoveCase s m t) (hi : Inv s)
    (ht : RenderTracks P s) :
    RenderTracks P t ∨ (∃ h, m = .render ∧ s.rs = .rendering h [] ∧ t = s.completeShow h) ∨ m = .reset := by
  obtain ⟨h, W, hrs⟩ := ht.rendering
  obtain ⟨hready, hbusy⟩ := hi.ready_busy_of_rendering hrs
  cases hc with
  | executed g cmd i _ _ _ he =>
    have htr := exec_ready_of_busy (s := { s with issuer := g }) hready hbusy he
    obtain ⟨-, hm, hn⟩ := exec_keeps_memory_of_ready (s := { s with issuer := g }) hready he htr
    obtain ⟨hcfg, -⟩ := exec_keeps he
    exact .inl (ht.of_sameBytes (exec_rs_of_busy (s := { s with issuer := g }) hbusy he) hcfg hn
      (sameBytes_of_eq hm (htr.trans hready.symm) hn hcfg))
  | written g w ws u hg hu => exact .inl (ht.written hi hg hu)
  | completed g hg => exact .inr (.inl ⟨g, rfl, hg, rfl⟩)
  | reset => exact .inr (.inr rfl)
  | _ => exact .inl (ht.of_sameBytes rfl rfl rfl (sameBytes_of_eq rfl rfl rfl rfl))

theorem RenderTracks.nextMove {P : List Byte} {s : State} (ht : RenderTracks P s) : RenderTracks P s.nextMove.2 :=
  ht.of_sameBytes (by simp) (by simp) (by simp) s.nextMove_sameBytes

/-- The write list of an accepted stream writes each byte of the phase buffers, with the stream's value (R144). -/
theorem renderTracks_startRender {P : List Byte} {s : State} (hl : P.length = 3 * s.reg.numLeds.toNat) :
    RenderTracks P (s.startRender P) := by
  obtain ⟨-, -, hcount, hmem⟩ := writeListCoversEveryByteOnce s.cfg P _ (length_drawn_streamSymbols s P)
  refine (renderTracks_iff rfl).mpr fun p off hp ho => ⟨fun x hx hb hoff => ?_, fun hnone => ?_⟩
  · obtain ⟨q, hq, -, -, hv⟩ := hmem x hx
    cases hb.symm.trans hq
    rw [hv, hoff]
    rfl
  · have hone := hcount p off hp (by simp only [State.startRender_reg] at ho; omega)
    obtain ⟨x, hx⟩ := List.exists_mem_of_length_pos (hone ▸ Nat.one_pos)
    obtain ⟨hx, hxp⟩ := List.mem_filter.mp hx
    exact absurd (by simpa using hxp) (hnone x hx)

/-! ## Identical buffers (R146) -/

/-- Offsets beyond the length of a buffer read as 0. -/
theorem Memory.read_of_below {len : Nat} {m : Memory} (h : Memory.below len m = true) {k : Nat} (hk : len ≤ k) :
    Memory.read m k = 0 := by
  induction m with
  | nil => rfl
  | cons c m ih =>
    obtain ⟨a, x⟩ := c
    simp only [Memory.below, List.all_cons, Bool.and_eq_true, decide_eq_true_eq] at h
    rw [Memory.read_cons, if_neg (by omega)]
    exact ih h.2

/-- The two bytes of a symbol are fixed by it. -/
theorem joinBytes_injective {cfg : Params} {a b c d : Byte} (h : joinBytes cfg a b = joinBytes cfg c d) :
    a = c ∧ b = d := by
  have happend : ∀ {x y z w : Byte}, x ++ y = z ++ w → x = z ∧ y = w := by
    intro x y z w hxy
    have hhigh := congrArg (BitVec.extractLsb' 8 8) hxy
    have hlow := congrArg (BitVec.extractLsb' 0 8) hxy
    simp only [extract_append_high _ _ (le_refl 8), Nat.sub_self, extract_all] at hhigh
    simp only [extract_append_low _ _ (Nat.zero_add 8).le, extract_all] at hlow
    exact ⟨hhigh, hlow⟩
  unfold joinBytes at h
  split at h
  · exact (happend h).symm
  · exact happend h

theorem State.symbolAt_eq_some {s : State} {p i : Nat} {x : Symbol} (h : s.symbolAt p i = some x) :
    ∃ a b, s.bufRead (.phase p) (2 * i) = some a ∧ s.bufRead (.phase p) (2 * i + 1) = some b ∧
      joinBytes s.cfg a b = x := by
  unfold State.symbolAt at h
  split at h <;> cases h
  exact ⟨_, _, by assumption, by assumption, rfl⟩

/-- Where two states have the same symbol, its bytes read the same. -/
theorem bufRead_eq_of_symbolAt_eq {s t : State} (hc : s.cfg = t.cfg) {p i : Nat} {x : Symbol}
    (hs : s.symbolAt p i = some x) (ht : t.symbolAt p i = some x) {off : Nat} (ho : off / 2 = i) :
    s.bufRead (.phase p) off = t.bufRead (.phase p) off := by
  obtain ⟨a, b, ha, hb, hab⟩ := State.symbolAt_eq_some hs
  obtain ⟨c, d, hc', hd, hcd⟩ := State.symbolAt_eq_some ht
  obtain ⟨rfl, rfl⟩ := joinBytes_injective ((hc ▸ hab).trans hcd.symm)
  obtain rfl | rfl : off = 2 * i ∨ off = 2 * i + 1 := by omega
  · rw [ha, hc']
  · rw [hb, hd]

/-- States that show one stream have the same bytes in the phase buffers. -/
theorem FrameShown.bufRead_eq {P : List Byte} {s t : State} (hs : FrameShown P s) (ht : FrameShown P t)
    (hc : s.cfg = t.cfg) (hn : s.reg.numLeds = t.reg.numLeds) {p off : Nat} (hp : p < s.cfg.dither)
    (ho : off < 12 * s.reg.numLeds.toNat) :
    s.bufRead (.phase p) off = t.bufRead (.phase p) off := by
  obtain ⟨hs0, hs1⟩ := hs p (off / 4) hp (by omega)
  obtain ⟨ht0, ht1⟩ := ht p (off / 4) (hc ▸ hp) (by rw [← hn]; omega)
  rw [← hc] at ht0 ht1
  obtain h | h : off / 2 = 2 * (off / 4) ∨ off / 2 = 2 * (off / 4) + 1 := by omega
  · exact bufRead_eq_of_symbolAt_eq hc hs0 ht0 h
  · exact bufRead_eq_of_symbolAt_eq hc hs1 ht1 h

/-- Canonical memories within one length that read the same there are equal. -/
theorem Memory.eq_of_read {len : Nat} {m n : Memory} (hm : Memory.wf m = true ∧ Memory.below len m = true)
    (hn : Memory.wf n = true ∧ Memory.below len n = true) (h : ∀ k, k < len → Memory.read m k = Memory.read n k) :
    m = n := by
  refine Memory.ext_of_read hm.1 hn.1 fun k => ?_
  rcases Nat.lt_or_ge k len with hk | hk
  · exact h k hk
  · rw [Memory.read_of_below hm.2 hk, Memory.read_of_below hn.2 hk]

theorem BufferMemory.eq_of_fields {m n : BufferMemory} (ha : m.allocated = n.allocated) (hp : m.phase = n.phase)
    (hg : m.gap = n.gap) : m = n := by
  cases m
  cases n
  simp_all only

/-- Good `Ready` states of one instance with the same bytes in the phase buffers have the same buffer memory. -/
theorem Inv.mem_eq {s t : State} (hs : Inv s) (ht : Inv t) (hc : s.cfg = t.cfg) (hn : s.reg.numLeds = t.reg.numLeds)
    (hsr : s.reg.state = .ready) (htr : t.reg.state = .ready)
    (h : ∀ p off, p < s.cfg.dither → off < 12 * s.reg.numLeds.toNat →
      s.bufRead (.phase p) off = t.bufRead (.phase p) off) : s.mem = t.mem := by
  obtain ⟨-, -, hsm, -⟩ := (inv_iff.mp hs).1
  obtain ⟨-, -, htm, -⟩ := (inv_iff.mp ht).1
  simp only [State.memOK, hsr, htr, if_true, ← hc, ← hn] at hsm htm
  obtain ⟨hsa, hsl, hsg, hsw⟩ := hsm
  obtain ⟨hta, htl, htg, htw⟩ := htm
  have hphase : s.mem.phase = t.mem.phase := by
    refine List.ext_getElem (hsl.trans htl.symm) fun p hp hp' => ?_
    refine Memory.eq_of_read (hsw _ (List.getElem_mem hp)) (htw _ (List.getElem_mem hp')) fun off ho => ?_
    have hread := h p off (hsl ▸ hp) ho
    have hlen : s.bufLen (.phase p) = 12 * s.reg.numLeds.toNat := State.phaseBytes_of_ready hsr
    have hlen' : t.bufLen (.phase p) = 12 * s.reg.numLeds.toNat := hn ▸ State.phaseBytes_of_ready htr
    simpa [State.bufRead, hsa, hta, hlen, hlen', ho, hp, hp'] using hread
  exact BufferMemory.eq_of_fields (hsa.trans hta.symm) hphase (hsg.trans htg.symm)

/-! ## Fairness (R178, R190, I12) -/

/-- The machine comes to a state with `Q` after some number of steps, unless it stops before. -/
def Eventually (Q : State → Prop) (s : State) : Prop :=
  ∃ n, match Host.Core.run Sys2Proof.core n s with
    | .next u => Q u
    | .fault _ => True
    | .refused _ => True

theorem Eventually.now {Q : State → Prop} {s : State} (h : Q s) : Eventually Q s := ⟨0, h⟩

/-- A run goes on from where its first step leads. -/
theorem run_succ_of_step {s u : State} (h : step s = .next u) (n : Nat) :
    Host.Core.run Sys2Proof.core (n + 1) s = Host.Core.run Sys2Proof.core n u := by
  rw [Nat.add_comm]
  exact run_add (run_one_of_step h)

/-- A run of one step that is refused. -/
theorem run_one_of_refused {s : State} {r : Refusal} (h : step s = .refused r) :
    Host.Core.run Sys2Proof.core 1 s = .refused r := by
  have hcore : Sys2Proof.core.step s = .refused r := h
  simp [Host.Core.run, hcore]

/-- A run of one step that faults. -/
theorem run_one_of_fault {s : State} {r : Fault} (h : step s = .fault r) :
    Host.Core.run Sys2Proof.core 1 s = .fault r := by
  have hcore : Sys2Proof.core.step s = .fault r := h
  simp [Host.Core.run, hcore]

theorem Eventually.of_step {Q : State → Prop} {s : State} (h : ∀ u, step s = .next u → Eventually Q u) :
    Eventually Q s := by
  cases hs : step s with
  | next u =>
    obtain ⟨n, hn⟩ := h u hs
    exact ⟨n + 1, by rw [run_succ_of_step hs]; exact hn⟩
  | fault r => exact ⟨1, by rw [run_one_of_fault hs]; trivial⟩
  | refused r => exact ⟨1, by rw [run_one_of_refused hs]; trivial⟩

theorem Eventually.trans {Q R : State → Prop} {s : State} (h : Eventually Q s) (hq : ∀ u, Q u → Eventually R u) :
    Eventually R s := by
  obtain ⟨n, hn⟩ := h
  induction n generalizing s with
  | zero => exact hq s hn
  | succ n ih =>
    refine .of_step fun u hu => ih ?_
    rwa [run_succ_of_step hu] at hn

/-- The step of a schedule that lists a move leaves the others, and the counter of free blocks. -/
theorem step_schedule {s u : State} {m : Move} {rest : List Move} (hs : s.sched = m :: rest) (h : step s = .next u) :
    u.sched = rest ∧ u.turn = s.turn := by
  rw [step_of_sched hs] at h
  exact takeMove_schedule h

/-- Every move that the schedule lists comes up. -/
theorem comesUp_of_mem {m : Move} {pre rest : List Move} : ∀ {s : State}, s.sched = pre ++ m :: rest → ComesUp m s := by
  induction pre with
  | nil => exact fun hs => Eventually.now (by rw [State.nextMove_cons hs])
  | cons a pre ih => exact fun hs => Eventually.of_step fun u hu => ih (step_schedule hs hu).1

/-- The schedule is used up after some number of steps, with no free block begun. -/
theorem eventually_sched_nil {k : Nat} : ∀ {L : List Move} {s : State}, s.sched = L → s.turn = k →
    Eventually (fun u => u.sched = [] ∧ u.turn = k) s
  | [], _, hs, hk => .now ⟨hs, hk⟩
  | _ :: _, _, hs, hk => .of_step fun _ hu =>
    have h := step_schedule hs hu
    eventually_sched_nil h.1 (h.2.trans hk)

/-- The step of a schedule that is used up leaves the rest of the next free block, with its fair move. -/
theorem step_schedule_nil {s u : State} (hs : s.sched = []) (h : step s = .next u) :
    ∃ m, m :: u.sched = Config.freeMoves s.turn ++ [fairMove s.turn] ∧ u.turn = s.turn + 1 := by
  obtain ⟨m, rest, hblock, hnext⟩ := State.nextMove_nil hs
  rw [step, hnext] at h
  obtain ⟨hsched, hturn⟩ := takeMove_schedule h
  exact ⟨m, by rw [hblock, hsched], hturn⟩

/-- The fair move behind a free block comes up. -/
theorem comesUp_fairMove {s : State} (hs : s.sched = []) : ComesUp (fairMove s.turn) s := by
  obtain ⟨m, rest, hblock, hnext⟩ := State.nextMove_nil hs
  cases hfree : Config.freeMoves s.turn with
  | nil =>
    rw [hfree, List.nil_append, List.cons.injEq] at hblock
    exact Eventually.now (by rw [hnext, hblock.1])
  | cons a L =>
    refine Eventually.of_step fun u hu => ?_
    obtain ⟨m', hb, -⟩ := step_schedule_nil hs hu
    rw [hfree, List.cons_append, List.cons.injEq] at hb
    exact comesUp_of_mem hb.2

/-- The two fair moves come by turns. -/
theorem fairMove_succ_of_ne {m : Move} (hm : m = .render ∨ m = .dmaRead) {n : Nat} (h : fairMove n ≠ m) :
    fairMove (n + 1) = m := by
  obtain ⟨k, rfl | rfl⟩ := n.even_or_odd'
  · rw [fairMove_even] at h
    rw [fairMove_odd, hm.resolve_left h.symm]
  · rw [fairMove_odd] at h
    exact (fairMove_even (k + 1)).trans (hm.resolve_right h.symm).symm

/-- Each of the two fair moves comes up, in this free block or in the next one. -/
theorem comesUp_of_fair {m : Move} (hm : m = .render ∨ m = .dmaRead) (s : State) : ComesUp m s := by
  refine Eventually.trans (eventually_sched_nil rfl rfl) fun u ⟨hu, _⟩ => ?_
  by_cases hturn : fairMove u.turn = m
  · exact hturn ▸ comesUp_fairMove hu
  · refine Eventually.of_step fun v hv => ?_
    obtain ⟨-, -, hvturn⟩ := step_schedule_nil hu hv
    refine (eventually_sched_nil rfl hvturn).trans fun w ⟨hw, hwturn⟩ => ?_
    have hfair : fairMove w.turn = m := hwturn ▸ fairMove_succ_of_ne hm hturn
    exact hfair ▸ comesUp_fairMove hw

end Sys2Proof.Machine

/-! SUPPORT. The proofs that a render in flight comes to its completion, and the obligations about renders, fairness
and the engine. -/

namespace Sys2Proof.Machine

/-! ## Where a good state comes to -/

/-- From a good state the machine comes to a state with `Q`, or a host stops it with a short payload (R70). -/
def Reaches (Q : State → Prop) (s : State) : Prop :=
  ∃ n, Host.Core.run Sys2Proof.core n s = .refused .payloadLength ∨
    ∃ u : State, Host.Core.run Sys2Proof.core n s = .next u ∧ Q u

theorem Reaches.now {Q : State → Prop} {s : State} (h : Q s) : Reaches Q s := ⟨0, .inr ⟨s, rfl, h⟩⟩

theorem Reaches.of_step {Q : State → Prop} {s : State} (hi : Inv s) (h : ∀ u, step s = .next u → Reaches Q u) :
    Reaches Q s := by
  obtain ⟨u, hu⟩ | ⟨hr, -⟩ := goodStatesNeverFault s hi
  · obtain ⟨n, hn⟩ := h u hu
    exact ⟨n + 1, by rwa [run_succ_of_step hu]⟩
  · exact ⟨1, .inl (run_one_of_refused hr)⟩

theorem Reaches.trans {Q R : State → Prop} {s : State} (h : Reaches Q s) (hq : ∀ u, Q u → Reaches R u) :
    Reaches R s := by
  obtain ⟨n, hr | ⟨u, hu, hqu⟩⟩ := h
  · exact ⟨n, .inl hr⟩
  · obtain ⟨k, hk⟩ := hq u hqu
    exact ⟨n + k, by rwa [run_add hu]⟩

/-- What holds of good states and stays while `Q` does not hold still holds where `Q` comes to hold. -/
theorem Eventually.reaches {J Q : State → Prop} (hJ : ∀ s, J s → Inv s)
    (hkeep : ∀ s t, J s → ¬Q s → step s = .next t → J t) {s : State} (h : Eventually Q s) (hs : J s) :
    Reaches (fun u => J u ∧ Q u) s := by
  obtain ⟨n, hn⟩ := h
  induction n generalizing s with
  | zero => exact .now ⟨hs, hn⟩
  | succ n ih =>
    by_cases hq : Q s
    · exact .now ⟨hs, hq⟩
    · refine .of_step (hJ s hs) fun u hu => ih (hkeep s u hs hq hu) ?_
      rwa [run_succ_of_step hu] at hn

/-! ## A render of `P` for host `h` with the list `W` still to write -/

/-- A good state with such a render in flight. -/
structure Renders (P : List Byte) (h : Nat) (W : List ByteWrite) (s : State) : Prop where
  inv : Inv s
  rs : s.rs = .rendering h W
  tracks : RenderTracks P s

section
variable {P : List Byte} {h : Nat} {s : State}

theorem Renders.nextMove {W : List ByteWrite} (hr : Renders P h W s) : Renders P h W s.nextMove.2 :=
  ⟨hr.inv.nextMove, by rw [State.nextMove_rs, hr.rs], hr.tracks.nextMove⟩

/-- Only the render sequencer's moves and a reset change a render in flight. -/
theorem Renders.of_step_other {W : List ByteWrite} {t : State} (hr : Renders P h W s) (hs : step s = .next t)
    (hrender : s.nextMove.1 ≠ .render) (hreset : s.nextMove.1 ≠ .reset) : Renders P h W t := by
  refine ⟨hr.inv.of_step hs, ?_, ?_⟩
  · obtain h | ⟨_, _, -, hm, -⟩ | ⟨-, hm, -⟩ | hm := step_rs_of_rendering hr.inv hr.rs hs
    · exact h.trans hr.rs
    · exact absurd hm hrender
    · exact absurd hm hrender
    · exact absurd hm hreset
  · obtain h | ⟨_, hm, -⟩ | hm := (step_cases hs).renderTracks hr.nextMove.inv hr.nextMove.tracks
    · exact h
    · exact absurd hm hrender
    · exact absurd hm hreset

/-- A render step takes the head off the list, and leaves the schedule and the hosts (R178). -/
theorem Renders.step_write {w : ByteWrite} {ws : List ByteWrite} (hr : Renders P h (w :: ws) s)
    (hm : s.nextMove.1 = .render) :
    ∃ t, step s = .next t ∧ Renders P h ws t ∧ t.sched = s.nextMove.2.sched ∧ t.hosts = s.hosts := by
  obtain ⟨hi, hrs, ht⟩ := hr.nextMove
  obtain ⟨u, hu⟩ := hi.bufWrite_head hrs
  have hstep : step s = .next { u with rs := .rendering h ws } := by
    rw [step_eq_takeMove hm]
    exact stepRender_of_bufWrite hrs hu
  refine ⟨_, hstep, ⟨hr.inv.of_step hstep, rfl, ht.written hi hrs hu⟩, ?_⟩
  obtain ⟨-, -, _, -, rfl⟩ := State.bufWrite_eq_some.mp hu
  exact ⟨rfl, State.nextMove_hosts s⟩

/-- The completion step shows the frame (R179). -/
theorem Renders.step_complete (hr : Renders P h [] s) (hm : s.nextMove.1 = .render) :
    step s = .next (s.nextMove.2.completeShow h) ∧ FrameShown P (s.nextMove.2.completeShow h) := by
  obtain ⟨-, hrs, ht⟩ := hr.nextMove
  refine ⟨?_, (ht.frameShown hrs).of_sameBytes (State.completeShow_sameBytes h _) rfl rfl⟩
  rw [step_eq_takeMove hm]
  exact stepRender_of_completion hrs

/-- The completion step gives its host the response (OK, 0). -/
theorem Renders.givesResponse_completeShow {W : List ByteWrite} (hr : Renders P h W s) :
    GivesResponse s (s.nextMove.2.completeShow h) h { status := .ok, data := 0 } := by
  obtain ⟨a, ha⟩ := hr.inv.renderHost hr.rs
  exact (givesResponse_iff (q := ⟨.ok, 0⟩) (by simp) ha).mpr rfl

/-- The next step is a reset, or completes the `SHOW` of `P` of host `h`. -/
def CompletesNext (P : List Byte) (h : Nat) (u : State) : Prop :=
  u.nextMove.1 = .reset ∨
    ∃ t, step u = .next t ∧ t.rs = .idle ∧ t.reg.busy = false ∧ t.reg.lastErr = .ok ∧ FrameShown P t ∧
      GivesResponse u t h { status := .ok, data := 0 }

/-- A render in flight comes to a move of the render sequencer, still in flight, or to a reset (R178). -/
theorem Renders.reaches_move {W : List ByteWrite} (hr : Renders P h W s) :
    Reaches (fun u => Renders P h W u ∧ (u.nextMove.1 = .render ∨ u.nextMove.1 = .reset)) s := by
  refine Eventually.reaches (fun _ hu => hu.inv) (fun u t hu hq hs => ?_) ?_ hr
  · obtain ⟨hrender, hreset⟩ := not_or.mp hq
    exact hu.of_step_other hs hrender hreset
  · exact Eventually.trans (comesUp_of_fair (.inl rfl) s) fun u hu => .now (.inl hu)

/-- A render in flight comes to its completion step, by induction on what it has still to write. -/
theorem Renders.reaches_completion {W : List ByteWrite} (hr : Renders P h W s) :
    Reaches (fun u => u.rs.active = true ∧ CompletesNext P h u) s := by
  induction W generalizing s with
  | nil =>
    refine hr.reaches_move.trans fun u ⟨hu, hm⟩ => .now ⟨by rw [hu.rs]; rfl, ?_⟩
    obtain hm | hm := hm
    · obtain ⟨hstep, hframe⟩ := hu.step_complete hm
      exact .inr ⟨_, hstep, rfl, rfl, rfl, hframe, hu.givesResponse_completeShow⟩
    · exact .inl hm
  | cons w ws ih =>
    refine hr.reaches_move.trans fun u ⟨hu, hm⟩ => ?_
    obtain hm | hm := hm
    · obtain ⟨t, hstep, ht, -⟩ := hu.step_write hm
      refine .of_step hu.inv fun t' ht' => ?_
      obtain rfl : t = t' := Host.Outcome.next.inj (hstep.symm.trans ht')
      exact ih ht
    · exact .now ⟨by rw [hu.rs]; rfl, .inl hm⟩

/-- Where nothing else moves, a render takes one step for each byte and one more (R178, R179). -/
theorem Renders.run_render {W : List ByteWrite} {rest : List Move} {a : HostAgent} (hr : Renders P h W s)
    (hsched : s.sched = List.replicate (W.length + 1) .render ++ rest) (ha : s.hosts[h]? = some a) :
    ∃ u, Host.Core.run Sys2Proof.core (W.length + 1) s = .next u ∧ u.rs = .idle ∧ u.reg.busy = false ∧
      u.reg.lastErr = .ok ∧ FrameShown P u ∧ u.sched = rest ∧
      u.hosts[h]? = some { a with port := .free, received := a.received ++ [{ status := .ok, data := 0 }] } := by
  induction W generalizing s with
  | nil =>
    have hnext := State.nextMove_cons (m := .render) (rest := rest) hsched
    obtain ⟨hstep, hframe⟩ := hr.step_complete (by rw [hnext])
    rw [hnext] at hstep hframe
    exact ⟨_, run_one_of_step hstep, rfl, rfl, rfl, hframe, rfl, State.respondTo_same ⟨.ok, 0⟩ ha⟩
  | cons w ws ih =>
    have hnext := State.nextMove_cons (m := .render) (rest := List.replicate (ws.length + 1) .render ++ rest) hsched
    obtain ⟨t, hstep, ht, htsched, hhosts⟩ := hr.step_write (by rw [hnext])
    rw [hnext] at htsched
    obtain ⟨u, hu, hend⟩ := ih ht htsched (by rw [hhosts, ha])
    exact ⟨u, (run_succ_of_step hstep _).trans hu, hend⟩

end

/-! ## The obligations -/

/-- Settles O17: what each move does to a render that tracks its stream. -/
theorem everyStepKeepsTheRenderOnItsStream : Obligations.EveryStepKeepsTheRenderOnItsStream := by
  intro P s t hi ht hs
  obtain h | ⟨h, -, hrs, rfl⟩ | hm := (step_cases hs).renderTracks hi.nextMove ht.nextMove
  · exact .inl h
  · obtain ⟨hready, -⟩ := hi.nextMove.ready_busy_of_rendering hrs
    have hsame := State.completeShow_sameBytes h s.nextMove.2
    exact .inr (.inl ⟨rfl, hready, (ht.nextMove.frameShown hrs).of_sameBytes hsame rfl rfl⟩)
  · exact .inr (.inr hm)

/-- Settles O14: the head byte exists in a good state, and the fair moves come by turns. -/
theorem renderStepWritesTheHeadByte : Obligations.RenderStepWritesTheHeadByte := by
  refine ⟨comesUp_of_fair (.inl rfl), fun s h w ws hi hrs => ?_⟩
  obtain ⟨u, hu⟩ := hi.bufWrite_head hrs
  have hread := hi.bufRead_written hu
  have hstep := stepRender_of_bufWrite hrs hu
  obtain ⟨-, -, _, -, rfl⟩ := State.bufWrite_eq_some.mp hu
  refine ⟨_, hstep, rfl, ?_, fun b off hne => ?_, rfl⟩
  · obtain ⟨-, -, hx⟩ | ⟨hne, -⟩ := hread w.buf w.off
    · exact hx
    · exact absurd ⟨rfl, rfl⟩ hne
  · obtain ⟨hb, ho, -⟩ | ⟨-, hx⟩ := hread b off
    · exact absurd ⟨hb, ho⟩ hne
    · exact hx

/-- Settles O16: the write list that the acceptance captures. -/
theorem acceptedShowTracksItsStream : Obligations.AcceptedShowTracksItsStream := by
  intro count P s t _ hl hr hb hn h
  rw [exec_showPixels_of_accepted hl hr hb hn] at h
  cases h
  exact renderTracks_startRender (hn ▸ hl)

/-- Settles O18: by fairness to the completion step, and the count of steps where nothing else moves. -/
theorem acceptedShowCompletes : Obligations.AcceptedShowCompletes := by
  refine ⟨fun P s h W hi hrs ht => (Renders.mk hi hrs ht).reaches_completion,
    fun P s t rest a hi hr hb hl ha hp h => ?_⟩
  have hidle := (inv_iff.mp hi).1.idle_of_not_busy hb
  have hwaits : s.isWaiting s.issuer = true := by simpa [State.isWaiting, ha] using hp
  have hti : Inv t := hi.of_exec (by simp [State.rendersFor, hidle]) hwaits h
  rw [exec_showPixels_of_accepted hl hr hb rfl] at h
  cases h
  have hlen := renderList_length (length_drawn_streamSymbols s P)
  have hstart : ∀ ms, Renders P s.issuer _ { s.startRender P with sched := ms } :=
    fun ms => ⟨hti, rfl, renderTracks_startRender hl⟩
  rw [← hlen]
  exact (hstart _).run_render rfl ha

/-- Settles O19: a frame fixes every byte of the phase buffers, and canonical memories that read the same are equal. -/
theorem frameFixesTheBuffers : Obligations.FrameFixesTheBuffers :=
  fun _ _ _ hs ht hc hn hsr htr hfs hft => hs.mem_eq ht hc hn hsr htr fun _ _ => hfs.bufRead_eq hft hc hn

/-- Settles O49: the byte under the cursor exists in a good `Ready` state, and the fair moves come by turns. -/
theorem dmaReadEmitsTheByteAtTheCursor : Obligations.DmaReadEmitsTheByteAtTheCursor := by
  refine fun s => ⟨comesUp_of_fair (.inr rfl) s, stepDmaRead_of_not_running, fun hi hr => ?_⟩
  obtain ⟨d, x, hd, hx⟩ := hi.byte_at_cursor hr
  exact ⟨d, x, _, hd, hx, stepDmaRead_of_byte (hi.running_of_ready hr) hd hx, rfl,
    fun hend => if_pos hend, fun hend => if_neg hend, rfl⟩

end Sys2Proof.Machine

/-! SUPPORT. The proof that no move depends on descriptor flags or on `DESC_LAYOUT`: both are labels that a state can be
given anew, and every move does the same under new labels, up to them. -/

namespace Sys2Proof.Machine

/-! ## Labels -/

/-- A way to give new labels: to `DESC_LAYOUT`, and to the flags of each descriptor. -/
structure Relabel where
  layout : DescLayout → DescLayout
  flags : Desc → Desc
  /-- Labels are no links. -/
  links : ∀ d, (flags d).links = d.links
  /-- New labels do not depend on the labels before, where others are written in between. -/
  layout_layout : ∀ l, layout (layout l) = layout l
  flags_flags : ∀ d, flags (flags d) = flags d
  flags_set : ∀ d o e, flags { flags d with owner := o, eof := e } = flags { d with owner := o, eof := e }

/-- `c` with its `DESC_LAYOUT` labelled anew. -/
def Relabel.params (f : Relabel) (c : Params) : Params := { c with descLayout := f.layout c.descLayout }

/-- `s` labelled anew. -/
def Relabel.state (f : Relabel) (s : State) : State := { s with cfg := f.params s.cfg, desc := s.desc.map f.flags }

/-- The labels of `eraseFlags`. -/
def eraseLabels : Relabel where
  layout := id
  flags d := { d with owner := false, eof := false }
  links _ := rfl
  layout_layout _ := rfl
  flags_flags _ := rfl
  flags_set _ _ _ := rfl

/-- The labels of `withLayout`. -/
def layoutLabels (l : DescLayout) : Relabel where
  layout _ := l
  flags := id
  links _ := rfl
  layout_layout _ := rfl
  flags_flags _ := rfl
  flags_set _ _ _ := rfl

theorem eraseLabels_state : eraseLabels.state = State.eraseFlags := rfl

theorem layoutLabels_state (l : DescLayout) : (layoutLabels l).state = State.withLayout l := by
  funext s
  simp [Relabel.state, layoutLabels, State.withLayout, Relabel.params]

/-! ## What the model computes from the parameters does not read `DESC_LAYOUT` -/

section
variable (f : Relabel)

theorem Relabel.params_params (c : Params) : f.params (f.params c) = f.params c := by
  simp [Relabel.params, f.layout_layout]

theorem Relabel.byteSymbols (c : Params) (j : Nat) (b : Byte) : byteSymbols (f.params c) j b = byteSymbols c j b := rfl

theorem Relabel.streamSymbols (c : Params) (j : Nat) (P : List Byte) :
    streamSymbols (f.params c) j P = streamSymbols c j P := by
  induction P generalizing j with
  | nil => rfl
  | cons b P ih => rw [Machine.streamSymbols, Machine.streamSymbols, ih, f.byteSymbols]

theorem Relabel.renderList (c : Params) (P : List Byte) (orders : List ByteOrder) :
    renderList (f.params c) P orders = renderList c P orders := by
  rw [Machine.renderList, Machine.renderList, f.streamSymbols]
  rfl

/-! ## The operations under new labels -/

variable (s : State)

theorem Relabel.state_state : f.state (f.state s) = f.state s := by
  simp [Relabel.state, f.params_params, f.flags_flags]

theorem Relabel.desc_getElem? (i : Nat) : (f.state s).desc[i]? = s.desc[i]?.map f.flags := List.getElem?_map

theorem Relabel.bufRead (b : Buf) (off : Nat) : (f.state s).bufRead b off = s.bufRead b off := by
  cases b <;> rfl

theorem Relabel.raise (i : Instr) (e : Status) : (f.state s).raise i e = f.state (s.raise i e) := by
  cases i <;> rfl

theorem Relabel.respond (st : Status) (d : Word) : (f.state s).respond st d = f.state (s.respond st d) := rfl

/-- `INIT` builds the ring anew, with the labels of its own. -/
theorem Relabel.initialise (count : BitVec 16) :
    f.state ((f.state s).initialise count) = f.state (s.initialise count) := by
  have hring : buildRing (f.params s.cfg) (12 * count.toNat) = buildRing s.cfg (12 * count.toNat) := rfl
  simp only [Relabel.state, State.initialise_desc, State.initialise_cfg, hring, f.params_params]
  rfl

theorem Relabel.startRender (P : List Byte) : (f.state s).startRender P = f.state (s.startRender P) := by
  have hcfg : (f.state s).cfg = f.params s.cfg := rfl
  simp only [State.startRender, hcfg, f.streamSymbols, f.renderList]
  rfl

/-! ## Outcomes that are the same under new labels -/

/-- Two outcomes that are the same but for the labels. -/
def Relabel.Same (o₁ o₂ : Host.Outcome State Fault Refusal) : Prop := mapNext f.state o₁ = mapNext f.state o₂

variable {f s}

theorem Relabel.Same.refl (o : Host.Outcome State Fault Refusal) : f.Same o o := rfl

theorem Relabel.Same.next {t u : State} (h : f.state t = f.state u) : f.Same (.next t) (.next u) :=
  congrArg Host.Outcome.next h

/-- A state under new labels is the same as the state. -/
theorem Relabel.Same.next_state (t : State) : f.Same (.next (f.state t)) (.next t) := .next (f.state_state t)

theorem Relabel.Same.raise (i : Instr) (e : Status) : f.Same (.next ((f.state s).raise i e)) (.next (s.raise i e)) :=
  f.raise s i e ▸ .next_state _

theorem Relabel.Same.respond (st : Status) (d : Word) :
    f.Same (.next ((f.state s).respond st d)) (.next (s.respond st d)) := .next_state (s.respond st d)

/-! ## Commands under new labels -/

/-- `BUF_RDH` reads the same bytes. -/
theorem Relabel.Same.bufRdh (sel : BitVec 4) (idx : BitVec 20) :
    f.Same (execBufRdh sel idx (f.state s)) (execBufRdh sel idx s) := by
  have hready : (f.state s).reg.state = s.reg.state := rfl
  have hdither : (f.state s).cfg.dither = s.cfg.dither := rfl
  have hsymbols : (f.state s).symPerPhase = s.symPerPhase := rfl
  simp only [execBufRdh, f.bufRead, hready, hdither, hsymbols]
  split_ifs
  · exact .raise _ _
  · exact .raise _ _
  · exact .raise _ _
  · cases s.bufRead (.phase sel.toNat) (2 * idx.toNat) with
    | none => exact .refl _
    | some b0 =>
      cases s.bufRead (.phase sel.toNat) (2 * idx.toNat + 1) with
      | none => exact .refl _
      | some b1 => exact .respond _ _

/-- `BUF_RDB` selects the same buffer and reads the same byte. -/
theorem Relabel.Same.bufRdb (sel : BitVec 4) (idx : BitVec 20) :
    f.Same (execBufRdb sel idx (f.state s)) (execBufRdb sel idx s) := by
  have hready : (f.state s).reg.state = s.reg.state := rfl
  have hselect : selectBuffer (f.state s) sel = selectBuffer s sel := rfl
  simp only [execBufRdb, f.bufRead, hready, hselect]
  split_ifs
  · exact .raise _ _
  · cases selectBuffer s sel with
    | none => exact .raise _ _
    | some bl =>
      simp only
      split_ifs
      · exact .raise _ _
      · cases s.bufRead bl.1 idx.toNat with
        | none => exact .refl _
        | some x => exact .respond _ _

/-- A field of a descriptor that is not its flags is among its links. -/
theorem descFieldValue_of_links {d e : Desc} (h : d.links = e.links) {fld : DescField} (hf : fld ≠ .flags) :
    descFieldValue d fld = descFieldValue e fld := by
  simp only [Desc.links, Prod.mk.injEq] at h
  obtain ⟨hb, hl, hn⟩ := h
  cases fld with
  | buf => rw [descFieldValue, descFieldValue, hb]
  | len => rw [descFieldValue, descFieldValue, hl]
  | next => rw [descFieldValue, descFieldValue, hn]
  | flags => exact absurd rfl hf

/-- `DESC_RD` reads the same field, but for the flags. -/
theorem Relabel.Same.descRd {fld : DescField} (di : BitVec 4) (h : fld = .flags → ∀ d, f.flags d = d) :
    f.Same (execDescRd fld di (f.state s)) (execDescRd fld di s) := by
  have hready : (f.state s).reg.state = s.reg.state := rfl
  have hndesc : ndesc (f.state s).cfg = ndesc s.cfg := rfl
  have hvalue : ∀ d, descFieldValue (f.flags d) fld = descFieldValue d fld := by
    intro d
    by_cases hf : fld = .flags
    · rw [h hf]
    · exact descFieldValue_of_links (f.links d) hf
  simp only [execDescRd, hready, hndesc, f.desc_getElem?]
  split_ifs
  · exact .raise _ _
  · exact .raise _ _
  · cases s.desc[di.toNat]? with
    | none => exact .refl _
    | some d =>
      simp only [Option.map_some, hvalue]
      exact .respond _ _

/-- Every command but a read of flags that the labels change does the same under new labels. -/
theorem Relabel.Same.exec {i : Instr} (h : ∀ di, i = .descRd .flags di → ∀ d, f.flags d = d) :
    f.Same (exec i (f.state s)) (exec i s) := by
  have hready : (f.state s).reg = s.reg := rfl
  cases i with
  | init count =>
    have halloc : allocOK (f.state s).cfg count.toNat = allocOK s.cfg count.toNat := rfl
    simp only [Machine.exec, execInit, hready, halloc]
    split_ifs
    · exact .raise _ _
    · exact .raise _ _
    · exact .next (f.initialise s count)
  | showPixels count P =>
    simp only [Machine.exec, execShowPixels, hready]
    split_ifs
    · exact .refl _
    · exact .raise _ _
    · exact .raise _ _
    · exact .raise _ _
    · exact f.startRender s P ▸ .next_state _
  | teardown =>
    simp only [Machine.exec, execTeardown, hready]
    cases s.reg.state with
    | uninitialized => exact .raise _ _
    | stopped => exact .next_state ((s.setLastErr .ok).respond .ok 0)
    | ready =>
      simp only
      split_ifs
      · exact .raise _ _
      · exact .next_state (s.dmaStop.release.respond .ok 0)
  | lutRd ph val =>
    by_cases hp : s.cfg.dither ≤ ph.toNat
    · rw [exec_lutRd_of_le hp, exec_lutRd_of_le (s := f.state s) hp]
      exact .raise _ _
    · rw [exec_lutRd_of_lt (Nat.lt_of_not_le hp), exec_lutRd_of_lt (s := f.state s) (Nat.lt_of_not_le hp)]
      exact .respond _ _
  | symRd nib => exact .respond _ _
  | enc ph val =>
    by_cases hp : s.cfg.dither ≤ ph.toNat
    · rw [exec_enc_of_le hp, exec_enc_of_le (s := f.state s) hp]
      exact .raise _ _
    · rw [exec_enc_of_lt (Nat.lt_of_not_le hp), exec_enc_of_lt (s := f.state s) (Nat.lt_of_not_le hp)]
      exact .respond _ _
  | bufRdh sel idx => exact .bufRdh sel idx
  | bufRdb sel idx => exact .bufRdb sel idx
  | descRd fld di => exact .descRd di fun hf => h di (by rw [hf])
  | regRd rn =>
    have hvalue : regValue (f.state s) rn = regValue s rn := rfl
    simp only [Machine.exec, execRegRd, hvalue]
    cases regValue s rn with
    | none => exact .raise _ _
    | some v => exact .respond _ _

/-! ## Moves under new labels -/

theorem Relabel.Same.next_hosts (hosts : List HostAgent) :
    f.Same (.next { f.state s with hosts := hosts }) (.next { s with hosts := hosts }) :=
  .next_state { s with hosts := hosts }

theorem Relabel.Same.stepIssue (h : Nat) : f.Same (stepIssue h (f.state s)) (stepIssue h s) := by
  have hhosts : (f.state s).hosts = s.hosts := rfl
  simp only [Machine.stepIssue, hhosts]
  split
  · exact .next_state s
  · split
    · exact .next_state s
    · exact .next_state s
    · split_ifs
      · exact .refl _
      · exact .next_hosts _

theorem Relabel.Same.stepAccept {h : Nat} (hflags : ∀ cmd di, s.pending h = some cmd →
      decode (cmd.word :: cmd.payload) = .ok (.descRd .flags di) [] → ∀ d, f.flags d = d) :
    f.Same (stepAccept h (f.state s)) (stepAccept h s) := by
  have hpending : (f.state s).pending h = s.pending h := rfl
  simp only [Machine.stepAccept, hpending]
  cases hp : s.pending h with
  | none => exact .next_state s
  | some cmd =>
    simp only
    cases hd : decode (cmd.word :: cmd.payload) with
    | ok i rest =>
      cases rest with
      | nil => exact .exec (s := { s with issuer := h }) fun di hi => hflags cmd di hp (by rw [hd, hi])
      | cons => exact .refl _
    | illegal => exact .next_state ({ s with issuer := h } : State).illegalWord
    | shortPayload => exact .refl _
    | noWord => exact .next_state s

/-- A write goes to the same byte. -/
theorem Relabel.bufWrite (b : Buf) (off : Nat) (x : Byte) :
    (f.state s).bufWrite b off x = (s.bufWrite b off x).map f.state := by
  have hlen : (f.state s).bufLen b = s.bufLen b := by cases b <;> rfl
  have hmem : (f.state s).mem = s.mem := rfl
  simp only [State.bufWrite, hlen, hmem]
  split_ifs
  · cases s.mem.buffer b <;> rfl
  · rfl

theorem Relabel.Same.stepRender : f.Same (stepRender (f.state s)) (stepRender s) := by
  have hrs : (f.state s).rs = s.rs := rfl
  simp only [Machine.stepRender, hrs, Relabel.bufWrite]
  cases s.rs with
  | idle => exact .next_state s
  | rendering h W =>
    cases W with
    | nil => exact .next_state (s.completeShow h)
    | cons w ws =>
      simp only
      cases s.bufWrite w.buf w.off w.val with
      | none => exact .refl _
      | some u => exact .next_state { u with rs := .rendering h ws }

theorem Relabel.Same.stepDmaRead : f.Same (stepDmaRead (f.state s)) (stepDmaRead s) := by
  have hdma : (f.state s).dma = s.dma := rfl
  simp only [Machine.stepDmaRead, hdma, f.desc_getElem?, f.bufRead]
  split_ifs
  · cases s.desc[s.dma.cur]? with
    | none => exact .refl _
    | some d =>
      obtain ⟨hb, hl, hn⟩ : (f.flags d).buf = d.buf ∧ (f.flags d).len = d.len ∧ (f.flags d).next = d.next := by
        simpa [Desc.links] using f.links d
      have hadvance : s.dma.advance (f.flags d) = s.dma.advance d := by simp only [DmaCursor.advance, hl, hn]
      simp only [Option.map_some, hb, hadvance]
      cases s.bufRead d.buf s.dma.off with
      | none => exact .refl _
      | some x => exact .next_state { s with stream := s.stream ++ [x], dma := s.dma.advance d }
  · exact .next_state s

/-- Flags written under other labels are the same under new labels. -/
theorem Relabel.map_modify (l : List Desc) (i : Nat) (o e : Bool) :
    ((l.map f.flags).modify i fun d => { d with owner := o, eof := e }).map f.flags =
      (l.modify i fun d => { d with owner := o, eof := e }).map f.flags := by
  apply List.ext_getElem?
  intro j
  simp only [List.getElem?_map, List.getElem?_modify]
  cases l[j]? with
  | none => rfl
  | some d =>
    by_cases hij : i = j
    · simp [hij, f.flags_set]
    · simp [hij, f.flags_flags]

theorem Relabel.Same.stepDmaFlags (d : Nat) (o e : Bool) :
    f.Same (stepDmaFlags d o e (f.state s)) (stepDmaFlags d o e s) := by
  by_cases h : s.dma.configured = true ∧ s.reg.state = .ready
  · rw [stepDmaFlags_of_writable h, stepDmaFlags_of_writable (s := f.state s) h]
    refine .next ?_
    simp only [Relabel.state, f.params_params, f.map_modify]
  · rw [stepDmaFlags_of_not_writable h, stepDmaFlags_of_not_writable (s := f.state s) h]
    exact .next_state s

/-- Every move but the acceptance of a read of flags that the labels change does the same under new labels. -/
theorem Relabel.Same.takeMove {m : Move} (hflags : ∀ h cmd di, m = .accept h → s.pending h = some cmd →
      decode (cmd.word :: cmd.payload) = .ok (.descRd .flags di) [] → ∀ d, f.flags d = d) :
    f.Same (takeMove m (f.state s)) (takeMove m s) := by
  cases m with
  | issue h => exact .stepIssue h
  | accept h => exact .stepAccept fun cmd di => hflags h cmd di rfl
  | render => exact .stepRender
  | dmaRead => exact .stepDmaRead
  | dmaFlags d o e => exact .stepDmaFlags d o e
  | reset => exact .next (by simp [Relabel.state, f.params_params])

end

/-! ## The obligation -/

/-- An outcome on the instance with `DESC_LAYOUT` `l` stays as it is under that layout: no move changes it (R105). -/
theorem mapNext_withLayout_takeMove (l : DescLayout) (m : Move) (s : State) :
    mapNext (State.withLayout l) (takeMove m (s.withLayout l)) = takeMove m (s.withLayout l) := by
  cases h : takeMove m (s.withLayout l) with
  | next t =>
    obtain ⟨hcfg, -⟩ := (takeMove_cases h).histories
    have hlayout : t.withLayout l = t := by
      rw [State.withLayout, hcfg]
      simp only [State.withLayout_cfg]
      rw [← State.withLayout_cfg, ← hcfg]
    rw [mapNext, hlayout]
  | fault r => rfl
  | refused r => rfl

/-- Settles O54: flags and `DESC_LAYOUT` are labels, and every move does the same under new labels. -/
theorem flagsInfluenceNothing : Obligations.FlagsInfluenceNothing := by
  refine ⟨fun i s hi => ?_, fun m s hm => ?_, fun l m s => ?_⟩
  · rw [← eraseLabels_state]
    exact Relabel.Same.exec (f := eraseLabels) fun di h => absurd h (hi di)
  · rw [← eraseLabels_state]
    exact Relabel.Same.takeMove (f := eraseLabels) fun h cmd di hm' hp hd => absurd hd (hm h cmd di hm' hp)
  · have hsame := Relabel.Same.takeMove (f := layoutLabels l) (s := s) (m := m) fun _ _ _ _ _ _ _ => rfl
    rw [Relabel.Same, layoutLabels_state] at hsame
    rw [← hsame, mapNext_withLayout_takeMove]

end Sys2Proof.Machine

/-! SUPPORT. The proofs about the reference contents of the table: rounding a value to `N` phases, and the table
computed for a rational exponent. -/

namespace Sys2Proof.Machine

/-! ## Rounding a value to `N` phases (R103) -/

/-- `k` of R103: how many of `n` phases hold one more than `⌊f⌋`. -/
noncomputable def phasesUp (n : ℕ) (f : ℝ) : ℤ := ⌊(n : ℝ) * (f - ⌊f⌋) + 1 / 2⌋

/-- What the reference construction holds in phase `p` of `n` for the value `f` (R103). -/
noncomputable def phaseValue (n p : ℕ) (f : ℝ) : ℤ := if (p : ℤ) < phasesUp n f then ⌊f⌋ + 1 else ⌊f⌋

theorem isReferenceFor_iff {gamma : ℝ} {cfg : Params} : IsReferenceFor gamma cfg ↔
    ∀ (v : Byte) (f : ℝ), IsIdeal gamma v f → ∀ p, p < cfg.dither →
      ((gdtEntry cfg p v).toNat : ℤ) = phaseValue cfg.dither p f := Iff.rfl

section
variable (n : ℕ) (f : ℝ)

theorem phasesUp_nonneg : 0 ≤ phasesUp n f := by
  have h : 0 ≤ f - ⌊f⌋ := Int.fract_nonneg f
  exact Int.floor_nonneg.mpr (by positivity)

theorem phasesUp_le : phasesUp n f ≤ n := by
  have h : f - ⌊f⌋ ≤ 1 := (Int.fract_lt_one f).le
  have hmul : (n : ℝ) * (f - ⌊f⌋) ≤ n := mul_le_of_le_one_right n.cast_nonneg h
  refine Int.lt_add_one_iff.mp (Int.floor_lt.mpr ?_)
  push_cast
  linarith

/-- `k` is `N` times the fraction, rounded. -/
theorem abs_phasesUp_sub_le : |(phasesUp n f : ℝ) - n * (f - ⌊f⌋)| ≤ 1 / 2 := by
  have hle := Int.floor_le ((n : ℝ) * (f - ⌊f⌋) + 1 / 2)
  have hlt := Int.lt_floor_add_one ((n : ℝ) * (f - ⌊f⌋) + 1 / 2)
  rw [abs_le, phasesUp]
  constructor <;> linarith

/-- A value that some phase rounds up is no integer. -/
theorem ceil_of_phasesUp_pos (h : 0 < phasesUp n f) : ⌈f⌉ = ⌊f⌋ + 1 := by
  have hone : (1 : ℝ) ≤ n * (f - ⌊f⌋) + 1 / 2 := by
    have := Int.le_floor.mp (Int.add_one_le_of_lt h)
    simpa using this
  have hne : f - ⌊f⌋ ≠ 0 := by
    intro h0
    rw [h0] at hone
    norm_num at hone
  have hpos : (⌊f⌋ : ℝ) < f := lt_of_le_of_ne (Int.floor_le f) fun h0 => hne (by rw [← h0]; simp)
  refine le_antisymm (Int.ceil_le_floor_add_one f) (Int.add_one_le_of_lt ?_)
  exact Int.lt_ceil.mpr hpos

/-- Each phase holds the value rounded down or up (R102 (a)). -/
theorem phaseValue_eq_floor_or_ceil (p : ℕ) : phaseValue n p f = ⌊f⌋ ∨ phaseValue n p f = ⌈f⌉ := by
  rw [phaseValue]
  split_ifs with h
  · exact .inr (ceil_of_phasesUp_pos n f (by omega)).symm
  · exact .inl rfl

/-- No two phases differ by more than one (R102 (c)). -/
theorem phaseValue_le_add_one (p q : ℕ) : phaseValue n p f ≤ phaseValue n q f + 1 := by
  simp only [phaseValue]
  split_ifs <;> omega

theorem phaseValue_nonneg {f : ℝ} (hf : 0 ≤ f) (p : ℕ) : 0 ≤ phaseValue n p f := by
  obtain h | h := phaseValue_eq_floor_or_ceil n f p <;> rw [h]
  · exact Int.floor_nonneg.mpr hf
  · exact Int.ceil_nonneg hf

theorem phaseValue_le {f : ℝ} (hf : f ≤ 255) (p : ℕ) : phaseValue n p f ≤ 255 := by
  obtain h | h := phaseValue_eq_floor_or_ceil n f p <;> rw [h]
  · exact Int.floor_le_iff.mpr (by push_cast; linarith)
  · exact Int.ceil_le.mpr (by exact_mod_cast hf)

/-- The first `m` phases, summed. -/
theorem sum_phaseValue (m : ℕ) : ((List.range m).map fun p => (phaseValue n p f : ℝ)).sum =
    m * ⌊f⌋ + (min (m : ℤ) (phasesUp n f) : ℤ) := by
  induction m with
  | zero => simp [phasesUp_nonneg]
  | succ m ih =>
    rw [List.range_succ, List.map_append, List.sum_append, ih, List.map_singleton, List.sum_singleton, phaseValue]
    split_ifs with h
    · rw [min_eq_left h.le, min_eq_left (by push_cast; omega)]
      simp
      ring
    · rw [min_eq_right (by omega), min_eq_right (by push_cast; omega)]
      simp
      ring

/-- The mean of all phases is within `1 / (2N)` of the value (R104). -/
theorem abs_mean_phaseValue_sub_le {n : ℕ} (hn : 1 ≤ n) :
    |((List.range n).map fun p => (phaseValue n p f : ℝ)).sum / n - f| ≤ 1 / (2 * (n : ℝ)) := by
  have hpos : (0 : ℝ) < n := by exact_mod_cast hn
  have hmean : (n * ⌊f⌋ + (phasesUp n f : ℝ)) / n - f = (phasesUp n f - n * (f - ⌊f⌋)) / n := by
    field_simp
    ring
  rw [sum_phaseValue, min_eq_right (phasesUp_le n f), hmean, abs_div, abs_of_pos hpos, div_le_iff₀ hpos]
  calc |(phasesUp n f : ℝ) - n * (f - ⌊f⌋)| ≤ 1 / 2 := abs_phasesUp_sub_le n f
    _ = 1 / (2 * (n : ℝ)) * n := by field_simp

/-- One phase holds the value rounded half up (R106 (c)). -/
theorem phaseValue_one : phaseValue 1 0 f = ⌊f + 1 / 2⌋ := by
  have hsplit : ⌊f + 1 / 2⌋ = ⌊f⌋ + phasesUp 1 f := by
    rw [phasesUp, ← Int.floor_intCast_add]
    congr 1
    push_cast
    ring
  have hnonneg := phasesUp_nonneg 1 f
  have hle := phasesUp_le 1 f
  rw [phaseValue, hsplit]
  push_cast at hle
  split_ifs <;> omega

end

/-! ## The ideal curve (R101) -/

theorem IsIdeal.bounds {gamma : ℝ} (hg : 0 < gamma) {v : Byte} {f : ℝ} (hf : IsIdeal gamma v f) : 0 ≤ f ∧ f ≤ 255 := by
  have hv : (v.toNat : ℝ) ≤ 255 := by exact_mod_cast Nat.le_of_lt_succ v.isLt
  have hbase : (v.toNat : ℝ) / 255 ≤ 1 := by rw [div_le_one (by norm_num)]; exact hv
  have hpow : ((v.toNat : ℝ) / 255) ^ gamma ≤ 1 := Real.rpow_le_one (by positivity) hbase hg.le
  rw [hf]
  exact ⟨by positivity, by linarith⟩

/-- For `GAMMA = 1` the ideal curve is the identity. -/
theorem isIdeal_one (v : Byte) : IsIdeal 1 v (v.toNat : ℤ) := by
  rw [IsIdeal, Real.rpow_one]
  push_cast
  ring

/-! ## Reference contents (R103, R104) -/

/-- The sum of a reference column is that of the rounded phases. -/
theorem IsReferenceFor.sum_eq {gamma : ℝ} {cfg : Params} (h : IsReferenceFor gamma cfg) {v : Byte} {f : ℝ}
    (hf : IsIdeal gamma v f) : ((List.range cfg.dither).map fun p => ((gdtEntry cfg p v).toNat : ℝ)).sum =
      ((List.range cfg.dither).map fun p => (phaseValue cfg.dither p f : ℝ)).sum := by
  congr 1
  refine List.map_congr_left fun p hp => ?_
  exact_mod_cast h v f hf p (List.mem_range.mp hp)

/-- The mean of a reference column is within `1 / (2N)` of the ideal curve (R104). -/
theorem IsReferenceFor.mean {gamma : ℝ} {cfg : Params} (h : IsReferenceFor gamma cfg) (hN : 1 ≤ cfg.dither) {v : Byte}
    {f : ℝ} (hf : IsIdeal gamma v f) :
    |(((List.range cfg.dither).map fun p => ((gdtEntry cfg p v).toNat : ℝ)).sum) / cfg.dither - f|
      ≤ 1 / (2 * (cfg.dither : ℝ)) := by
  rw [h.sum_eq hf]
  exact abs_mean_phaseValue_sub_le f hN

theorem IsReferenceFor.admissible {gamma : ℝ} {cfg : Params} (h : IsReferenceFor gamma cfg) (hN : 1 ≤ cfg.dither) :
    AdmissibleFor gamma cfg := by
  have hpos : (0 : ℝ) < cfg.dither := by exact_mod_cast hN
  refine fun v f hf => ⟨fun p hp => ?_, (h.mean hN hf).trans ?_, fun p q hp hq => ?_⟩
  · rw [isReferenceFor_iff.mp h v f hf p hp]
    exact phaseValue_eq_floor_or_ceil ..
  · exact one_div_le_one_div_of_le hpos (by linarith)
  · have hpq := phaseValue_le_add_one cfg.dither f p q
    rw [← isReferenceFor_iff.mp h v f hf p hp, ← isReferenceFor_iff.mp h v f hf q hq] at hpq
    exact_mod_cast hpq

/-- A byte holds the value of a phase of the ideal curve. -/
theorem toNat_ofNat_phaseValue {gamma : ℝ} (hg : 0 < gamma) {v : Byte} {f : ℝ} (hf : IsIdeal gamma v f) (n p : ℕ) :
    ((BitVec.ofNat 8 (phaseValue n p f).toNat).toNat : ℤ) = phaseValue n p f := by
  obtain ⟨h0, h255⟩ := hf.bounds hg
  have hnonneg := phaseValue_nonneg n h0 p
  have hle := phaseValue_le n h255 p
  rw [BitVec.toNat_ofNat, Nat.mod_eq_of_lt (by omega), Int.toNat_of_nonneg hnonneg]

/-- An entry of a table that is given phase by phase and value by value. -/
theorem gdtEntry_of_map {cfg : Params} {n p : ℕ} {g : ℕ → ℕ → Byte}
    (h : cfg.gdt = (List.range n).map fun p => (List.range 256).map (g p)) (hp : p < n) (v : Byte) :
    gdtEntry cfg p v = g p v.toNat := by
  simp [gdtEntry, h, List.getD_eq_getElem?_getD, hp, v.isLt]

/-- The reference contents for a real exponent (R103). -/
noncomputable def realReferenceTable (n : ℕ) (gamma : ℝ) : List (List Byte) :=
  (List.range n).map fun p => (List.range 256).map fun v : ℕ =>
    BitVec.ofNat 8 (phaseValue n p (255 * ((v : ℝ) / 255) ^ gamma)).toNat

theorem isReferenceFor_realReferenceTable {gamma : ℝ} (hg : 0 < gamma) {cfg : Params}
    (h : cfg.gdt = realReferenceTable cfg.dither gamma) : IsReferenceFor gamma cfg := by
  refine isReferenceFor_iff.mpr fun v f hf p hp => ?_
  rw [gdtEntry_of_map h hp, ← toNat_ofNat_phaseValue hg hf, hf]

/-! ## The reference contents for a rational exponent (log entry 10) -/

/-- The greatest number that a bounded search finds is the floor of the bound it tests against. -/
theorem greatest_eq_floor {good : ℕ → Bool} {x : ℝ} (hx : 0 ≤ x) (hgood : ∀ m, 1 ≤ m → (good m = true ↔ (m : ℝ) ≤ x))
    {bound : ℕ} (hb : ⌊x⌋ ≤ bound) : (greatest good bound : ℤ) = ⌊x⌋ := by
  induction bound with
  | zero => exact (le_antisymm hb (Int.floor_nonneg.mpr hx)).symm
  | succ n ih =>
    rw [greatest]
    have htest := hgood (n + 1) n.succ_pos
    have hfloor : ((n + 1 : ℕ) : ℤ) ≤ ⌊x⌋ ↔ ((n + 1 : ℕ) : ℝ) ≤ x := by rw [Int.le_floor]; norm_cast
    split_ifs with h
    · exact le_antisymm (hfloor.mpr (htest.mp h)) hb
    · refine ih (Int.lt_add_one_iff.mp (lt_of_not_ge fun hge => h (htest.mpr (hfloor.mp ?_))))
      exact_mod_cast hge

section
variable {num den : ℕ} {v : Byte} {f : ℝ}

/-- A power of the ideal curve that clears its exponent (R101). -/
theorem IsIdeal.pow_den (hden : 0 < den) (hf : IsIdeal ((num : ℝ) / den) v f) :
    f ^ den * 255 ^ num = 255 ^ den * (v.toNat : ℝ) ^ num := by
  have hd : (den : ℝ) ≠ 0 := by exact_mod_cast hden.ne'
  have hpow : (((v.toNat : ℝ) / 255) ^ ((num : ℝ) / den)) ^ den = ((v.toNat : ℝ) / 255) ^ num := by
    rw [← Real.rpow_natCast, ← Real.rpow_mul (by positivity), div_mul_cancel₀ _ hd, Real.rpow_natCast]
  rw [hf, mul_pow, hpow, div_pow, mul_assoc, div_mul_cancel₀ _ (by positivity)]

/-- The comparison of natural numbers is that with the ideal curve. -/
theorem leIdeal_iff (hden : 0 < den) (h0 : 0 ≤ f) (hf : IsIdeal ((num : ℝ) / den) v f) (a b : ℕ) :
    leIdeal num den v.toNat a b = true ↔ (a : ℝ) ≤ b * f := by
  have hpos : (0 : ℝ) < 255 ^ num := by positivity
  rw [leIdeal, decide_eq_true_iff]
  calc a ^ den * 255 ^ num ≤ b ^ den * (255 ^ den * v.toNat ^ num)
      ↔ (a : ℝ) ^ den * 255 ^ num ≤ b ^ den * (255 ^ den * (v.toNat : ℝ) ^ num) := by norm_cast
    _ ↔ (a : ℝ) ^ den * 255 ^ num ≤ (b * f) ^ den * 255 ^ num := by rw [← hf.pow_den hden, mul_pow, mul_assoc]
    _ ↔ (a : ℝ) ≤ b * f := by
      rw [mul_le_mul_iff_left₀ hpos, pow_le_pow_iff_left₀ a.cast_nonneg (by positivity) hden.ne']

variable (hnum : 0 < num) (hden : 0 < den) (hf : IsIdeal ((num : ℝ) / den) v f)
include hnum hden hf

theorem IsIdeal.bounds_of_rational : 0 ≤ f ∧ f ≤ 255 :=
  hf.bounds (div_pos (by exact_mod_cast hnum) (by exact_mod_cast hden))

theorem idealFloor_eq : (idealFloor num den v.toNat : ℤ) = ⌊f⌋ := by
  obtain ⟨h0, h255⟩ := hf.bounds_of_rational hnum hden
  refine greatest_eq_floor h0 (fun m _ => ?_) (Int.floor_le_iff.mpr (by push_cast; linarith))
  rw [leIdeal_iff hden h0 hf, Nat.cast_one, one_mul]

theorem roundedUp_eq (n : ℕ) : (roundedUp n num den v.toNat : ℤ) = phasesUp n f := by
  obtain ⟨h0, -⟩ := hf.bounds_of_rational hnum hden
  have hlo : (idealFloor num den v.toNat : ℝ) = ⌊f⌋ := by exact_mod_cast idealFloor_eq hnum hden hf
  have hfrac : 0 ≤ f - ⌊f⌋ := Int.fract_nonneg f
  refine greatest_eq_floor (by positivity) (fun k hk => ?_) (phasesUp_le n f)
  rw [leIdeal_iff hden h0 hf, Nat.cast_sub (by omega)]
  push_cast
  rw [hlo]
  constructor <;> intro h <;> linarith

/-- The computed entry is the value of its phase. -/
theorem referenceEntry_eq (n p : ℕ) :
    ((referenceEntry n num den p v.toNat).toNat : ℤ) = phaseValue n p f := by
  have hg : (0 : ℝ) < (num : ℝ) / den := div_pos (by exact_mod_cast hnum) (by exact_mod_cast hden)
  have hvalue : ((if p < roundedUp n num den v.toNat then idealFloor num den v.toNat + 1
      else idealFloor num den v.toNat : ℕ) : ℤ) = phaseValue n p f := by
    have hup := roundedUp_eq hnum hden hf n
    have hlo := idealFloor_eq hnum hden hf
    rw [phaseValue, ← hup, ← hlo]
    push_cast
    simp only [Nat.cast_lt]
  rw [← toNat_ofNat_phaseValue hg hf, ← hvalue, Int.toNat_natCast, referenceEntry]

end

/-! ## The obligations -/

/-- Settles O43: the rounding of one value to `N` phases, and the searches of the computed table as floors. -/
theorem referenceTableIsAdmissible : Obligations.ReferenceTableIsAdmissible := by
  refine ⟨fun gamma cfg _ hN h => ⟨h.admissible hN, fun v f => h.mean hN⟩, fun gamma cfg hg =>
    ⟨realReferenceTable cfg.dither gamma, by simp [realReferenceTable], ?_, isReferenceFor_realReferenceTable hg rfl⟩,
    fun cfg num den hnum hden h => isReferenceFor_iff.mpr fun v f hf p hp => ?_⟩
  · intro row hrow
    obtain ⟨p, -, rfl⟩ := List.mem_map.mp hrow
    rw [List.length_map, List.length_range]
  · rw [gdtEntry_of_referenceTable h hp, referenceEntry_eq hnum hden hf]

/-- Settles O44: the integers of the ideal curve, and the rounding of one value to one phase. -/
theorem admissibleTableSpecialCases : Obligations.AdmissibleTableSpecialCases := by
  refine ⟨fun gamma cfg p hg h hp => ⟨h.gdtEntry_zero hg hp, h.gdtEntry_max hp, fun v f n hf hn => ?_, ?_⟩,
    fun gamma cfg v f _ hN h hf => ?_, fun num den v f hnum hden hf => ?_⟩
  · exact h.gdtEntry_of_integer (hn ▸ hf) hp
  · rintro rfl v
    exact BitVec.eq_of_toNat_eq (by exact_mod_cast h.gdtEntry_of_integer (isIdeal_one v) hp)
  · rw [isReferenceFor_iff.mp h v f hf 0 (by omega), hN, phaseValue_one]
  · rw [referenceEntry_eq hnum hden hf, phaseValue_one]

end Sys2Proof.Machine
